-- ==== Sys2Proof/Word.lean ====
section
/-!
DEFINITION. The plain value types of the core: bytes, channel indices and the eight-entry tables.
Rules: 00_scope.md R13, 20_memory.md R55, R56.
-/
namespace Sys2Proof

/-- A byte: 8 bits, an unsigned integer 0..255 (R13). Every field of every frame is one byte (R56). -/
abbrev Byte := BitVec 8

/-- A channel index `i = c - 1`, 0..7, for the channel number `c` in 1..8 (R13, R55). -/
abbrev Chan := Fin 8

/-- A table with one entry per channel, addressed by channel index (R55). -/
abbrev Table (α : Type) := Vector α 8

end Sys2Proof
end

