-- ==== Sys2Proof/Machine/Checksum.lean ====
section
/-!
DEFINITION. The shared checksum routine (44_checksum.md), used by the decoder, the Frame Reader and the Frame Writer (R193).
-/
namespace Sys2Proof

/-- `CSUM8` (R190): the sum of the bytes modulo 256, from 0, carries dropped. -/
def csum8 (bytes : List Byte) : Byte := bytes.foldl (fun acc b => acc + b) 0

/-- `CSUM_OK` (R192). -/
def csumOk (bytes : List Byte) (c : Byte) : Bool := csum8 bytes == c

end Sys2Proof
end

