-- ==== Sys2Proof/Config.lean ====
section
/-!
DEFINITION. The constants the source fixes, the parameters it calls configurable, the samples of the environment's inputs, and
the free values. Rules: 00_scope.md R9 to R12, R16, R17, 20_memory.md R52, 45_host_config.md R205.
-/
namespace Sys2Proof

/-- Start marker, wire offset 0, both directions (R9). -/
def startByte : Byte := 0x7B
/-- Inbound command type "switch-status event" (R9). -/
def cmdSwev : Byte := 0x04
/-- Inbound status "pressed" (R9). -/
def stPressed : Byte := 0x01
/-- Command type byte of the outbound status frame (R9). -/
def cmdStat : Byte := 0x05
/-- Length byte of the outbound status frame, a literal (R9, R73). -/
def txLen : Byte := 0x04
/-- Value every effect assignment takes on a failed import and at reset (R9, R23). -/
def effectDefault : Byte := 0

/-- One item of the inbound oracle. `byte` and `gap` are R52's; `tick` is one time unit without a byte (R28, log 4);
`withdrawn` is a byte the transport reports and then does not deliver (R102, log 5). -/
inductive RxItem
  | byte (b : Byte)
  | gap
  | tick
  | withdrawn
  deriving DecidableEq, Repr, Inhabited

/-- One sample of the host port (R17, R205): `host_op[1:0]`, `cfg_valid`, and `cfg_in[63:0]` with
`cfg_in[8*i+7 : 8*i] = v[i]`. -/
structure HostPort where
  op : BitVec 2
  cfgValid : Bool
  cfgIn : BitVec 64
  deriving DecidableEq, Repr, Inhabited

/-- The parameters of the core (R10 to R12). `State` carries one record of them and no step changes it
(DESIGN CHOICE, log 9). -/
structure Config where
  /-- `BUF_CAP`, the capacity of the frame buffer in bytes, at least 3 (R10). -/
  bufCap : Nat
  /-- `RX_TIMEOUT`, the per-byte read timeout in time units (R10). -/
  rxTimeout : Nat
  /-- `DEC_BASE`, the payload index of the command type, 0 on this hardware (R12). -/
  decBase : Nat
  /-- `RX_CSUM_EN`, whether an inbound frame carries a checked checksum byte, off on this hardware (R12). -/
  rxCsumEn : Bool
  /-- `SENTINEL`, stored for a payload read that expired (R11). -/
  sentinel : Byte
  /-- `SEQ_RESET`, the reset value of the sequence counter (R11). -/
  seqReset : Byte
  deriving DecidableEq, Repr

namespace Config

/-- The parameter values of this hardware (R10, R11, R12). -/
def hardware : Config :=
  { bufCap := 128, rxTimeout := 300, decBase := 0, rxCsumEn := false, sentinel := 0xFF, seqReset := 0x00 }

/-- The legal parameter values: `3 <= BUF_CAP` (R10) and `DEC_BASE` in {0, 1} (R12). -/
def wf (c : Config) : Bool := decide (3 ≤ c.bufCap) && decide (c.decBase ≤ 1)

/-- FREE VALUE (log 10): the unconstrained source of `POWER_ON_LEVEL`, to which the spec gives no number (R11, N4). -/
opaque powerOnRaw : Byte

/-- `POWER_ON_LEVEL`, the power level written when a channel turns on: any value with
`0 < POWER_ON_LEVEL < 2^POWER_W - 1`, `POWER_W = 8` (R11). Every admitted value is the value of this constant for some
`powerOnRaw`; a raw value outside the bound is replaced by the spec's suggested 128. -/
def powerOnLevel : Byte := if 0 < powerOnRaw ∧ powerOnRaw < 0xFF then powerOnRaw else 0x80

/-- FREE VALUE (log 27): an infinite inbound line, item by item, of which nothing is known. R52 admits every infinite list,
and a state can hold none as data. -/
opaque rxItemAt : Nat → RxItem

/-- FREE VALUE (log 27): an infinite sequence of samples of the transmit side, of which nothing is known (R16, R53). -/
opaque txReadyAt : Nat → Bool

/-- FREE VALUE (log 27): an infinite sequence of samples of the host port, of which nothing is known (R16, R205). -/
opaque hostPortAt : Nat → HostPort

/-- FREE VALUE (log 27): an infinite sequence of samples of the reset input, of which nothing is known (R16, R260). -/
opaque rstAt : Nat → Bool

end Config
end Sys2Proof
end

