-- ==== Sys2Proof/Syntax.lean ====
section
/-!
DEFINITION. The instructions of the core: one constructor per row of spec/opcode_table.json, in the table's order.
An instruction is an inbound frame class, the outbound status frame, or a host operation (30_encoding.md, introduction).
Operands are the named fields the spec reads; payload bytes the spec ignores are no operands (R137, log 15).
-/
namespace Sys2Proof

/-- The instructions. `len` is always the declared length byte `L` (R71). -/
inductive Instr
  /-- NOSTART: first byte `b0` other than the start marker (R103). -/
  | nostart (b0 : Byte)
  /-- NOLEN: start marker, and the length read expires (R105). -/
  | nolen
  /-- OVERLEN: declared length above `BUF_CAP` (R109). -/
  | overlen (len : Byte)
  /-- SHORT: declared length below the fields decoded (R132). -/
  | short (len : Byte)
  /-- RSVD: a command type other than 0x04 (R133). -/
  | rsvd (len cmd chan status : Byte)
  /-- SWEV.NOP: a switch-status event that is not "pressed" (R134). -/
  | swevNop (len chan status : Byte)
  /-- SWEV.BADCH: pressed, with a channel number outside 1..8 (R135). -/
  | swevBadch (len chan : Byte)
  /-- SWEV.PRESS: pressed, channel index `c` (number `c + 1` on the wire) (R150). -/
  | swevPress (len : Byte) (c : Chan)
  /-- STAT: the outbound status frame of channel index `c` with new state `on`, carrying `seq` (R170). -/
  | stat (seq : Byte) (c : Chan) (on : Bool)
  /-- CFG_IMPORT (R201, R202). -/
  | cfgImport (valid : Bool) (v : Table Byte)
  /-- CFG_EXPORT (R203). -/
  | cfgExport
  /-- STATUS_EXPORT (R204). -/
  | statusExport
  /-- HOP.NONE: no host operation requested (R205). -/
  | hopNone
  deriving DecidableEq, Repr

/-- The encoded forms, one per format (R70). In `rxf` a read that expired is `none`: the class NOLEN is told by the
missing length byte, which no byte value can express (R80). -/
inductive Wire
  | rxf (reads : List (Option Byte))
  | txf (bytes : List Byte)
  | hop (port : HostPort)
  deriving DecidableEq, Repr

end Sys2Proof
end

