-- ==== Sys2Proof/WellFormed.lean ====
section
/-!
DEFINITION. Which instructions the classification of 30_encoding.md R80 can name, for given parameters.
-/
namespace Sys2Proof

/-- A declared length the decoder accepts: `DEC_BASE + 3 <= L <= BUF_CAP` (R109, R132). -/
def Config.decodable (cfg : Config) (len : Byte) : Bool :=
  decide (cfg.decBase + 3 ≤ len.toNat) && decide (len.toNat ≤ cfg.bufCap)

/-- A channel number the decoder accepts, 1..8 (R76, R135). -/
def channelInRange (chan : Byte) : Bool := decide (1 ≤ chan.toNat) && decide (chan.toNat ≤ 8)

namespace Instr

/-- Well-formedness: the constraints of the opcode table's rows (R80, R84). The host operations, STAT and NOLEN have no
ill-formed operands: their types hold exactly the legal values. -/
def wf (cfg : Config) : Instr → Bool
  | nostart b0 => b0 != startByte
  | nolen => true
  | overlen len => decide (cfg.bufCap < len.toNat)
  | short len => decide (len.toNat < cfg.decBase + 3) && decide (len.toNat ≤ cfg.bufCap)
  | rsvd len cmd _ _ => cfg.decodable len && cmd != cmdSwev
  | swevNop len _ status => cfg.decodable len && status != stPressed
  | swevBadch len chan => cfg.decodable len && !channelInRange chan
  | swevPress len _ => cfg.decodable len
  | stat _ _ _ => true
  | cfgImport _ _ => true
  | cfgExport => true
  | statusExport => true
  | hopNone => true

end Instr
end Sys2Proof
end

