-- ==== Sys2Proof/Decode.lean ====
section
/-!
DEFINITION. The decoder of the three formats (30_encoding.md R70 to R73, R76, R80, R84, R87; 45_host_config.md R205), total on any
input and rejecting by name; after it the encoder, written from the same layouts; last the host's entry point for words of the
opcode table.
-/
namespace Sys2Proof

/-- Why a decoder rejects its input. -/
inductive Reject
  /-- The start read returned nothing: no frame, no class (R102). -/
  | noStartByte
  /-- `RX_CSUM_EN = 1` and the checksum byte is missing or wrong (R110). -/
  | badChecksum
  /-- Fewer than the seven bytes of a status frame (R72). -/
  | txfTruncated
  /-- A literal byte of a status frame (start, length, command) differs (R72). -/
  | txfLiteral
  /-- The channel byte of a status frame is outside 1..8 (R76). -/
  | txfChannel
  /-- The state byte of a status frame is neither 0x00 nor 0x01 (R77). -/
  | txfState
  /-- The checksum byte of a status frame is not the sum of bytes 2..5 (R72, R77). -/
  | txfChecksum
  deriving DecidableEq, Repr

/-! ### Operand assembly (R78) -/

/-- The channel index of a channel number, `c - 1`, formed only when `1 <= c <= 8` (R78, R55). -/
def chanOfNumber (c : Byte) : Option Chan :=
  if h : 1 ≤ c.toNat ∧ c.toNat ≤ 8 then some ⟨c.toNat - 1, by omega⟩ else none

/-- The channel number of a channel index, `i + 1` (R78). -/
def chanNumber (i : Chan) : Byte := BitVec.ofNat 8 (i.val + 1)

/-- The state byte of a status frame: 0x01 on, 0x00 off (R77). -/
def stateByte (on : Bool) : Byte := if on then 0x01 else 0x00

/-- Splits the host port's 64 bits: `v[i] = cfg_in[8*i+7 : 8*i]` (R205). -/
def unpackTable (w : BitVec 64) : Table Byte := Vector.ofFn fun i : Chan => w.extractLsb' (8 * i.val) 8

/-- Joins eight bytes into the host port's 64 bits: `cfg_out[8*i+7 : 8*i] = eff[i]` (R205). -/
def packTable (v : Table Byte) : BitVec 64 :=
  BitVec.ofNat 64 (v.toList.foldr (fun b acc => b.toNat + 256 * acc) 0)

/-! ### Classification (R80, R133 to R135) -/

/-- The class of a frame of acceptable length from its three fields, tested in the order command type, status, channel
(R136). -/
def classifyFields (len cmd chan status : Byte) : Instr :=
  if cmd ≠ cmdSwev then .rsvd len cmd chan status
  else if status ≠ stPressed then .swevNop len chan status
  else match chanOfNumber chan with
    | none => .swevBadch len chan
    | some c => .swevPress len c

/-- The class of a frame with declared length `len` and payload `p` as stored, in the order of R80: overflow, short, then
the fields at payload indices `DEC_BASE`, `DEC_BASE + 1`, `DEC_BASE + 2` (R131). -/
def classify (cfg : Config) (len : Byte) (p : List Byte) : Instr :=
  if cfg.bufCap < len.toNat then .overlen len
  else if len.toNat < cfg.decBase + 3 then .short len
  else classifyFields len (p.getD cfg.decBase 0) (p.getD (cfg.decBase + 1) 0) (p.getD (cfg.decBase + 2) 0)

/-! ### The inbound format RXF -/

/-- The payload bytes as stored, `n` timed reads with the sentinel for each that expires, and the reads left over; reads
past the end of the list expire, as on a silent line (R52, R106, R107). -/
def takePayload (sentinel : Byte) : Nat → List (Option Byte) → List Byte × List (Option Byte)
  | 0, reads => ([], reads)
  | n + 1, [] => (sentinel :: (takePayload sentinel n []).1, [])
  | n + 1, r :: reads => (r.getD sentinel :: (takePayload sentinel n reads).1, (takePayload sentinel n reads).2)

/-- Decodes what one read attempt meets: the results of its timed reads in order, `none` for a read that expires. Answers
the frame's class and the reads that belong to later attempts (R71, R80, R87). -/
def decodeRxf (cfg : Config) : List (Option Byte) → Except Reject (Instr × List (Option Byte))
  | [] => .error .noStartByte
  | none :: _ => .error .noStartByte
  | some b0 :: reads =>
    if b0 ≠ startByte then .ok (.nostart b0, reads)
    else match reads with
      | [] => .ok (.nolen, [])
      | none :: rest => .ok (.nolen, rest)
      | some len :: rest =>
        let payload := takePayload cfg.sentinel len.toNat rest
        if cfg.rxCsumEn then
          match payload.2 with
          | some c :: after =>
            if csumOk payload.1 c then .ok (classify cfg len payload.1, after) else .error .badChecksum
          | _ => .error .badChecksum
        else .ok (classify cfg len payload.1, payload.2)

/-! ### The outbound format TXF and the host format HOP -/

/-- Decodes one status frame: seven bytes, its literals, its field ranges and its checksum (R72, R76, R77). Answers the
frame and the bytes after it. -/
def decodeTxf : List Byte → Except Reject (Instr × List Byte)
  | start :: len :: seq :: cmd :: chan :: state :: checksum :: rest =>
    if start ≠ startByte ∨ len ≠ txLen ∨ cmd ≠ cmdStat then .error .txfLiteral
    else match chanOfNumber chan with
      | none => .error .txfChannel
      | some c =>
        if state ≠ 0x00 ∧ state ≠ 0x01 then .error .txfState
        else if csumOk [seq, cmd, chan, state] checksum then .ok (.stat seq c (state == 0x01), rest)
        else .error .txfChecksum
  | _ => .error .txfTruncated

/-- Decodes the host port: all four codes have a meaning (R205). -/
def decodeHop (p : HostPort) : Instr :=
  if p.op = 0b01 then .cfgImport p.cfgValid (unpackTable p.cfgIn)
  else if p.op = 0b10 then .cfgExport
  else if p.op = 0b11 then .statusExport
  else .hopNone

/-- The decoder of all three formats. -/
def decode (cfg : Config) : Wire → Except Reject Instr
  | .rxf reads => (decodeRxf cfg reads).map Prod.fst
  | .txf bytes => (decodeTxf bytes).map Prod.fst
  | .hop port => .ok (decodeHop port)

/-! ### The encoder -/

/-- The payload of a frame: `DEC_BASE` bytes, the three fields, then bytes up to `len`; the bytes no rule reads are zero
(R71, R137; DESIGN CHOICE, log 15). -/
def fieldPayload (cfg : Config) (len cmd chan status : Byte) : List Byte :=
  List.replicate cfg.decBase 0 ++ [cmd, chan, status] ++ List.replicate (len.toNat - (cfg.decBase + 3)) 0

/-- The wire form of an inbound frame: start marker, declared length, payload, and the checksum byte when
`RX_CSUM_EN = 1` (R71, R87). -/
def frameReads (cfg : Config) (len : Byte) (payload : List Byte) : List (Option Byte) :=
  some startByte :: some len :: payload.map some ++ (if cfg.rxCsumEn then [some (csum8 payload)] else [])

/-- The reads of an inbound class; empty for an instruction of another format. -/
def encodeRxf (cfg : Config) : Instr → List (Option Byte)
  | .nostart b0 => [some b0]
  | .nolen => [some startByte, none]
  | .overlen len => frameReads cfg len (List.replicate len.toNat 0)
  | .short len => frameReads cfg len (List.replicate len.toNat 0)
  | .rsvd len cmd chan status => frameReads cfg len (fieldPayload cfg len cmd chan status)
  | .swevNop len chan status => frameReads cfg len (fieldPayload cfg len cmdSwev chan status)
  | .swevBadch len chan => frameReads cfg len (fieldPayload cfg len cmdSwev chan stPressed)
  | .swevPress len c => frameReads cfg len (fieldPayload cfg len cmdSwev (chanNumber c) stPressed)
  | .stat _ _ _ => []
  | .cfgImport _ _ => []
  | .cfgExport => []
  | .statusExport => []
  | .hopNone => []

/-- The seven bytes of a status frame: `[0x7B, 0x04, seq, 0x05, channel, state, checksum]`, the checksum over bytes 2..5
(R72, R171, R173). -/
def statusFrame (seq : Byte) (c : Chan) (on : Bool) : Vector Byte 7 :=
  #v[startByte, txLen, seq, cmdStat, chanNumber c, stateByte on,
    csum8 [seq, cmdStat, chanNumber c, stateByte on]]

/-- The host port with no operation requested, `host_op = 00` (R205). -/
def noRequest : HostPort := { op := 0b00, cfgValid := false, cfgIn := 0 }

/-- The host port sample that requests a host operation; the lines an operation does not use are zero (R205). -/
def encodeHop : Instr → HostPort
  | .cfgImport valid v => { op := 0b01, cfgValid := valid, cfgIn := packTable v }
  | .cfgExport => { op := 0b10, cfgValid := false, cfgIn := 0 }
  | .statusExport => { op := 0b11, cfgValid := false, cfgIn := 0 }
  | .hopNone => noRequest
  | .nostart _ => noRequest
  | .nolen => noRequest
  | .overlen _ => noRequest
  | .short _ => noRequest
  | .rsvd _ _ _ _ => noRequest
  | .swevNop _ _ _ => noRequest
  | .swevBadch _ _ => noRequest
  | .swevPress _ _ => noRequest
  | .stat _ _ _ => noRequest

/-- The format of an instruction's encoding (R70). -/
inductive Format
  | rxf
  | txf
  | hop
  deriving DecidableEq, Repr

/-- The format of each instruction, as the opcode table's rows give it. -/
def Instr.format : Instr → Format
  | .nostart _ => .rxf
  | .nolen => .rxf
  | .overlen _ => .rxf
  | .short _ => .rxf
  | .rsvd _ _ _ _ => .rxf
  | .swevNop _ _ _ => .rxf
  | .swevBadch _ _ => .rxf
  | .swevPress _ _ => .rxf
  | .stat _ _ _ => .txf
  | .cfgImport _ _ => .hop
  | .cfgExport => .hop
  | .statusExport => .hop
  | .hopNone => .hop

/-- The encoded form of an instruction. -/
def encode (cfg : Config) : Instr → Wire
  | .stat seq c on => .txf (statusFrame seq c on).toList
  | .cfgImport valid v => .hop (encodeHop (.cfgImport valid v))
  | .cfgExport => .hop (encodeHop .cfgExport)
  | .statusExport => .hop (encodeHop .statusExport)
  | .hopNone => .hop (encodeHop .hopNone)
  | .nostart b0 => .rxf (encodeRxf cfg (.nostart b0))
  | .nolen => .rxf (encodeRxf cfg .nolen)
  | .overlen len => .rxf (encodeRxf cfg (.overlen len))
  | .short len => .rxf (encodeRxf cfg (.short len))
  | .rsvd len cmd chan status => .rxf (encodeRxf cfg (.rsvd len cmd chan status))
  | .swevNop len chan status => .rxf (encodeRxf cfg (.swevNop len chan status))
  | .swevBadch len chan => .rxf (encodeRxf cfg (.swevBadch len chan))
  | .swevPress len c => .rxf (encodeRxf cfg (.swevPress len c))

/-! ### Words of the opcode table -/

/-- The `n` bytes of a number with wire offset 0 the most significant byte (R84). -/
def bytesOfWord : Nat → Nat → List Byte
  | 0, _ => []
  | n + 1, w => BitVec.ofNat 8 (w / 256 ^ n) :: bytesOfWord n w

/-- The payload bytes of the RXF word with bytes `bs` (wire offsets 0..4) and declared length `len`; bytes the table gives
no bits are zero. -/
def wordPayload (bs : List Byte) (len : Nat) : List Byte :=
  (bs.drop 2).take len ++ List.replicate (len - 3) 0

/-- The encoded form that a word of the opcode table stands for (R84, log 14): 40 bits are the first five bytes of an
inbound frame, 56 bits a status frame, one byte (or two bits) below 4 a host operation code with its operand lines zero,
any other single byte an inbound byte followed by silence. -/
def wireOfWord (cfg : Config) (nbits w : Nat) : Option Wire :=
  if nbits = 40 then
    let bs := bytesOfWord 5 w
    let payload := wordPayload bs (bs.getD 1 0).toNat
    some (.rxf ((bs.take 2 ++ payload).map some ++ (if cfg.rxCsumEn then [some (csum8 payload)] else [])))
  else if nbits = 56 then some (.txf (bytesOfWord 7 w))
  else if nbits ≤ 8 ∧ w < 4 then some (.hop { op := BitVec.ofNat 2 w, cfgValid := false, cfgIn := 0 })
  else if nbits = 8 then some (.rxf [some (BitVec.ofNat 8 w)])
  else none

/-- The instruction the decoder reads from a word of the opcode table under the parameters `cfg`. -/
def decodeWord (cfg : Config) (nbits w : Nat) : Option Instr :=
  match wireOfWord cfg nbits w with
  | none => none
  | some wire => (decode cfg wire).toOption

/-- The instruction the decoder reads from a word of the opcode table, on this hardware. -/
def decodeTableWord (nbits w : Nat) : Option Instr := decodeWord Config.hardware nbits w

end Sys2Proof
end

