-- ==== Sys2Proof/Machine/State.lean ====
section
/-!
DEFINITION. The state of the core as plain data: the register tuple of 10_state.md R20, the two latches of a toggle in
progress, the mark of an outstanding byte, the parameters, and the environment's inputs and outputs (00_scope.md R15, R16).
`Fault`, `Refusal`, the reset state.
-/
namespace Sys2Proof.Machine

/-- The sequencer position `pc` (R24). -/
inductive Pos
  /-- Waiting for an available byte, or serving a host operation. -/
  | idle
  /-- The read of the start byte is outstanding. -/
  | rxStart
  /-- The read of the length byte is outstanding. -/
  | rxLen
  /-- The payload loop: the read of payload byte `cnt` is outstanding, or `cnt = L` and the loop test ends it. -/
  | rxPayload
  /-- The read of the inbound checksum byte is outstanding (`RX_CSUM_EN = 1` only). -/
  | rxCsum
  /-- Decoder and state machine. -/
  | dispatch
  /-- A byte of a status frame is outstanding at the transport, or the next frame is to be built. -/
  | tx
  /-- The host writes of the toggle are issued. -/
  | host
  deriving DecidableEq, Repr

/-- An input of the environment (R16), finite or infinite: the items that stand listed, and what follows them. `free` names
the free value of Config that supplies the infinite input. -/
structure Feed {α : Type} (free : Nat → α) where
  /-- The listed items, next item first. -/
  items : List α
  /-- After them: nothing more for ever, or the infinite input `free` from this place on (log 27). -/
  after : Option Nat
  deriving DecidableEq, Repr

/-- An input with the listed items and then nothing more for ever. -/
def Feed.ofList {α : Type} {free : Nat → α} (items : List α) : Feed free := { items := items, after := none }

/-- The input that supplies nothing for ever. -/
def Feed.silent {α : Type} {free : Nat → α} : Feed free := Feed.ofList []

/-- An owed notification: channel index and new state (R31). -/
structure Notif where
  c : Chan
  on : Bool
  deriving DecidableEq, Repr

/-- The error conditions (R220). None is a fault (R223). -/
inductive Cond
  | startTimeout
  | desync
  | lenTimeout
  | csum
  | overflow
  | short
  | unknownCmd
  | notPressed
  | badChannel
  | cfgMalformed
  deriving DecidableEq, Repr

/-- The trace alphabet (R15). `drop` is the ghost event `Drop(E_x)`, visible on no port. -/
inductive Event
  | rx (b : Byte)
  | rxNone
  | tx (b : Byte)
  | setEffect (e : Byte)
  | setPower (p : Byte)
  | directChange
  | cfgResult (ok : Bool)
  | cfgExport (v : Table Byte)
  | statusExport (pairs : List (Byte × Byte))
  | drop (c : Cond)
  deriving DecidableEq, Repr

/-- Why the model stops. -/
inductive Fault
  /-- Raised by `memRead` and `memWrite` for a frame-buffer index that does not exist, `index >= BUF_CAP` (R108, U1). Safe:
  the model stops where the hardware has no such access; no step raises it. -/
  | bufferBound (index : Nat)
  deriving DecidableEq, Repr

/-- Why an instruction has no meaning. -/
inductive Refusal
  /-- Raised by an arm of `exec` whose instruction has no meaning yet. Safe. No arm raises it. -/
  | notModelled (mnemonic : String)
  deriving DecidableEq, Repr

/-- The frame buffer's contents (R27): (payload index, byte) cells, indices strictly rising, no cell equal to
`Memory.unlisted`. -/
abbrev Memory := List Host.Cell

/-- What a payload index that no cell lists reads as (DESIGN CHOICE, unsafe, log 12: the spec leaves it unspecified, and no
rule can observe it, R27). -/
def Memory.unlisted : Byte := 0

/-- The machine. The first twelve fields after `cfg` are the tuple of R20. -/
structure State where
  /-- The parameters (R10 to R12), changed by no step. -/
  cfg : Config
  /-- The channel table (R21). -/
  ch : Table Bool
  /-- The sequence counter (R22). -/
  seq : Byte
  /-- The effect assignments (R23). -/
  eff : Table Byte
  /-- The sequencer position (R24). -/
  pc : Pos
  /-- The declared frame length (R25). -/
  L : Byte
  /-- The number of payload reads performed (R26). -/
  cnt : Byte
  /-- The running sum of the payload bytes (R29). -/
  racc : Byte
  /-- The frame buffer (R27). -/
  buf : Memory
  /-- The timer of the outstanding timed read (R28). -/
  tmr : Nat
  /-- The outbound frame under transmission (R30). -/
  txf : Vector Byte 7
  /-- The index 0..6 of the next byte to write, 3 bits (R30). -/
  txi : Fin 7
  /-- The notifications the toggle still owes, front first (R31). -/
  nq : List Notif
  /-- The channel index of the toggle in progress, the local `i` of R150's listing (R31, log 2). -/
  togC : Chan
  /-- Its new state, the local `new` of R150's listing (R31, log 2). -/
  togOn : Bool
  /-- Whether byte `txi` of `txf` is outstanding at the transport; the model's own (log 3). -/
  txBusy : Bool
  /-- Environment: the inbound oracle (R52). -/
  inbound : Feed Config.rxItemAt
  /-- Environment: samples of `tx_ready` while a byte is outstanding; past the end of a finite input never ready (R53,
  R177, log 6). -/
  txReady : Feed Config.txReadyAt
  /-- Environment: samples of the host port, one for each evaluation at IDLE; past the end of a finite input no request
  (R206, log 7). -/
  hostq : Feed Config.hostPortAt
  /-- Environment: samples of the reset input, one a step; past the end of a finite input not asserted (R260, log 8). -/
  rst : Feed Config.rstAt
  /-- The events so far, oldest first (R15, log 17). -/
  trace : List Event
  deriving DecidableEq, Repr

/-- The registers after reset (R35, R261), with the parameters, environment and trace of `s`: the transport is not reset
and no event is produced (R262, R263). `L`, `cnt`, `racc`, `buf`, `txf`, `txi`, for which the spec gives no value, and the
model's latches and mark take the values named in log 1, log 2 and log 3 (DESIGN CHOICE). -/
def State.resetRegs (s : State) : State :=
  { cfg := s.cfg
    ch := Vector.replicate 8 false
    seq := s.cfg.seqReset
    eff := Vector.replicate 8 effectDefault
    pc := .idle
    L := 0
    cnt := 0
    racc := 0
    buf := []
    tmr := 0
    txf := Vector.replicate 7 0
    txi := 0
    nq := []
    togC := 0
    togOn := false
    txBusy := false
    inbound := s.inbound
    txReady := s.txReady
    hostq := s.hostq
    rst := s.rst
    trace := s.trace }

/-- The machine right after reset (R35, R261) on this hardware's parameters, with an environment that supplies nothing
(log 13). -/
def State.reset : State :=
  { cfg := Config.hardware
    ch := Vector.replicate 8 false
    seq := 0x00
    eff := Vector.replicate 8 0
    pc := .idle
    L := 0
    cnt := 0
    racc := 0
    buf := []
    tmr := 0
    txf := Vector.replicate 7 0
    txi := 0
    nq := []
    togC := 0
    togOn := false
    txBusy := false
    inbound := Feed.silent
    txReady := Feed.silent
    hostq := Feed.silent
    rst := Feed.silent
    trace := [] }

end Sys2Proof.Machine
end

