-- ==== Sys2Proof/Machine/Ops.lean ====
section
/-!
DEFINITION. The shared operations over memory, registers, the transport and the host (00_scope.md R14, 20_memory.md), and
raising a condition (60_exceptions.md R221). There is no return from a condition (R228): a raise leaves the core at IDLE.
-/
namespace Sys2Proof.Machine

/-- An outcome of this machine. -/
abbrev Result := Host.Outcome State Fault Refusal

/-- Continues with `f` after a next state; a stop stays a stop. -/
def andThen (o : Result) (f : State → Result) : Result :=
  match o with
  | .next s => f s
  | .fault r => .fault r
  | .refused r => .refused r

/-! ### The frame buffer -/

/-- The byte at payload index `a`. -/
def Memory.read (m : Memory) (a : Nat) : Byte :=
  match m with
  | [] => Memory.unlisted
  | (k, v) :: rest => if k = a then v else Memory.read rest a

/-- `m` with a cell `(a, v)` in front, left out if it says what an unlisted index reads as anyway. -/
def Memory.put (a : Nat) (v : Byte) (m : Memory) : Memory :=
  if v = Memory.unlisted then m else (a, v) :: m

/-- `m` with the byte at payload index `a` replaced by `v`, in the canonical form. -/
def Memory.write (m : Memory) (a : Nat) (v : Byte) : Memory :=
  match m with
  | [] => Memory.put a v []
  | (k, w) :: rest =>
    if a < k then Memory.put a v ((k, w) :: rest)
    else if a = k then Memory.put a v rest
    else (k, w) :: Memory.write rest a v

/-- The canonical form of the cells at indices `lo` and above. -/
def Memory.wfFrom (lo : Nat) : Memory → Bool
  | [] => true
  | (k, v) :: rest => decide (lo ≤ k) && v != Memory.unlisted && Memory.wfFrom (k + 1) rest

/-- The canonical form: indices strictly rising, no cell equal to what an unlisted index reads as. -/
def Memory.wf (m : Memory) : Bool := Memory.wfFrom 0 m

/-- `MemRead(a, 1)` (R14): an index outside the buffer does not exist (R27, R54). -/
def memRead (s : State) (a : Nat) : Except Fault Byte :=
  if a < s.cfg.bufCap then .ok (s.buf.read a) else .error (.bufferBound a)

/-- `MemWrite(a, 1, v)` (R14): an index outside the buffer does not exist (R54, R108). -/
def memWrite (s : State) (a : Nat) (v : Byte) : Result :=
  if a < s.cfg.bufCap then .next { s with buf := s.buf.write a v } else .fault (.bufferBound a)

/-! ### Trace and sequencer position -/

/-- Appends events to the trace (R15). -/
def State.emit (s : State) (es : List Event) : State := { s with trace := s.trace ++ es }

/-- `pc <- p` (R14). -/
def State.goto (s : State) (p : Pos) : State := { s with pc := p }

/-! ### The environment's inputs -/

/-- The next item of an input, `none` if nothing more comes for ever (R52). -/
def Feed.head? {α : Type} {free : Nat → α} (l : Feed free) : Option α :=
  match l.items with
  | x :: _ => some x
  | [] => l.after.map free

/-- The input after its next item; one that supplies nothing more stays so (R52). -/
def Feed.tail {α : Type} {free : Nat → α} (l : Feed free) : Feed free :=
  match l.items with
  | _ :: rest => { l with items := rest }
  | [] => { l with after := l.after.map fun k => k + 1 }

/-- The input with the item `x` before it. -/
def Feed.push {α : Type} {free : Nat → α} (x : α) (l : Feed free) : Feed free := { l with items := x :: l.items }

/-! ### The receive side -/

/-- `RxAvail()` (R52): a byte is reported. A `withdrawn` item is reported too (R102, log 5). -/
def rxAvail (s : State) : Bool :=
  match s.inbound.head? with
  | some (.byte _) => true
  | some .withdrawn => true
  | some .gap => false
  | some .tick => false
  | none => false

/-- What the outstanding timed read meets now. -/
inductive ReadNow
  | got (b : Byte)
  | expired
  | waiting
  deriving DecidableEq, Repr

/-- The outstanding `RxRead()` (R52): a byte is returned; a gap, a withdrawn byte or a silent line expires it; a tick adds
one to the timer and expires it when the timer reaches `RX_TIMEOUT` (R28). -/
def readNow (s : State) : ReadNow :=
  match s.inbound.head? with
  | some (.byte b) => .got b
  | some .tick => if s.cfg.rxTimeout ≤ s.tmr + 1 then .expired else .waiting
  | some .gap => .expired
  | some .withdrawn => .expired
  | none => .expired

/-- `RxRead()` returns `b`: the item is consumed, `Rx(b)` (R51, R52). The timer is loaded with 0 for the next timed read
(R28, log 22). -/
def State.takeByte (s : State) (b : Byte) : State :=
  { s with inbound := s.inbound.tail, tmr := 0, trace := s.trace ++ [.rx b] }

/-- `RxRead()` returns `NONE`: `RxNone`; no byte is consumed, the gap is over (R51, R52). -/
def State.expireRead (s : State) : State :=
  { s with inbound := s.inbound.tail, tmr := 0, trace := s.trace ++ [.rxNone] }

/-- One time unit passes and the timed read stays outstanding (R28). -/
def State.tickOn (s : State) : State := { s with inbound := s.inbound.tail, tmr := s.tmr + 1 }

/-- Time passes at IDLE: a leading gap or tick is removed without effect (R52). -/
def State.passTime (s : State) : State := { s with inbound := s.inbound.tail }

/-! ### The host port and the reset input -/

/-- The host port sample at this evaluation (R206). -/
def hostPort (s : State) : HostPort := s.hostq.head?.getD noRequest

/-- The sample is served, `host_done` (R205). -/
def State.hostDone (s : State) : State := { s with hostq := s.hostq.tail }

/-- Whether reset is asserted at this step (R260). -/
def rstAsserted (s : State) : Bool := s.rst.head?.getD false

/-- The step's sample of the reset input is taken (R260). -/
def State.sampleRst (s : State) : State := { s with rst := s.rst.tail }

/-! ### Conditions -/

/-- Notes condition `c` as a ghost event; nothing else records it (R221, R222). -/
def State.note (s : State) (c : Cond) : State := s.emit [.drop c]

/-- `raise E_c` on the read path (R221, R227): `pc <- IDLE` and the ghost event, no other state. -/
def raise (s : State) (c : Cond) : State := (s.note c).goto .idle

end Sys2Proof.Machine
end

