-- ==== Sys2Proof/Machine/Operands.lean ====
section
/-!
DEFINITION. The operands a step takes from the state: the decoder's reads of the frame buffer (41_frame_decoder.md R130 to R136)
and the packing of a payload into it.
-/
namespace Sys2Proof.Machine

/-- The three fields of the buffered frame, read at `DEC_BASE`, `DEC_BASE + 1`, `DEC_BASE + 2` (R131). -/
def readFields (s : State) : Except Fault (Byte × Byte × Byte) := do
  let cmd ← memRead s s.cfg.decBase
  let chan ← memRead s (s.cfg.decBase + 1)
  let status ← memRead s (s.cfg.decBase + 2)
  return (cmd, chan, status)

/-- `DECODE(buf, L)` as the choice of the instruction to run (R130): a frame that is too long is OVERLEN (never handed over,
R109, log 20), one that is too short is SHORT and nothing of it is read (R132), otherwise the three fields decide. -/
def decodeBuffer (s : State) : Except Fault Instr :=
  if s.cfg.bufCap < s.L.toNat then .ok (.overlen s.L)
  else if s.L.toNat < s.cfg.decBase + 3 then .ok (.short s.L)
  else (readFields s).map fun f => classifyFields s.L f.1 f.2.1 f.2.2

/-- The buffer after the payload `p` was stored from index `a` on, indices at or above `cap` drained (R108). -/
def storeFrom (cap : Nat) (m : Memory) (a : Nat) : List Byte → Memory
  | [] => m
  | b :: rest => storeFrom cap (if a < cap then m.write a b else m) (a + 1) rest

end Sys2Proof.Machine
end

