-- ==== Sys2Proof/Machine/Flags.lean ====
section
/-!
DEFINITION. The only status bits of the core, the eight channel bits (10_state.md R21), and how a toggle computes them
(42_switch_state_machine.md R151 to R153).
-/
namespace Sys2Proof.Machine

/-- The channel indices in ascending order, the range of the loop `for j in 0..7`. -/
def channels : List Chan := [0, 1, 2, 3, 4, 5, 6, 7]

/-- The loop of R152 over the channel indices still to visit: each channel other than `i` that is on is set off and owes
`(j, off)`, appended to the notifications. -/
def forceOthersOff (i : Chan) : List Chan → Table Bool → List Notif → Table Bool × List Notif
  | [], ch, nq => (ch, nq)
  | j :: rest, ch, nq =>
    if j ≠ i ∧ ch[j] = true then forceOthersOff i rest (ch.set j false) (nq ++ [{ c := j, on := false }])
    else forceOthersOff i rest ch nq

/-- The channel table and the notifications owed after `TOGGLE` of channel index `i`: flip `i`, owe its new state, then
force the others off (R151, R152, R153). -/
def toggleChannels (ch : Table Bool) (i : Chan) : Table Bool × List Notif :=
  forceOthersOff i channels (ch.set i (!ch[i])) [{ c := i, on := !ch[i] }]

end Sys2Proof.Machine
end

