-- ==== Sys2Proof/Machine/Reader.lean ====
section
/-!
DEFINITION. The Frame Reader (40_frame_reader.md): the meanings of NOSTART, NOLEN and OVERLEN, and the reader's operations
that only bring a frame in.
-/
namespace Sys2Proof.Machine

/-- NOSTART (R103): the byte is consumed, `raise E_DESYNC`. -/
def execNostart (b0 : Byte) (s : State) : Result := .next (raise (s.takeByte b0) .desync)

/-- NOLEN (R105): the length read returned `NONE`, `raise E_LEN_TIMEOUT`. -/
def execNolen (s : State) : Result := .next (raise s.expireRead .lenTimeout)

/-- OVERLEN (R109): the declared payload has been read, `raise E_OVERFLOW`; the frame is not decoded. -/
def execOverlen (s : State) : Result := .next (raise s .overflow)

/-- POLL (R100): a reported byte begins a read attempt; otherwise the core stays at IDLE and time passes (R52). -/
def poll (s : State) : State :=
  if rxAvail s then { s with pc := .rxStart, tmr := 0 } else s.passTime

/-- The start byte is accepted: consumed, not stored (R101). -/
def acceptStart (b : Byte) (s : State) : State := (s.takeByte b).goto .rxLen

/-- The length byte is accepted: `L <- b1`, `cnt <- 0`, `racc <- 0` (R104). -/
def acceptLength (b : Byte) (s : State) : State :=
  { s.takeByte b with L := b, cnt := 0, racc := 0, pc := .rxPayload }

/-- One payload byte as formed by R107 is stored below the bound and drained at or above it (R108), enters the running sum
when `RX_CSUM_EN = 1` (R110), and is counted (R106). -/
def storePayload (byte : Byte) (s : State) : Result :=
  andThen (if s.cnt.toNat < s.cfg.bufCap then memWrite s s.cnt.toNat byte else .next s) fun s =>
    .next { s with racc := if s.cfg.rxCsumEn then s.racc + byte else s.racc, cnt := s.cnt + 1 }

end Sys2Proof.Machine
end

