-- ==== Sys2Proof/Machine/Decoder.lean ====
section
/-!
DEFINITION. The Frame Decoder's outcomes without action (41_frame_decoder.md): SHORT, RSVD, SWEV.NOP, SWEV.BADCH.
-/
namespace Sys2Proof.Machine

/-- SHORT (R132): `raise E_SHORT`. -/
def execShort (s : State) : Result := .next (raise s .short)

/-- RSVD (R133): `raise E_UNKNOWN_CMD`. -/
def execRsvd (s : State) : Result := .next (raise s .unknownCmd)

/-- SWEV.NOP (R134): `raise E_NOT_PRESSED`. -/
def execSwevNop (s : State) : Result := .next (raise s .notPressed)

/-- SWEV.BADCH (R135): `raise E_BAD_CHANNEL`. -/
def execSwevBadch (s : State) : Result := .next (raise s .badChannel)

end Sys2Proof.Machine
end

