-- ==== Sys2Proof/Machine/Switch.lean ====
section
/-!
DEFINITION. The Switch State Machine (42_switch_state_machine.md): SWEV.PRESS and the host writes that end a toggle.
-/
namespace Sys2Proof.Machine

/-- SWEV.PRESS (R150): `TOGGLE` up to `pc <- TX`: all writes to the channel table, the notifications owed, the latches of
the toggle; the TX and HOST steps that follow make the notifications and the host writes, in the order of R157. No frame
byte is outstanding yet (log 3). -/
def execSwevPress (c : Chan) (s : State) : Result :=
  .next { s with
    ch := (toggleChannels s.ch c).1
    nq := (toggleChannels s.ch c).2
    togC := c
    togOn := !s.ch[c]
    txBusy := false
    pc := .tx }

/-- The calls into the host (R154, R155, R156): on, the effect assigned now and the policy power level; off, power 0 and no
effect; then the change signal, once. -/
def hostCalls (s : State) : List Event :=
  if s.togOn then [.setEffect s.eff[s.togC], .setPower Config.powerOnLevel, .directChange]
  else [.setPower 0, .directChange]

/-- The HOST position: the calls are issued and the poll ends (R111, R157). That they are one step, so that no reset falls
between them, is the model's choice (DESIGN CHOICE, unsafe, log 29). -/
def hostWrites (s : State) : State := (s.emit (hostCalls s)).goto .idle

end Sys2Proof.Machine
end

