-- ==== Sys2Proof/Machine/Writer.lean ====
section
/-!
DEFINITION. The Frame Writer (43_frame_writer.md): STAT builds the next owed frame; the bytes leave one by one.
-/
namespace Sys2Proof.Machine

/-- STAT (R170 to R173): the front notification is taken, the frame is built with the sequence counter's value, the
counter advances modulo 256, and byte 0 is outstanding at the transport. That the notification leaves `nq` now, before the
bytes of its frame are sent, is the model's choice (DESIGN CHOICE, log 28): R31 names no moment. -/
def execStat (c : Chan) (on : Bool) (s : State) : Result :=
  .next { s with
    txf := statusFrame s.seq c on
    seq := s.seq + 1
    txi := 0
    txBusy := true
    nq := s.nq.tail
    pc := .tx }

/-- The byte `txf[txi]` outstanding at the transport (R174). -/
def txByte (s : State) : Byte := s.txf[s.txi]

/-- The transport has taken `txf[txi]`: the next byte is outstanding, after the seventh none (R174). -/
def State.advanceTx (s : State) : State :=
  if s.txi = 6 then { s with txBusy := false } else { s with txi := s.txi + 1 }

/-- `TxWrite(txf[txi])` (R174, R177): a ready transport takes the byte; one that is not ready leaves the core waiting, for
ever if no further sample comes. -/
def txWrite (s : State) : State :=
  match s.txReady.head? with
  | some true => ({ s with txReady := s.txReady.tail }.emit [.tx (txByte s)]).advanceTx
  | some false => { s with txReady := s.txReady.tail }
  | none => s

end Sys2Proof.Machine
end

