-- ==== Sys2Proof/Machine/HostOps.lean ====
section
/-!
DEFINITION. The host operations (45_host_config.md). Each ends with the request served (`hostDone`).
-/
namespace Sys2Proof.Machine

/-- CFG_IMPORT (R201, R202): well-formed input replaces all eight assignments at once; otherwise all become
`EFFECT_DEFAULT`, `E_CFG_MALFORMED` is noted and failure is reported. -/
def execCfgImport (valid : Bool) (v : Table Byte) (s : State) : Result :=
  if valid then .next ({ s with eff := v }.emit [.cfgResult true]).hostDone
  else .next (({ s with eff := Vector.replicate 8 effectDefault }.note .cfgMalformed).emit [.cfgResult false]).hostDone

/-- CFG_EXPORT (R203): the eight assignments in order. -/
def execCfgExport (s : State) : Result := .next (s.emit [.cfgExport s.eff]).hostDone

/-- The pairs (channel number, assignment) for channel numbers 1..8 (R204). -/
def statusPairs (eff : Table Byte) : List (Byte × Byte) := channels.map fun i => (chanNumber i, eff[i])

/-- STATUS_EXPORT (R204). -/
def execStatusExport (s : State) : Result := .next (s.emit [.statusExport (statusPairs s.eff)]).hostDone

/-- HOP.NONE (R205): no host operation is requested at this evaluation; nothing happens. -/
def execHopNone (s : State) : Result := .next s.hostDone

end Sys2Proof.Machine
end

