-- ==== Sys2Proof/Machine/Dispatch.lean ====
section
/-!
DEFINITION. One arm per instruction.
-/
namespace Sys2Proof.Machine

def exec (i : Instr) (s : State) : Host.Outcome State Fault Refusal :=
  match i with
  | .nostart b0 => Sys2Proof.Machine.execNostart b0 s
  | .nolen => Sys2Proof.Machine.execNolen s
  | .overlen _ => Sys2Proof.Machine.execOverlen s
  | .short _ => Sys2Proof.Machine.execShort s
  | .rsvd _ _ _ _ => Sys2Proof.Machine.execRsvd s
  | .swevNop _ _ _ => Sys2Proof.Machine.execSwevNop s
  | .swevBadch _ _ => Sys2Proof.Machine.execSwevBadch s
  | .swevPress _ c => Sys2Proof.Machine.execSwevPress c s
  | .stat _ c on => Sys2Proof.Machine.execStat c on s
  | .cfgImport valid v => Sys2Proof.Machine.execCfgImport valid v s
  | .cfgExport => Sys2Proof.Machine.execCfgExport s
  | .statusExport => Sys2Proof.Machine.execStatusExport s
  | .hopNone => Sys2Proof.Machine.execHopNone s

end Sys2Proof.Machine
end

