-- ==== Sys2Proof/Machine/Sequencer.lean ====
section
/-!
DEFINITION. What the sequencer does at each position (10_state.md R24; the listings of 40_frame_reader.md to
43_frame_writer.md): bring a frame in, wait, or run the instruction that is decoded there. `placeWire` puts an encoded
instruction where the next step runs it.
-/
namespace Sys2Proof.Machine

/-- What one step does. -/
inductive Action
  /-- Run the decoded instruction at this state. -/
  | run (i : Instr) (s : State)
  /-- No host operation is requested: HOP.NONE, then the availability check. -/
  | poll (s : State)
  /-- The sequencer's own progress, or a wait. -/
  | move (o : Result)

/-- IDLE: a host request is served before an available byte (R206); without one the availability check is made (R100). -/
def atIdle (s : State) : Action :=
  match decodeHop (hostPort s) with
  | .hopNone => .poll s
  | i => .run i s

/-- RX_START (R101, R102, R103). -/
def atStart (s : State) : Action :=
  match readNow s with
  | .waiting => .move (.next s.tickOn)
  | .expired => .move (.next (raise s.expireRead .startTimeout))
  | .got b => if b = startByte then .move (.next (acceptStart b s)) else .run (.nostart b) s

/-- RX_LEN (R104, R105). -/
def atLen (s : State) : Action :=
  match readNow s with
  | .waiting => .move (.next s.tickOn)
  | .expired => .run .nolen s
  | .got b => .move (.next (acceptLength b s))

/-- The end of the payload (R109, R111): a frame above the bound is OVERLEN, any other goes to the decoder. -/
def handOff (s : State) : Action :=
  if s.cfg.bufCap < s.L.toNat then .run (.overlen s.L) s else .move (.next (s.goto .dispatch))

/-- RX_PAYLOAD (R106, R107, R110): while `cnt != L` one timed read, the sentinel if it expires; then the checksum stage if
enabled, or the hand-off. -/
def atPayload (s : State) : Action :=
  if s.cnt = s.L then
    if s.cfg.rxCsumEn then .move (.next { s with pc := .rxCsum, tmr := 0 }) else handOff s
  else match readNow s with
    | .waiting => .move (.next s.tickOn)
    | .expired => .move (storePayload s.cfg.sentinel s.expireRead)
    | .got b => .move (storePayload b (s.takeByte b))

/-- RX_CSUM (R110): a missing or wrong checksum byte raises `E_CSUM`, before the overflow test (R226). -/
def atCsum (s : State) : Action :=
  match readNow s with
  | .waiting => .move (.next s.tickOn)
  | .expired => .move (.next (raise s.expireRead .csum))
  | .got b => if b = s.racc then handOff (s.takeByte b) else .move (.next (raise (s.takeByte b) .csum))

/-- DISPATCH (R130): the decoded instruction runs. -/
def atDispatch (s : State) : Action :=
  match decodeBuffer s with
  | .ok i => .run i s
  | .error f => .move (.fault f)

/-- TX (R153, R174, R177): while a byte is outstanding it is offered to the transport; then the next owed notification's
STAT runs, and when none is left `pc <- HOST`. -/
def atTx (s : State) : Action :=
  if s.txBusy then .move (.next (txWrite s))
  else match s.nq with
    | [] => .move (.next (s.goto .host))
    | n :: _ => .run (.stat s.seq n.c n.on) s

/-- HOST (R154 to R157). -/
def atHost (s : State) : Action := .move (.next (hostWrites s))

/-- The action at the present position. -/
def action (s : State) : Action :=
  match s.pc with
  | .idle => atIdle s
  | .rxStart => atStart s
  | .rxLen => atLen s
  | .rxPayload => atPayload s
  | .rxCsum => atCsum s
  | .dispatch => atDispatch s
  | .tx => atTx s
  | .host => atHost s

/-- Carries an action out. -/
def perform : Action → Result
  | .run i s => exec i s
  | .poll s => andThen (exec .hopNone s) fun s => .next (poll s)
  | .move o => o

/-! ### Placing an encoded instruction -/

/-- `s` at the end of the reads of a frame with declared length `len` and payload `p`, with nothing of it decoded. -/
def placePayload (len : Byte) (p : List Byte) (s : State) : State :=
  { s with
    L := len
    cnt := len
    buf := storeFrom s.cfg.bufCap s.buf 0 p
    pc := if s.cfg.bufCap < len.toNat ∧ s.cfg.rxCsumEn = false then .rxPayload else .dispatch }

/-- `s` with the encoded form stored where the next step fetches its instruction: an inbound class at the position where
the reader or the decoder tells it, a status frame as the next owed notification, a host operation at the port. -/
def placeWire (w : Wire) (s : State) : State :=
  match w with
  | .rxf [] => s
  | .rxf (none :: _) => s
  | .rxf (some b0 :: reads) =>
    if b0 ≠ startByte then { s with pc := .rxStart, inbound := s.inbound.push (.byte b0) }
    else match reads with
      | [] => { s with pc := .rxLen, inbound := s.inbound.push .gap }
      | none :: _ => { s with pc := .rxLen, inbound := s.inbound.push .gap }
      | some len :: rest => placePayload len (takePayload s.cfg.sentinel len.toNat rest).1 s
  | .txf bytes =>
    match decodeTxf bytes with
    | .ok (.stat seq c on, _) => { s with pc := .tx, txBusy := false, seq := seq, nq := { c := c, on := on } :: s.nq }
    | _ => s
  | .hop port => { s with pc := .idle, hostq := s.hostq.push port }

end Sys2Proof.Machine
end

