-- ==== Sys2Proof/Machine/Step.lean ====
section
/-!
DEFINITION. One step: the reset input is sampled, then the sequencer acts at its position. `State.withFetchWord` stores a word
of the opcode table where the next step runs it.
-/
namespace Sys2Proof.Machine

/-- One step. An asserted reset ends whatever is in progress (R260, R262); otherwise the sequencer acts (R24). -/
def step (s : State) : Host.Outcome State Fault Refusal :=
  if rstAsserted s then .next s.sampleRst.resetRegs else perform (action s.sampleRst)

/-- `s` with the instruction of a table word (R84, log 13, log 14) stored where step runs it next; the reset
input is made silent, since an asserted sample would come first. A word with no encoded form leaves `s` as it is. -/
def State.withFetchWord (s : State) (nbits w : Nat) : State :=
  match wireOfWord s.cfg nbits w with
  | none => s
  | some wire => placeWire wire { s with rst := Feed.silent }

end Sys2Proof.Machine
end

