-- ==== Sys2Proof/Safety.lean ====
section
/-!
DEFINITION. The terms claims use: runs of several steps, the invariant of the machine, what a run may observe, and the
trace of what the spec lists as one operation.
-/
namespace Sys2Proof.Machine

/-- `n` steps, stopping at the first fault or refusal. -/
def run : Nat → State → Result
  | 0, s => .next s
  | n + 1, s => andThen (step s) (run n)

/-- A step is safe if it answers a next state. -/
def SafeStep (s : State) : Prop := ∃ t, step s = .next t

/-- At most one channel is on (R34). -/
def AtMostOneOn (ch : Table Bool) : Prop := ∀ i j : Chan, ch[i] = true → ch[j] = true → i = j

/-- The invariant of the reachable states. -/
structure Inv (s : State) : Prop where
  /-- The frame buffer is in its canonical form. -/
  bufWf : s.buf.wf = true
  /-- Nothing is listed beyond the buffer's capacity (R54, R108). -/
  bufBound : ∀ cell ∈ s.buf, cell.1 < s.cfg.bufCap
  /-- At most one channel is on (R34; the channel table is written in one step, so at every position). -/
  exclusive : AtMostOneOn s.ch
  /-- Notifications are owed at TX only (R31). -/
  owedAtTx : s.pc ≠ .tx → s.nq = []
  /-- One or two notifications a toggle (R153). -/
  owedAtMostTwo : s.nq.length ≤ 2
  /-- The payload loop has not passed the declared length (R26, R191 d). -/
  loop : s.pc = .rxPayload → s.cnt.toNat ≤ s.L.toNat
  /-- The checksum stage follows the whole payload and exists only when enabled (R110). -/
  stage : s.pc = .rxCsum → s.cnt = s.L ∧ s.cfg.rxCsumEn = true
  /-- The decoder is handed whole frames within the bound (R109, R111). -/
  handed : s.pc = .dispatch → s.cnt = s.L ∧ s.L.toNat ≤ s.cfg.bufCap
  /-- While a toggle's frames and host writes are outstanding, its channel has the new state and every other is off
  (R159). -/
  toggled : s.pc = .tx ∨ s.pc = .host → ∀ j : Chan, s.ch[j] = (decide (j = s.togC) && s.togOn)
  /-- What is outstanding at the transport is a status frame (R171, R176). -/
  frame : s.txBusy = true → ∃ seq c on, s.txf = statusFrame seq c on
  /-- A byte is outstanding at TX only (R24). -/
  busyAtTx : s.txBusy = true → s.pc = .tx
  /-- The timer of a read that has not expired is below the timeout (R28). -/
  timer : s.tmr = 0 ∨ s.tmr < s.cfg.rxTimeout

/-- The input after `n` items. -/
def Feed.drop {α : Type} {free : Nat → α} : Nat → Feed free → Feed free
  | 0, l => l
  | n + 1, l => Feed.drop n l.tail

/-- The next items of the input are `items`. -/
def Feed.starts {α : Type} [DecidableEq α] {free : Nat → α} (l : Feed free) : List α → Bool
  | [] => true
  | x :: rest => decide (l.head? = some x) && l.tail.starts rest

/-- No reset is asserted in the next `n` steps (R260). -/
abbrev NoReset (n : Nat) (s : State) : Prop := ∀ k, k < n → (s.rst.drop k).head? ≠ some true

/-- The inbound item of one timed read: the byte it returns, or a gap (R52). -/
def itemOf : Option Byte → RxItem
  | some b => .byte b
  | none => .gap

/-- The event of one timed read (R52). -/
def readEvent : Option Byte → Event
  | some b => .rx b
  | none => .rxNone

/-- The position has a timed read outstanding (R24). -/
def reading (s : State) : Bool :=
  match s.pc with
  | .rxStart => true
  | .rxLen => true
  | .rxPayload => s.cnt != s.L
  | .rxCsum => true
  | .idle => false
  | .dispatch => false
  | .tx => false
  | .host => false

/-- A read attempt is in progress at the position (R19, R24). -/
def attempting : Pos → Bool
  | .rxStart => true
  | .rxLen => true
  | .rxPayload => true
  | .rxCsum => true
  | .idle => false
  | .dispatch => false
  | .tx => false
  | .host => false

/-- The time units that pass at a position with a timed read outstanding: one for a tick; where a gap, a withdrawn byte or
a silent line expires the read, all that are left of `RX_TIMEOUT`, for which these stand (R28, R52, R112). -/
def readTime (s : State) : Nat :=
  match s.inbound.head? with
  | some (.byte _) => 0
  | some .tick => 1
  | some .gap => s.cfg.rxTimeout - s.tmr
  | some .withdrawn => s.cfg.rxTimeout - s.tmr
  | none => s.cfg.rxTimeout - s.tmr

/-- The time units that pass during outstanding timed reads in the next `n` steps (R28, R112). -/
def timeSpent : Nat → State → Nat
  | 0, _ => 0
  | n + 1, s => (if reading s then readTime s else 0) +
    match step s with
    | .next t => timeSpent n t
    | .fault _ => 0
    | .refused _ => 0

/-- The `Tx` events of the status frames for owed notifications, the first carrying `seq` (R153, R172, R174). -/
def statusEvents (seq : Byte) : List Notif → List Event
  | [] => []
  | n :: rest => (statusFrame seq n.c n.on).toList.map .tx ++ statusEvents (seq + 1) rest

/-- The byte handed to the transport by an event, if any (R15). -/
def sentByte : Event → Option Byte
  | .tx b => some b
  | .rx _ => none
  | .rxNone => none
  | .setEffect _ => none
  | .setPower _ => none
  | .directChange => none
  | .cfgResult _ => none
  | .cfgExport _ => none
  | .statusExport _ => none
  | .drop _ => none

/-- The outbound stream so far (R50, R53). -/
def sent (s : State) : List Byte := s.trace.filterMap sentByte

/-- The bytes of the status frames for a sequence of notifications, the first carrying `seq`. -/
def frameBytes (seq : Byte) : List Notif → List Byte
  | [] => []
  | n :: rest => (statusFrame seq n.c n.on).toList ++ frameBytes (seq + 1) rest

/-- The bytes of the frame under transmission that the transport has not taken yet. -/
def unsent (s : State) : List Byte := if s.pc = .tx ∧ s.txBusy = true then s.txf.toList.drop s.txi.val else []

/-- The steps from IDLE, with a byte available, to the step that runs the instruction of an inbound frame: availability
check, start read, length read, `L` payload reads, end of the loop (R100 to R111, `RX_CSUM_EN = 0`). -/
def fetchSteps : Instr → Nat
  | .nostart _ => 1
  | .nolen => 2
  | .overlen len => 3 + len.toNat
  | .short len => 4 + len.toNat
  | .rsvd len _ _ _ => 4 + len.toNat
  | .swevNop len _ _ => 4 + len.toNat
  | .swevBadch len _ => 4 + len.toNat
  | .swevPress len _ => 4 + len.toNat
  | .stat _ _ _ => 0
  | .cfgImport _ _ => 0
  | .cfgExport => 0
  | .statusExport => 0
  | .hopNone => 0

/-- Two states agree on everything but the registers whose values are dead at IDLE: `L`, `cnt`, `racc`, `buf`, `tmr`,
`txf`, `txi`, the latches of a toggle and the mark of an outstanding byte (R35, R113). -/
structure SameButDead (s t : State) : Prop where
  cfg : s.cfg = t.cfg
  ch : s.ch = t.ch
  seq : s.seq = t.seq
  eff : s.eff = t.eff
  pc : s.pc = t.pc
  nq : s.nq = t.nq
  inbound : s.inbound = t.inbound
  txReady : s.txReady = t.txReady
  hostq : s.hostq = t.hostq
  rst : s.rst = t.rst
  trace : s.trace = t.trace

end Sys2Proof.Machine
end

