-- ==== Sys2Proof/Certificates/Slice0/Obligations.lean ====
section
/-!
DEFINITION. The statements for the provers. Each docstring names the rules of spec/ it formalises. `rstAsserted s = false`
says that reset is not asserted at this step; `s.sampleRst` is `s` with this step's reset sample taken; `s.rst = .silent`
and `s.hostq = .silent` say that no reset and no host request comes any more (QuietInputsChangeNothing carries what is said
there over to inputs that go on). `x.head?` is the next item of an input, `none` if nothing more comes for ever; `x.starts items`
says that the input goes on with these items, whether listed or of an infinite input (log 27); `x.drop n` is what is left after
`n` items.
Statements range over all parameter records `cfg` unless they name one.
-/

open Sys2Proof Sys2Proof.Machine

/-! ### Encoding -/

/-- R71, R80, R84, R87, R115: for every well-formed inbound instruction, decoding its wire form gives it back and leaves
exactly the reads after it, whatever follows. -/
def Obligations.RxfDecodeEncodeAgree : Prop :=
  ∀ (cfg : Config) (i : Instr) (tail : List (Option Byte)), i.format = .rxf → i.wf cfg = true →
    decodeRxf cfg (encodeRxf cfg i ++ tail) = .ok (i, tail)

/-- R72, R76, R77: the status frame of every sequence byte, channel and state decodes to its instruction, and nothing but
status frames decodes. -/
def Obligations.TxfDecodeEncodeAgree : Prop :=
  (∀ (seq : Byte) (c : Chan) (on : Bool) (tail : List Byte),
    decodeTxf ((statusFrame seq c on).toList ++ tail) = .ok (.stat seq c on, tail)) ∧
  (∀ (bytes : List Byte) (i : Instr) (tail : List Byte), decodeTxf bytes = .ok (i, tail) →
    ∃ seq c on, i = .stat seq c on ∧ bytes = (statusFrame seq c on).toList ++ tail)

/-- R205: every host operation is read back from its port sample, and an import's operands are `cfg_valid` and
`v[i] = cfg_in[8*i+7 : 8*i]`. -/
def Obligations.HopDecodeEncodeAgree : Prop :=
  (∀ i : Instr, i.format = .hop → decodeHop (encodeHop i) = i) ∧
  (∀ (p : HostPort) (valid : Bool) (v : Table Byte), decodeHop p = .cfgImport valid v →
    p.op = 0b01 ∧ valid = p.cfgValid ∧ ∀ i : Chan, v[i] = p.cfgIn.extractLsb' (8 * i.val) 8)

/-- R80, R84 and 95_test_vectors.md 2.7: words written out from the spec's encodings, one for each class and operation a
word can express. The reading of the words is the model's (log 14): five wire bytes, seven wire bytes, one inbound byte
followed by silence (NOLEN), or, below 4, a host operation code with its operand lines zero. -/
def Obligations.SpecWordsDecode : Prop :=
  decodeTableWord 40 0x5500000000 = some (.nostart 0x55) ∧
  decodeTableWord 8 0x7B = some .nolen ∧
  decodeTableWord 40 0x7B81040301 = some (.overlen 0x81) ∧
  decodeTableWord 40 0x7B02040300 = some (.short 0x02) ∧
  decodeTableWord 40 0x7B03090301 = some (.rsvd 0x03 0x09 0x03 0x01) ∧
  decodeTableWord 40 0x7B03040300 = some (.swevNop 0x03 0x03 0x00) ∧
  decodeTableWord 40 0x7B03040901 = some (.swevBadch 0x03 0x09) ∧
  decodeTableWord 40 0x7B03040301 = some (.swevPress 0x03 2) ∧
  decodeTableWord 56 0x7B040005030109 = some (.stat 0x00 2 true) ∧
  decodeTableWord 8 0x01 = some (.cfgImport false #v[0, 0, 0, 0, 0, 0, 0, 0]) ∧
  decodeTableWord 8 0x02 = some .cfgExport ∧
  decodeTableWord 8 0x03 = some .statusExport ∧
  decodeTableWord 8 0x00 = some .hopNone

/-- R80: the classes of a frame with a length byte, in their order, on this hardware. `at k` is payload byte `k` as stored:
what its read returned, 0xFF if the read expired or the line is silent. Exactly `L` reads belong to the payload. -/
def Obligations.ClassesFollowTheTable : Prop :=
  ∀ (len : Byte) (reads : List (Option Byte)) (pay : Nat → Byte), (∀ k, pay k = (reads.getD k none).getD 0xFF) →
    let got := decodeRxf Config.hardware (some 0x7B :: some len :: reads)
    let left := reads.drop len.toNat
    (128 < len.toNat → got = .ok (.overlen len, left)) ∧
    (len.toNat < 3 → got = .ok (.short len, left)) ∧
    (3 ≤ len.toNat → len.toNat ≤ 128 →
      (pay 0 ≠ 0x04 → got = .ok (.rsvd len (pay 0) (pay 1) (pay 2), left)) ∧
      (pay 0 = 0x04 → pay 2 ≠ 0x01 → got = .ok (.swevNop len (pay 1) (pay 2), left)) ∧
      (pay 0 = 0x04 → pay 2 = 0x01 → (pay 1 = 0 ∨ 8 < (pay 1).toNat) → got = .ok (.swevBadch len (pay 1), left)) ∧
      (pay 0 = 0x04 → pay 2 = 0x01 → ∀ c : Chan, (pay 1).toNat = c.val + 1 → got = .ok (.swevPress len c, left)))

/-- R137 (which the spec derives from R130 and R131): the payload bytes after the three fields and the value of `L`
beyond the tests of R109 and R132 have no effect. -/
def Obligations.FramesAgreeingInFieldsActAlike : Prop :=
  ∀ (cfg : Config) (len len' : Byte) (p p' : List Byte) (s : State),
    cfg.decodable len = true → cfg.decodable len' = true →
    (∀ k, k < 3 → p.getD (cfg.decBase + k) 0 = p'.getD (cfg.decBase + k) 0) →
    exec (classify cfg len p) s = exec (classify cfg len' p') s

/-- R107, R74, R75, R76: with the sentinel 0xFF, a frame is a press only if the reads of its three fields all returned
bytes. -/
def Obligations.ExpiredFieldReadNeverPresses : Prop :=
  ∀ (cfg : Config) (reads after : List (Option Byte)) (len : Byte) (c : Chan), cfg.sentinel = 0xFF →
    decodeRxf cfg reads = .ok (.swevPress len c, after) →
    ∃ rest, reads = some 0x7B :: some len :: rest ∧
      ∀ k, k < 3 → ∃ b : Byte, rest[cfg.decBase + k]? = some (some b)

/-! ### Steps and instructions -/

/-- R24, R100 to R111, R130, R153, R206: where the bytes at the sequencer's position decode to an instruction, the step is
`exec` of it at that state. HOP.NONE is followed by the availability check; OVERLEN after the checksum stage runs with the
checksum byte consumed. -/
def Obligations.StepRunsTheDecodedInstruction : Prop :=
  ∀ s : State, rstAsserted s = false →
    (s.pc = .idle → decodeHop (hostPort s) ≠ .hopNone → step s = exec (decodeHop (hostPort s)) s.sampleRst) ∧
    (s.pc = .idle → decodeHop (hostPort s) = .hopNone →
      step s = andThen (exec .hopNone s.sampleRst) fun u => .next (poll u)) ∧
    (s.pc = .rxStart → ∀ b, s.inbound.head? = some (.byte b) → b ≠ 0x7B →
      step s = exec (.nostart b) s.sampleRst) ∧
    (s.pc = .rxLen → readNow s = .expired → step s = exec .nolen s.sampleRst) ∧
    (s.pc = .rxPayload → s.cnt = s.L → s.cfg.rxCsumEn = false → s.cfg.bufCap < s.L.toNat →
      step s = exec (.overlen s.L) s.sampleRst) ∧
    (s.pc = .rxCsum → s.inbound.head? = some (.byte s.racc) → s.cfg.bufCap < s.L.toNat →
      step s = exec (.overlen s.L) (s.sampleRst.takeByte s.racc)) ∧
    (s.pc = .dispatch → ∀ i, decodeBuffer s = .ok i → step s = exec i s.sampleRst) ∧
    (s.pc = .tx → s.txBusy = false → ∀ n rest, s.nq = n :: rest → step s = exec (.stat s.seq n.c n.on) s.sampleRst)

/-- Log 13, R84: the next step runs exactly the instruction of a loaded table word, on any parameters. -/
def Obligations.LoadedWordRunsNext : Prop :=
  ∀ (s : State) (nbits w : Nat) (i : Instr), s.buf.wf = true → decodeWord s.cfg nbits w = some i →
    let u := s.withFetchWord nbits w
    (i ≠ .hopNone → step u = exec i u) ∧
    (i = .hopNone → step u = andThen (exec i u) fun v => .next (poll v))

/-- R223, R81: every step answers a next state: no condition is a fault, no encoding is refused, no state is halted. -/
def Obligations.EveryStepAnswersANextState : Prop :=
  ∀ s : State, ∃ t, step s = .next t

/-- R24: the sequencer moves forward only: each position is left for the next stages or for IDLE, IDLE only for RX_START,
RX_CSUM is entered only when enabled, a frame in transmission leads to HOST only, and HOST leads to IDLE. -/
def Obligations.SequencerMovesForwardOnly : Prop :=
  ∀ s t : State, rstAsserted s = false → step s = .next t →
    match s.pc with
    | .idle => t.pc = .idle ∨ t.pc = .rxStart
    | .rxStart => t.pc = .rxStart ∨ t.pc = .rxLen ∨ t.pc = .idle
    | .rxLen => t.pc = .rxLen ∨ t.pc = .rxPayload ∨ t.pc = .idle
    | .rxPayload => t.pc = .rxPayload ∨ (t.pc = .rxCsum ∧ s.cfg.rxCsumEn = true) ∨ t.pc = .dispatch ∨ t.pc = .idle
    | .rxCsum => t.pc = .rxCsum ∨ t.pc = .dispatch ∨ t.pc = .idle
    | .dispatch => t.pc = .tx ∨ t.pc = .idle
    | .tx => t.pc = .tx ∨ t.pc = .host
    | .host => t.pc = .idle

/-- R9 to R12, R32: no step changes the parameters. -/
def Obligations.ParametersAreFixed : Prop :=
  ∀ s t : State, step s = .next t → t.cfg = s.cfg

/-! ### Frame Reader -/

/-- R100, R52: at IDLE with no host request, a reported byte begins a read attempt, also one that the transport then
withdraws (R102, log 5), and nothing else does: on a silent line nothing happens, a leading gap passes without effect, and so
does a leading time unit (log 4). -/
def Obligations.PollBeginsAttemptOnReportedByte : Prop :=
  ∀ s : State, rstAsserted s = false → s.pc = .idle → decodeHop (hostPort s) = .hopNone →
    (s.inbound.head? = none → step s = .next { s.sampleRst with hostq := s.hostq.tail }) ∧
    ((s.inbound.head? = some .gap ∨ s.inbound.head? = some .tick) →
      step s = .next { s.sampleRst with hostq := s.hostq.tail, inbound := s.inbound.tail }) ∧
    ((s.inbound.head? = some .withdrawn ∨ ∃ b, s.inbound.head? = some (.byte b)) →
      step s = .next { s.sampleRst with hostq := s.hostq.tail, pc := .rxStart, tmr := 0 })

/-- R101, R102: the start byte is consumed and not stored; any other byte is NOSTART's; a start read that expires ends the
attempt with no byte consumed and no state but the position changed (the gap is over). That the timer is 0 afterwards is the
model's choice (log 22). -/
def Obligations.StartReadAcceptsMarkerOnly : Prop :=
  ∀ s : State, rstAsserted s = false → s.pc = .rxStart →
    (s.inbound.head? = some (.byte 0x7B) → step s = .next { s.sampleRst with
      inbound := s.inbound.tail, tmr := 0, pc := .rxLen, trace := s.trace ++ [.rx 0x7B] }) ∧
    (∀ b, s.inbound.head? = some (.byte b) → b ≠ 0x7B → step s = exec (.nostart b) s.sampleRst) ∧
    (readNow s = .expired → step s = .next { s.sampleRst with
      inbound := s.inbound.tail, tmr := 0, pc := .idle, trace := s.trace ++ [.rxNone, .drop .startTimeout] })

/-- R103: a first byte other than 0x7B is dropped: exactly that byte is consumed, `E_DESYNC`, and no other state changes;
so from IDLE, two steps. That the timer is 0 afterwards is the model's choice (log 22). -/
def Obligations.NostartDropsExactlyOneByte : Prop :=
  ∀ (s : State) (b : Byte), b ≠ 0x7B → s.inbound.head? = some (.byte b) →
    exec (.nostart b) s = .next { s with
      inbound := s.inbound.tail, tmr := 0, pc := .idle, trace := s.trace ++ [.rx b, .drop .desync] } ∧
    (s.pc = .idle → s.rst = .silent → s.hostq = .silent →
      run 2 s = .next { s with inbound := s.inbound.tail, tmr := 0, trace := s.trace ++ [.rx b, .drop .desync] })

/-- R104: the length byte loads `L` and clears `cnt` and `racc`, whatever its value, and is not stored; a length read that
expires is NOLEN's; with `L = 0` and no checksum stage the empty frame goes to the decoder, which ignores it. That the timer
is 0 afterwards, also where no payload read follows, is the model's choice (log 22). -/
def Obligations.LengthByteIsLoaded : Prop :=
  ∀ s : State, s.pc = .rxLen →
    (∀ b, rstAsserted s = false → s.inbound.head? = some (.byte b) → step s = .next { s.sampleRst with
      inbound := s.inbound.tail, tmr := 0, L := b, cnt := 0, racc := 0, pc := .rxPayload
      trace := s.trace ++ [.rx b] }) ∧
    (rstAsserted s = false → readNow s = .expired → step s = exec .nolen s.sampleRst) ∧
    (s.rst = .silent → s.inbound.head? = some (.byte 0) → s.cfg.rxCsumEn = false → run 3 s = .next { s with
      inbound := s.inbound.tail, tmr := 0, L := 0, cnt := 0, racc := 0, pc := .idle
      trace := s.trace ++ [.rx 0, .drop .short] })

/-- R105 (the spec's decision D6): NOLEN completes in every state: the attempt is abandoned, the start byte stays consumed,
nothing else changes (that the timer is 0 afterwards is the model's choice, log 22). It is what a length read that expires
runs: by a gap or a silent line (R52), by a withdrawn byte (log 5), or by the time unit that brings the timer to `RX_TIMEOUT`
(R28, log 4). -/
def Obligations.NolenAbandonsTheAttempt : Prop :=
  ∀ s : State,
    exec .nolen s = .next { s with
      inbound := s.inbound.tail, tmr := 0, pc := .idle, trace := s.trace ++ [.rxNone, .drop .lenTimeout] } ∧
    (s.pc = .rxLen → rstAsserted s = false →
      (s.inbound.head? = none ∨ s.inbound.head? = some .gap ∨ s.inbound.head? = some .withdrawn ∨
        (s.inbound.head? = some .tick ∧ s.cfg.rxTimeout ≤ s.tmr + 1)) →
      step s = exec .nolen s.sampleRst)

/-- R106, R107, R108, R110. One read: whether it returns a byte or expires, by whatever the line does, the byte or the
sentinel is stored at `cnt` below the bound and thrown away at or above it, enters the running sum when the checksum is
enabled, and is counted; no other register changes but the timer, reloaded with 0 (log 22). The loop, where each read meets
a byte or a gap at once: exactly `L - cnt` reads, whatever they return; below the bound each stored byte is what its read
returned or the sentinel, every other byte of the buffer and every other register is as before. That the running sum stays as
it is with the checksum disabled is the model's choice (log 26). -/
def Obligations.ReaderPerformsExactlyLReads : Prop :=
  (∀ (s : State) (r : Option Byte), rstAsserted s = false → s.pc = .rxPayload → s.cnt ≠ s.L →
    (readNow s = match r with
      | some b => .got b
      | none => .expired) →
    let byte := r.getD s.cfg.sentinel
    step s = .next { s.sampleRst with
      inbound := s.inbound.tail, tmr := 0, cnt := s.cnt + 1, trace := s.trace ++ [readEvent r]
      buf := if s.cnt.toNat < s.cfg.bufCap then s.buf.write s.cnt.toNat byte else s.buf
      racc := if s.cfg.rxCsumEn then s.racc + byte else s.racc }) ∧
  (∀ (s : State) (reads : List (Option Byte)),
    s.pc = .rxPayload → s.rst = .silent → s.buf.wf = true → s.cnt.toNat + reads.length = s.L.toNat →
    s.inbound.starts (reads.map itemOf) = true →
    ∃ (m : Memory) (r : Byte),
      run reads.length s = .next { s with
        cnt := s.L, buf := m, racc := r, tmr := if reads = [] then s.tmr else 0
        inbound := s.inbound.drop reads.length, trace := s.trace ++ reads.map readEvent } ∧
      (∀ k, k < reads.length → s.cnt.toNat + k < s.cfg.bufCap →
        m.read (s.cnt.toNat + k) = (reads.getD k none).getD s.cfg.sentinel) ∧
      (∀ a, (a < s.cnt.toNat ∨ s.L.toNat ≤ a ∨ s.cfg.bufCap ≤ a) → m.read a = s.buf.read a) ∧
      r = (if s.cfg.rxCsumEn then s.racc + csum8 (reads.map fun x => x.getD s.cfg.sentinel) else s.racc))

/-- R109 (the drain policy is the spec's decision D7), R111: at the end of the payload a frame within the bound goes to
the decoder; one above it is discarded with `E_OVERFLOW`. `L = BUF_CAP` is no overflow, `L = BUF_CAP + 1` is. -/
def Obligations.OverflowIsTestedAfterTheDrain : Prop :=
  ∀ s : State, rstAsserted s = false → s.pc = .rxPayload → s.cnt = s.L → s.cfg.rxCsumEn = false →
    (s.L.toNat ≤ s.cfg.bufCap → step s = .next { s.sampleRst with pc := .dispatch }) ∧
    (s.cfg.bufCap < s.L.toNat →
      step s = .next { s.sampleRst with pc := .idle, trace := s.trace ++ [.drop .overflow] })

/-- R110 (the spec's decision D8), R226: the optional checksum stage: one read after the payload; a missing or wrong
byte raises `E_CSUM`, a right one leads to the overflow test and the hand-off. That the timer is 0 after the read is the
model's choice (log 22). -/
def Obligations.ChecksumStageChecksOneByte : Prop :=
  ∀ s : State, rstAsserted s = false →
    (s.pc = .rxPayload → s.cnt = s.L → s.cfg.rxCsumEn = true →
      step s = .next { s.sampleRst with pc := .rxCsum, tmr := 0 }) ∧
    (s.pc = .rxCsum →
      (readNow s = .expired → step s = .next { s.sampleRst with
        inbound := s.inbound.tail, tmr := 0, pc := .idle, trace := s.trace ++ [.rxNone, .drop .csum] }) ∧
      (∀ b, s.inbound.head? = some (.byte b) →
        step s = .next (if b ≠ s.racc then { s.sampleRst with
            inbound := s.inbound.tail, tmr := 0, pc := .idle, trace := s.trace ++ [.rx b, .drop .csum] }
          else if s.cfg.bufCap < s.L.toNat then { s.sampleRst with
            inbound := s.inbound.tail, tmr := 0, pc := .idle, trace := s.trace ++ [.rx b, .drop .overflow] }
          else { s.sampleRst with
            inbound := s.inbound.tail, tmr := 0, pc := .dispatch, trace := s.trace ++ [.rx b] })))

/-- R28, R230 (ticks: log 4): while a timed read is outstanding each tick adds one to the timer and changes nothing else;
the tick that brings it to `RX_TIMEOUT` does what a gap does. -/
def Obligations.TimerExpiresTheRead : Prop :=
  ∀ s : State, s.rst = .silent → reading s = true →
    (∀ k, s.inbound.starts (List.replicate k .tick) = true → s.tmr + k < s.cfg.rxTimeout →
      run k s = .next { s with inbound := s.inbound.drop k, tmr := s.tmr + k }) ∧
    (s.inbound.head? = some .tick → s.cfg.rxTimeout ≤ s.tmr + 1 →
      step s = step { s with inbound := s.inbound.tail.push .gap })

/-- R112, its payload part (ticks: log 4; the whole attempt is BlockingIsBoundedOverAnAttempt): on a line that only lets time
pass, the payload reads of a frame end after at most `RX_TIMEOUT` ticks each: `RX_TIMEOUT x (L - cnt)` in all. -/
def Obligations.PayloadBlockingIsBounded : Prop :=
  ∀ s : State, s.pc = .rxPayload → s.rst = .silent → s.tmr = 0 → 0 < s.cfg.rxTimeout → s.cnt.toNat ≤ s.L.toNat →
    let n := s.cfg.rxTimeout * (s.L.toNat - s.cnt.toNat)
    s.inbound.starts (List.replicate n .tick) = true →
    ∃ t, run n s = .next t ∧
      t.pc = .rxPayload ∧ t.cnt = s.L ∧ t.L = s.L ∧ t.inbound = s.inbound.drop n ∧
      t.trace = s.trace ++ List.replicate (s.L.toNat - s.cnt.toNat) .rxNone

/-- R71, R79, R80, R100 to R111, on lines where each timed read meets a byte or a gap at once, with `RX_CSUM_EN = 0`:
the byte-by-byte reader refines the frame decoder. `reads` is what the timed reads will return: all of a line that is
silent after it, or at least the 257 reads an attempt can perform. From IDLE, if the decoder reads the instruction `i`
from them, then after `fetchSteps i` steps the machine stands where the next step is `exec i`; nothing of the write path
(channel table, counter, effects, notifications, `txf`, `txi`, the toggle's latches and mark, the streams out) has changed on
the way, and what is left of the line after it is what the decoder left. -/
def Obligations.ReaderRefinesTheDecoder : Prop :=
  ∀ (s : State) (reads after : List (Option Byte)) (i : Instr),
    s.pc = .idle → s.hostq = .silent → s.rst = .silent → s.buf.wf = true → s.cfg.rxCsumEn = false →
    s.inbound.starts (reads.map itemOf) = true →
    (257 ≤ reads.length ∨ (s.inbound.drop reads.length).head? = none) →
    decodeRxf s.cfg reads = .ok (i, after) →
    ∃ u t, run (fetchSteps i) s = .next u ∧ step u = exec i u ∧ exec i u = .next t ∧
      t.inbound = s.inbound.drop (reads.length - after.length) ∧ t.inbound.starts (after.map itemOf) = true ∧
      u.cfg = s.cfg ∧ u.ch = s.ch ∧ u.seq = s.seq ∧ u.eff = s.eff ∧ u.nq = s.nq ∧ u.txReady = s.txReady ∧
      u.txf = s.txf ∧ u.txi = s.txi ∧ u.togC = s.togC ∧ u.togOn = s.togOn ∧ u.txBusy = s.txBusy ∧
      u.rst = .silent ∧ u.hostq = .silent ∧ sent u = sent s

/-- R114, R103: a run of non-start bytes is consumed one byte a poll, each with its own `E_DESYNC`, and nothing else
changes. -/
def Obligations.NoisyLineIsDroppedByteByByte : Prop :=
  ∀ (s : State) (noise : List Byte), (∀ b ∈ noise, b ≠ 0x7B) →
    s.pc = .idle → s.rst = .silent → s.hostq = .silent → s.tmr = 0 → s.inbound.starts (noise.map .byte) = true →
    run (2 * noise.length) s = .next { s with
      inbound := s.inbound.drop noise.length
      trace := s.trace ++ (noise.map fun b => [Event.rx b, .drop .desync]).flatten }

/-- R51, R116, R61: a step consumes at most one item of the inbound stream, at its head, and puts nothing back. -/
def Obligations.InboundIsConsumedInOrder : Prop :=
  ∀ s t : State, step s = .next t →
    t.inbound = s.inbound ∨ (∃ x, s.inbound.head? = some x) ∧ t.inbound = s.inbound.tail

/-- R108, R27, R54: unless reset is asserted, a step changes the frame buffer only in the payload loop, at index `cnt`, and
never at or beyond the capacity. -/
def Obligations.BufferIsWrittenOnlyWithinCapacity : Prop :=
  ∀ s t : State, s.buf.wf = true → rstAsserted s = false → step s = .next t → ∀ a, t.buf.read a ≠ s.buf.read a →
    s.pc = .rxPayload ∧ s.cnt ≠ s.L ∧ a = s.cnt.toNat ∧ a < s.cfg.bufCap

/-! ### Frame Decoder -/

/-- R133, R135: at DISPATCH with a frame of acceptable length, a command type other than 0x04 is ignored: the core
returns to IDLE with `E_UNKNOWN_CMD` as a ghost event and no other change. A pressed event for channel number 0 or above
8 is ignored with `E_BAD_CHANNEL`; one for channel number 1 to 8 runs SWEV.PRESS. -/
def Obligations.UnknownCommandsAndChannelsAreIgnored : Prop :=
  ∀ s : State, rstAsserted s = false → s.pc = .dispatch → s.cfg.decBase + 3 ≤ s.L.toNat → s.L.toNat ≤ s.cfg.bufCap →
    let cmd := s.buf.read s.cfg.decBase
    let chan := s.buf.read (s.cfg.decBase + 1)
    let status := s.buf.read (s.cfg.decBase + 2)
    let dropped := fun c : Cond => { s.sampleRst with pc := .idle, trace := s.trace ++ [.drop c] }
    (cmd ≠ 0x04 → step s = .next (dropped .unknownCmd)) ∧
    (cmd = 0x04 → status = 0x01 → (chan = 0 ∨ 8 < chan.toNat) → step s = .next (dropped .badChannel)) ∧
    (cmd = 0x04 → status = 0x01 → ∀ c : Chan, chan.toNat = c.val + 1 → step s = exec (.swevPress s.L c) s.sampleRst)

/-- R132 (the spec's decision D9), R134 (D10), R136: at DISPATCH a frame too short for the three fields is ignored with
`E_SHORT` whatever the buffer holds; of a frame of acceptable length with command type 0x04, a status other than 0x01 is
ignored with `E_NOT_PRESSED` whatever the channel. -/
def Obligations.ShortAndUnpressedFramesAreIgnored : Prop :=
  ∀ s : State, rstAsserted s = false → s.pc = .dispatch → s.L.toNat ≤ s.cfg.bufCap →
    (s.L.toNat < s.cfg.decBase + 3 →
      step s = .next { s.sampleRst with pc := .idle, trace := s.trace ++ [.drop .short] }) ∧
    (s.cfg.decBase + 3 ≤ s.L.toNat → s.buf.read s.cfg.decBase = 0x04 → s.buf.read (s.cfg.decBase + 2) ≠ 0x01 →
      step s = .next { s.sampleRst with pc := .idle, trace := s.trace ++ [.drop .notPressed] })

/-- R109, R132 to R135, R221: OVERLEN, SHORT, RSVD, SWEV.NOP and SWEV.BADCH complete in every state, with any operands, by
returning to IDLE with their condition; registers, buffer, channel table, sequence counter and streams are unchanged. -/
def Obligations.IgnoredFramesOnlyReturnToIdle : Prop :=
  ∀ (s : State) (len cmd chan status : Byte),
    exec (.overlen len) s = .next { s with pc := .idle, trace := s.trace ++ [.drop .overflow] } ∧
    exec (.short len) s = .next { s with pc := .idle, trace := s.trace ++ [.drop .short] } ∧
    exec (.rsvd len cmd chan status) s = .next { s with pc := .idle, trace := s.trace ++ [.drop .unknownCmd] } ∧
    exec (.swevNop len chan status) s = .next { s with pc := .idle, trace := s.trace ++ [.drop .notPressed] } ∧
    exec (.swevBadch len chan) s = .next { s with pc := .idle, trace := s.trace ++ [.drop .badChannel] }

/-! ### Switch State Machine -/

/-- R151, R152 (with the spec's decision D12), R153 (the order is D11): SWEV.PRESS completes in every state. The
addressed channel flips, every other channel is off; the addressed channel's notification is owed first, then one for
each channel forced off, in ascending order, and for no other. Nothing is sent and no host call is made yet; sequence
counter, effect table, read path, `txi`, buffer and streams are unchanged. (The latches and the mark that no byte is
outstanding are the model's own: log 2, log 3.) -/
def Obligations.PressFlipsAndForcesOthersOff : Prop :=
  ∀ (s : State) (len : Byte) (c : Chan), ∃ (ch' : Table Bool) (forced : List Chan),
    exec (.swevPress len c) s = .next { s with
      ch := ch', nq := { c := c, on := !s.ch[c] } :: forced.map (fun j => { c := j, on := false }),
      togC := c, togOn := !s.ch[c], txBusy := false, pc := .tx } ∧
    ch'[c] = !s.ch[c] ∧
    (∀ j : Chan, j ≠ c → ch'[j] = false) ∧
    (∀ j : Chan, j ∈ forced ↔ j ≠ c ∧ s.ch[j] = true) ∧
    forced.Pairwise (· < ·)

/-- R159, R34: whatever the channel table before, after a press at most one channel is on. -/
def Obligations.PressLeavesAtMostOneOn : Prop :=
  ∀ (s t : State) (len : Byte) (c : Chan), exec (.swevPress len c) s = .next t →
    AtMostOneOn t.ch ∧ ∀ j : Chan, t.ch[j] = true → j = c ∧ s.ch[c] = false

/-- R160: toggling a channel twice, from any channel table, returns it to its value before; the other channels stay off;
each toggle owes at least one notification. -/
def Obligations.PressTwiceRestoresTheChannel : Prop :=
  ∀ (s t t' u : State) (len len' : Byte) (c : Chan),
    exec (.swevPress len c) s = .next t → t'.ch = t.ch → exec (.swevPress len' c) t' = .next u →
    u.ch[c] = s.ch[c] ∧ (∀ j : Chan, j ≠ c → u.ch[j] = false) ∧ t.nq ≠ [] ∧ u.nq = [{ c := c, on := s.ch[c] }]

/-- R154, R155, R156, R158: at HOST, on: the effect assigned to the channel now, then the policy power level; off: power 0
and no effect; then the change signal once, as the last event, and IDLE. The order of effect before power is the spec's
decision D13 (R157); the power level is a free value (log 10); channel and new state are the toggle's latches (log 2). That
the calls are one step, with no reset between them, is the model's choice (log 29). -/
def Obligations.HostCallsEndTheToggle : Prop :=
  ∀ s : State, rstAsserted s = false → s.pc = .host →
    (s.togOn = true → step s = .next { s.sampleRst with pc := .idle, trace := s.trace ++
      [.setEffect s.eff[s.togC], .setPower Config.powerOnLevel, .directChange] }) ∧
    (s.togOn = false → step s = .next { s.sampleRst with pc := .idle, trace := s.trace ++
      [.setPower 0, .directChange] })

/-- R11, R154: the power level of a channel that turns on is neither zero nor the maximum. -/
def Obligations.OnPowerIsNeitherZeroNorFull : Prop :=
  0 < Config.powerOnLevel.toNat ∧ Config.powerOnLevel.toNat < 2 ^ 8 - 1

/-- R21, R207, R36: the channel table changes only by a press at DISPATCH, or by reset. -/
def Obligations.ChannelTableChangesOnlyByPress : Prop :=
  ∀ s t : State, step s = .next t → t.ch ≠ s.ch →
    rstAsserted s = true ∨
    (s.pc = .dispatch ∧ ∃ c : Chan, decodeBuffer s = .ok (.swevPress s.L c) ∧ t.ch[c] = !s.ch[c])

/-! ### Frame Writer -/

/-- R170, R171, R172, R173: STAT completes in every state. The frame carries the counter's value before the increment, the
channel number, the state byte and the sum of bytes 2..5; the counter advances modulo 256; the front notification is taken
and byte 0 is outstanding. Channels, effects, read path, buffer and streams are unchanged. (The counter, not the operand
`q`, is carried: log 16. The mark of an outstanding byte is the model's own: log 3. That the notification is taken at this
moment is the model's choice: log 28.) -/
def Obligations.StatBuildsTheFrame : Prop :=
  ∀ (s : State) (q : Byte) (c : Chan) (on : Bool),
    let n : Byte := BitVec.ofNat 8 (c.val + 1)
    let st : Byte := if on then 0x01 else 0x00
    exec (.stat q c on) s = .next { s with
      txf := #v[0x7B, 0x04, s.seq, 0x05, n, st, s.seq + 0x05 + n + st],
      seq := s.seq + 1, txi := 0, txBusy := true, nq := s.nq.tail, pc := .tx }

/-- R192: the checker accepts exactly the sum; every frame STAT builds passes it, over bytes 2..5, and decodes to the status
frame of its notification. -/
def Obligations.BuiltFramePassesTheChecker : Prop :=
  (∀ (bytes : List Byte) (c : Byte), csumOk bytes c = true ↔ csum8 bytes = c) ∧
  (∀ (s t : State) (q : Byte) (c : Chan) (on : Bool), exec (.stat q c on) s = .next t →
    csumOk [t.txf[2], t.txf[3], t.txf[4], t.txf[5]] t.txf[6] = true ∧
    decodeTxf t.txf.toList = .ok (.stat s.seq c on, []))

/-- R174: the seven bytes leave in offset order, one at each sample at which the transport is ready and none at any other
(samples: log 6), and nothing else happens meanwhile: `waits` holds the samples up to the one that takes the last byte.
Afterwards no byte is outstanding, which the model's own mark says, and `txi` stands at 6 (log 3). -/
def Obligations.SevenBytesLeaveInOrder : Prop :=
  ∀ (s : State) (waits : List Bool), s.pc = .tx → s.txBusy = true → s.txi = 0 → s.rst = .silent →
    waits.count true = 6 → s.txReady.starts (waits ++ [true]) = true →
    run (waits.length + 1) s = .next { s with
      txi := 6, txBusy := false, txReady := s.txReady.drop (waits.length + 1), trace := s.trace ++ s.txf.toList.map .tx }

/-- R177 (the spec's decision D23): while the transport takes no byte nothing happens at all: no event, no inbound byte
read, no host operation served; a transport that takes none for any number of steps, whether it answers "not ready" or
nothing more (log 6), stalls the core that long, and only reset leaves. -/
def Obligations.TransmitStallIsLeftOnlyByReset : Prop :=
  ∀ s : State, s.pc = .tx → s.txBusy = true →
    (s.txReady.head? ≠ some true → rstAsserted s = false →
      step s = .next { s.sampleRst with txReady := s.txReady.tail }) ∧
    (s.rst = .silent → ∀ n, (∀ k, k < n → (s.txReady.drop k).head? ≠ some true) →
      run n s = .next { s with txReady := s.txReady.drop n }) ∧
    (s.txReady.head? ≠ some true → ∀ t, step s = .next t →
      (rstAsserted s = false ∧ t = { s.sampleRst with txReady := s.txReady.tail }) ∨
      (rstAsserted s = true ∧ t.pc = .idle))

/-- R153, R61, R172, R174: the notifications owed are sent front first, each frame complete before the next, with
consecutive sequence numbers, and then the core stands at HOST. The transport takes every byte at once (waits:
SevenBytesLeaveInOrder). -/
def Obligations.OwedFramesAreSentInOrder : Prop :=
  ∀ s : State, s.pc = .tx → s.txBusy = false → s.rst = .silent →
    s.txReady.starts (List.replicate (7 * s.nq.length) true) = true →
    ∃ t, run (8 * s.nq.length + 1) s = .next t ∧
      t.pc = .host ∧ t.nq = [] ∧ t.seq = s.seq + BitVec.ofNat 8 s.nq.length ∧
      t.txReady = s.txReady.drop (7 * s.nq.length) ∧
      t.trace = s.trace ++ statusEvents s.seq s.nq ∧
      t.ch = s.ch ∧ t.eff = s.eff ∧ t.togC = s.togC ∧ t.togOn = s.togOn ∧ t.inbound = s.inbound ∧
      t.hostq = s.hostq ∧ t.rst = s.rst ∧ t.buf = s.buf ∧ t.cfg = s.cfg

/-- R22, R172: the sequence counter advances by one when a status frame is built, and by nothing else but reset. -/
def Obligations.SequenceCounterCountsFrames : Prop :=
  ∀ s t : State, rstAsserted s = false → step s = .next t →
    (s.pc = .tx ∧ s.txBusy = false ∧ s.nq ≠ [] ∧ t.seq = s.seq + 1) ∨
    (¬ (s.pc = .tx ∧ s.txBusy = false ∧ s.nq ≠ []) ∧ t.seq = s.seq)

/-- R61 (a), R172, R174, R175, R176: from reset, with any environment and as long as reset is not asserted again, the
outbound stream is a sequence of whole status frames with consecutive sequence numbers from `SEQ_RESET`, the last one
possibly cut where the transport stands; the counter has counted them. -/
def Obligations.OutboundStreamIsStatusFrames : Prop :=
  ∀ (e t : State) (n : Nat), NoReset n e → e.trace = [] → run n e.resetRegs = .next t →
    ∃ ns : List Notif, sent t ++ unsent t = frameBytes e.cfg.seqReset ns ∧
      t.seq = e.cfg.seqReset + BitVec.ofNat 8 ns.length

/-- R150 to R158, R61 (b): one press of channel number `c + 1`, end to end. From IDLE in any channel table, with the
frame `7B 03 04 c 01` next on the line and a transport that takes every byte at once: five bytes are consumed, the
channel flips and all others are off, one status frame leaves for each channel that changed, then the host calls, and
the core is at IDLE. The order of the notifications is the spec's decision D11, the order of effect before power its
D13; the power level is a free value (log 10). -/
def Obligations.PressFrameEndToEnd : Prop :=
  ∀ (s : State) (c : Chan),
    s.pc = .idle → s.hostq = .silent → s.rst = .silent → s.cfg.rxCsumEn = false → s.cfg.decBase = 0 → 3 ≤ s.cfg.bufCap →
    s.buf.wf = true →
    s.inbound.starts [.byte 0x7B, .byte 0x03, .byte 0x04, .byte (chanNumber c), .byte 0x01] = true →
    let owed := { c := c, on := !s.ch[c] } ::
      (channels.filter fun j => decide (j ≠ c) && s.ch[j]).map fun j => { c := j, on := false }
    s.txReady.starts (List.replicate (7 * owed.length) true) = true →
    ∃ t, run (10 + 8 * owed.length) s = .next t ∧
      t.pc = .idle ∧ t.inbound = s.inbound.drop 5 ∧ t.txReady = s.txReady.drop (7 * owed.length) ∧ t.eff = s.eff ∧
      (∀ j : Chan, t.ch[j] = if j = c then !s.ch[c] else false) ∧
      t.seq = s.seq + BitVec.ofNat 8 owed.length ∧
      t.trace = s.trace ++ [.rx 0x7B, .rx 0x03, .rx 0x04, .rx (chanNumber c), .rx 0x01] ++
        statusEvents s.seq owed ++
        (if s.ch[c] then [.setPower 0, .directChange]
          else [.setEffect s.eff[c], .setPower Config.powerOnLevel, .directChange])

/-! ### Checksum -/

/-- R190: CSUM8 is the sum of the bytes modulo 256, zero for no bytes, and does not depend on their order. -/
def Obligations.CsumIsTheSumModulo256 : Prop :=
  (∀ bytes : List Byte, (csum8 bytes).toNat = (bytes.map BitVec.toNat).sum % 256) ∧
  (∀ xs ys : List Byte, xs.Perm ys → csum8 xs = csum8 ys) ∧
  csum8 [] = 0

/-! ### Host operations -/

/-- R201, R202, R207: CFG_IMPORT completes in every state. Well-formed input becomes the effect table and success is
reported; malformed input sets all eight to 0, notes `E_CFG_MALFORMED` and reports failure; the request is served;
channel table, sequence counter, sequencer, buffer and streams are unchanged. That the ghost event stands before the
failure result is the model's choice (log 18), and so is that a failed import leaves `pc` as it is in every state (log
25). -/
def Obligations.ImportReplacesTheEffectTable : Prop :=
  ∀ (s : State) (v : Table Byte),
    exec (.cfgImport true v) s = .next { s with
      eff := v, hostq := s.hostq.tail, trace := s.trace ++ [.cfgResult true] } ∧
    exec (.cfgImport false v) s = .next { s with
      eff := #v[0, 0, 0, 0, 0, 0, 0, 0], hostq := s.hostq.tail,
      trace := s.trace ++ [.drop .cfgMalformed, .cfgResult false] }

/-- R203, R204, R205: CFG_EXPORT, STATUS_EXPORT and HOP.NONE complete in every state: the eight assignments in order, the
eight (channel number, assignment) pairs, nothing; no other state changes but the served request. -/
def Obligations.ExportsReportTheEffectTable : Prop :=
  ∀ s : State,
    exec .cfgExport s = .next { s with hostq := s.hostq.tail, trace := s.trace ++ [.cfgExport s.eff] } ∧
    exec .statusExport s = .next { s with hostq := s.hostq.tail, trace := s.trace ++ [.statusExport
      [(1, s.eff[0]), (2, s.eff[1]), (3, s.eff[2]), (4, s.eff[3]),
       (5, s.eff[4]), (6, s.eff[5]), (7, s.eff[6]), (8, s.eff[7])]] } ∧
    exec .hopNone s = .next { s with hostq := s.hostq.tail }

/-- R203, R205: through the port, an import of eight values followed by an export reports those values. -/
def Obligations.ImportThenExportIsTheIdentity : Prop :=
  ∀ (s : State) (v : Table Byte), s.pc = .idle → s.rst = .silent →
    s.hostq.starts [encodeHop (.cfgImport true v), encodeHop .cfgExport] = true →
    run 2 s = .next { s with eff := v, hostq := s.hostq.drop 2, trace := s.trace ++ [.cfgResult true, .cfgExport v] }

/-- R206 (the spec's decision D20): at IDLE a requested host operation is served, whatever the line holds, before any
byte is read; at every other position a request waits. -/
def Obligations.HostRequestsAreServedAtIdleFirst : Prop :=
  ∀ s t : State, rstAsserted s = false → step s = .next t →
    (s.pc ≠ .idle → t.hostq = s.hostq) ∧
    (s.pc = .idle → decodeHop (hostPort s) ≠ .hopNone →
      t.pc = .idle ∧ t.inbound = s.inbound ∧ t.hostq = s.hostq.tail ∧ t.ch = s.ch ∧ t.seq = s.seq)

/-- R23, R200, R36: the effect table changes only by a CFG_IMPORT at IDLE, or by reset. -/
def Obligations.EffectTableChangesOnlyByImport : Prop :=
  ∀ s t : State, step s = .next t → t.eff ≠ s.eff →
    rstAsserted s = true ∨ (s.pc = .idle ∧ (hostPort s).op = 0b01)

/-! ### The trace -/

/-- R15, R61, R81, R156, R176: a step only appends events, each kind at its position only: a byte is consumed and a read
expires only while a timed read is outstanding; a byte is sent only at TX with a byte outstanding; a host call is made
only at HOST and with exactly one change signal (in the same step: log 29); a condition is raised only by a step that ends at IDLE; an import or
export result is given only at IDLE, the export results being the effect table and its pairs. -/
def Obligations.EventsBelongToTheirPositions : Prop :=
  ∀ s t : State, step s = .next t → ∃ es : List Event, t.trace = s.trace ++ es ∧
    (∀ b, .rx b ∈ es → reading s = true ∧ s.inbound.head? = some (.byte b)) ∧
    (.rxNone ∈ es → reading s = true ∧ readNow s = .expired) ∧
    (∀ b, .tx b ∈ es → s.pc = .tx ∧ s.txBusy = true ∧ b = s.txf[s.txi]) ∧
    (∀ e, .setEffect e ∈ es → s.pc = .host ∧ e = s.eff[s.togC]) ∧
    (∀ p, .setPower p ∈ es → s.pc = .host ∧ (p = 0 ∨ p = Config.powerOnLevel)) ∧
    (s.pc = .host → rstAsserted s = false → es.count .directChange = 1) ∧
    (s.pc ≠ .host → .directChange ∉ es) ∧
    (∀ c, .drop c ∈ es → t.pc = .idle ∧ t.ch = s.ch ∧ t.seq = s.seq) ∧
    (∀ r, .cfgResult r ∈ es → s.pc = .idle) ∧
    (∀ v, .cfgExport v ∈ es → s.pc = .idle ∧ v = s.eff) ∧
    (∀ p, .statusExport p ∈ es → s.pc = .idle ∧ p = statusPairs s.eff)

/-! ### Reset and invariants -/

/-- R35, R261: the values the spec gives for reset: all channels off (R21), and, as its decisions D16, D17, D3, D18, D19,
the sequence counter, the effect table, the timer, the notifications and the position. -/
def Obligations.ResetHasTheStatedValues : Prop :=
  (∀ j : Chan, State.reset.ch[j] = false) ∧ State.reset.seq = 0x00 ∧ (∀ j : Chan, State.reset.eff[j] = 0) ∧
  State.reset.pc = .idle ∧ State.reset.tmr = 0 ∧ State.reset.nq = [] ∧ State.reset.trace = []

/-- R260, R261, R262, R263 (with the spec's decisions D16 to D19): reset at any position: the registers the spec gives a
value take it, no event is produced, and the transport's unread bytes and the host's requests stay. -/
def Obligations.ResetEndsAnyOperation : Prop :=
  ∀ s : State, rstAsserted s = true → ∃ t, step s = .next t ∧
    (∀ j : Chan, t.ch[j] = false) ∧ t.seq = s.cfg.seqReset ∧ (∀ j : Chan, t.eff[j] = 0) ∧
    t.pc = .idle ∧ t.tmr = 0 ∧ t.nq = [] ∧ t.trace = s.trace ∧ t.inbound = s.inbound ∧ t.txReady = s.txReady ∧
    t.hostq = s.hostq ∧ t.cfg = s.cfg

/-- The invariant holds after reset, whatever the parameters and the environment, and at the host's reset state. -/
def Obligations.InvariantHoldsAtReset : Prop :=
  Inv State.reset ∧ ∀ s : State, Inv s.resetRegs

/-- R34, R31, R26, R27, R109 to R111, R153, R159, R176: every step keeps the invariant. -/
def Obligations.InvariantIsKeptByEveryStep : Prop :=
  ∀ s t : State, Inv s → step s = .next t → Inv t

/-- R34: in every state reached from reset, with any parameters and any environment, at most one channel is on; and every
press re-establishes it whatever the state before. R34 says it of IDLE; that it holds at every position too rests on the
table being written in one step (log 20). -/
def Obligations.ReachableStatesHaveAtMostOneOn : Prop :=
  (∀ (e t : State) (n : Nat), run n e.resetRegs = .next t → AtMostOneOn t.ch) ∧
  (∀ (s t : State) (len : Byte) (c : Chan), exec (.swevPress len c) s = .next t → AtMostOneOn t.ch)

/-- R35, R113, R27, R30: the registers that reset leaves unspecified are unobservable, and so at IDLE are the timer, which
every read attempt reloads (R28), and the model's own latches and mark (log 2, log 3): two states at IDLE that differ in
these only give, after any number of steps, the same trace and the same channel table, sequence counter, effect table,
position and streams. -/
def Obligations.DeadRegistersAreUnobservable : Prop :=
  ∀ (s t : State) (n : Nat), s.pc = .idle → s.buf.wf = true → t.buf.wf = true → SameButDead s t →
    ∃ s' t', run n s = .next s' ∧ run n t = .next t' ∧ SameButDead s' t'

/-! ### Added after the review -/

/-- R112, the whole attempt: on any line whatever, a read attempt that stands at its start read ends, at IDLE or with a frame
handed over, and the time units that pass until then are at most `RX_TIMEOUT x (2 + L)`, one more `RX_TIMEOUT` when
`RX_CSUM_EN = 1`, with `L` the declared length. A tick counts one time unit (log 4); a gap, a withdrawn byte (log 5) or
silence that expires a read counts all that are left of its `RX_TIMEOUT` (R52). Until then the attempt is in progress at every
step. Where only start byte and length byte come, `RX_TIMEOUT x L` time units pass (vector A20). -/
def Obligations.BlockingIsBoundedOverAnAttempt : Prop :=
  ∀ s : State, s.pc = .rxStart → s.rst = .silent → s.tmr = 0 → 0 < s.cfg.rxTimeout →
    ∃ (n : Nat) (t : State), run n s = .next t ∧ (t.pc = .idle ∨ t.pc = .dispatch) ∧
      (∀ m u, m < n → run m s = .next u → attempting u.pc = true) ∧
      timeSpent n s ≤ s.cfg.rxTimeout * (2 + t.L.toNat + if s.cfg.rxCsumEn then 1 else 0) ∧
      (∀ len : Byte, s.inbound = .ofList [.byte 0x7B, .byte len] → s.cfg.rxCsumEn = false →
        timeSpent n s = s.cfg.rxTimeout * len.toNat)

/-- R61 (a), R172, R174, R175, R176: every step that no reset interrupts keeps the outbound stream a sequence of whole status
frames with consecutive sequence numbers from `q`, the last one possibly cut where the transport stands, with the sequence
counter at the next number; a step adds at most one frame, that of the front notification. -/
def Obligations.EveryStepKeepsTheOutboundStream : Prop :=
  ∀ (q : Byte) (ns : List Notif) (s t : State), rstAsserted s = false → step s = .next t →
    sent s ++ unsent s = frameBytes q ns → s.seq = q + BitVec.ofNat 8 ns.length →
    ∃ ns' : List Notif, (ns' = ns ∨ ∃ n, s.nq.head? = some n ∧ ns' = ns ++ [n]) ∧
      sent t ++ unsent t = frameBytes q ns' ∧ t.seq = q + BitVec.ofNat 8 ns'.length

/-- R171, R173: the frame built for channel index `c` in state `on` while the sequence counter holds `s.seq`. -/
def Obligations.FrameContentsAndChecksum : Prop :=
  ∀ (s : State) (c : Chan) (on : Bool), ∃ t, exec (.stat s.seq c on) s = .next t ∧
    let n : Byte := BitVec.ofNat 8 (c.val + 1)
    let st : Byte := if on then 0x01 else 0x00
    t.txf = #v[0x7B, 0x04, s.seq, 0x05, n, st, s.seq + 0x05 + n + st] ∧
    t.txf[6] = t.txf[2] + t.txf[3] + t.txf[4] + t.txf[5]

/-- R16, R260, R206: inputs that ask for nothing change nothing. If in the next `n` steps no reset is asserted and no sample
of the host port requests an operation, the run is the one with silent inputs, but for the samples taken: one of reset each
step, and of the host port at most as many. So what a statement says of silent inputs holds of inputs that go on, for ever
too (log 27). -/
def Obligations.QuietInputsChangeNothing : Prop :=
  ∀ (s : State) (n : Nat), NoReset n s →
    (∀ k, k < n → ∀ p, (s.hostq.drop k).head? = some p → decodeHop p = .hopNone) →
    ∃ (t : State) (m : Nat), m ≤ n ∧ run n { s with rst := .silent, hostq := .silent } = .next t ∧
      run n s = .next { t with rst := s.rst.drop n, hostq := s.hostq.drop m }
end

