-- ==== Sys2Proof/Laws/Decode.lean ====
section
/-!
SUPPORT. The small laws of the decoder's and encoder's parts: channel numbers, the payload reads, the checksum, the packing of
the host port.
-/
namespace Sys2Proof

/-! ### Channel numbers -/

@[simp] theorem chanNumber_toNat (c : Chan) : (chanNumber c).toNat = c.val + 1 := by
  simp only [chanNumber, BitVec.toNat_ofNat]
  have := c.isLt
  omega

@[simp] theorem chanOfNumber_chanNumber (c : Chan) : chanOfNumber (chanNumber c) = some c := by
  have h : 1 ≤ (chanNumber c).toNat ∧ (chanNumber c).toNat ≤ 8 := by
    rw [chanNumber_toNat]
    have := c.isLt
    omega
  rw [chanOfNumber, dif_pos h]
  simp

theorem chanOfNumber_eq_none {b : Byte} : chanOfNumber b = none ↔ channelInRange b = false := by
  simp only [chanOfNumber, channelInRange]
  split <;> simp_all

theorem chanOfNumber_eq_some {b : Byte} {c : Chan} : chanOfNumber b = some c ↔ b = chanNumber c := by
  refine ⟨fun h => ?_, fun h => h ▸ chanOfNumber_chanNumber c⟩
  simp only [chanOfNumber] at h
  split at h
  · next hb =>
    have hc : b.toNat - 1 = c.val := congrArg Fin.val (Option.some.inj h)
    apply BitVec.eq_of_toNat_eq
    rw [chanNumber_toNat]
    omega
  · cases h

/-! ### The checksum -/

@[simp] theorem csumOk_iff {bs : List Byte} {c : Byte} : csumOk bs c = true ↔ csum8 bs = c := by
  simp [csumOk]

theorem foldl_add_eq (bs : List Byte) (a : Byte) : bs.foldl (fun acc b => acc + b) a = a + csum8 bs := by
  induction bs generalizing a with
  | nil => simp [csum8]
  | cons b rest ih =>
    simp only [csum8, List.foldl_cons]
    rw [ih, ih (0 + b)]
    simp [BitVec.add_assoc]

@[simp] theorem csum8_nil : csum8 [] = 0 := rfl

@[simp] theorem csum8_cons (b : Byte) (bs : List Byte) : csum8 (b :: bs) = b + csum8 bs := by
  rw [csum8, List.foldl_cons, foldl_add_eq]
  simp

@[simp] theorem csum8_append (xs ys : List Byte) : csum8 (xs ++ ys) = csum8 xs + csum8 ys := by
  induction xs with
  | nil => simp
  | cons b rest ih => simp [ih, BitVec.add_assoc]

/-! ### The payload reads -/

@[simp] theorem takePayload_length (sentinel : Byte) (n : Nat) (reads : List (Option Byte)) :
    (takePayload sentinel n reads).1.length = n := by
  induction n generalizing reads with
  | zero => rfl
  | succ n ih => cases reads <;> simp [takePayload, ih]

/-- The reads left over are those after the payload. -/
theorem takePayload_rest (sentinel : Byte) (n : Nat) (reads : List (Option Byte)) :
    (takePayload sentinel n reads).2 = reads.drop n := by
  induction n generalizing reads with
  | zero => rfl
  | succ n ih => cases reads <;> simp [takePayload, ih]

/-- A payload byte is what its read returned, the sentinel if it expired. -/
theorem takePayload_getD (sentinel : Byte) (n : Nat) (reads : List (Option Byte)) (k : Nat) (hk : k < n) (d : Byte) :
    (takePayload sentinel n reads).1.getD k d = (reads.getD k none).getD sentinel := by
  induction n generalizing reads k with
  | zero => omega
  | succ n ih =>
    cases reads with
    | nil =>
      cases k with
      | zero => rfl
      | succ k => simpa [takePayload] using ih [] k (by omega)
    | cons r rest =>
      cases k with
      | zero => rfl
      | succ k => simpa [takePayload] using ih rest k (by omega)

/-- A payload whose reads all return is taken as it is. -/
@[simp] theorem takePayload_map_some (sentinel : Byte) (p : List Byte) (tail : List (Option Byte)) :
    takePayload sentinel p.length (p.map some ++ tail) = (p, tail) := by
  induction p with
  | nil => rfl
  | cons b rest ih => simp [takePayload, ih]

/-! ### The encoder's parts -/

theorem fieldPayload_length {cfg : Config} {len cmd chan status : Byte} (h : cfg.decBase + 3 ≤ len.toNat) :
    (fieldPayload cfg len cmd chan status).length = len.toNat := by
  simp [fieldPayload]
  omega

/-- The three fields stand at `DEC_BASE`, `DEC_BASE + 1` and `DEC_BASE + 2` (R131). -/
theorem fieldPayload_field (cfg : Config) (len cmd chan status d : Byte) :
    (fieldPayload cfg len cmd chan status).getD cfg.decBase d = cmd ∧
    (fieldPayload cfg len cmd chan status).getD (cfg.decBase + 1) d = chan ∧
    (fieldPayload cfg len cmd chan status).getD (cfg.decBase + 2) d = status := by
  have h : ∀ k, k < 3 → (fieldPayload cfg len cmd chan status).getD (cfg.decBase + k) d =
      [cmd, chan, status].getD k d := by
    intro k hk
    rw [fieldPayload, List.append_assoc, List.getD_append_right _ _ _ _ (by simp)]
    rw [List.length_replicate, Nat.add_sub_cancel_left, List.getD_append _ _ _ _ (by simpa using hk)]
  exact ⟨h 0 (by omega), h 1 (by omega), h 2 (by omega)⟩

/-- Splitting what was joined gives the table back. -/
theorem unpack_pack (v : Table Byte) : unpackTable (packTable v) = v := by
  have hl : v.toList = [v[0], v[1], v[2], v[3], v[4], v[5], v[6], v[7]] := by
    apply List.ext_getElem
    · simp
    · intro i h1 h2
      simp only [Vector.length_toList] at h1
      interval_cases i <;> simp
  have b0 := v[0].isLt
  have b1 := v[1].isLt
  have b2 := v[2].isLt
  have b3 := v[3].isLt
  have b4 := v[4].isLt
  have b5 := v[5].isLt
  have b6 := v[6].isLt
  have b7 := v[7].isLt
  apply Vector.ext
  intro i hi
  simp only [unpackTable, Vector.getElem_ofFn, packTable, hl, List.foldr]
  apply BitVec.eq_of_toNat_eq
  simp only [BitVec.extractLsb'_toNat, BitVec.toNat_ofNat, Nat.shiftRight_eq_div_pow]
  interval_cases i <;> simp only [Nat.mul_zero, Nat.mul_one, Nat.reduceMul, Nat.reducePow] at * <;> omega

end Sys2Proof
end

