-- ==== Sys2Proof/Laws/State.lean ====
section
/-!
SUPPORT. What each named update of the state does to each field, so that no proof unfolds a record update.
-/
namespace Sys2Proof.Machine

@[simp] theorem State.emit_cfg (s : State) (es : List Event) : (s.emit es).cfg = s.cfg := rfl
@[simp] theorem State.emit_ch (s : State) (es : List Event) : (s.emit es).ch = s.ch := rfl
@[simp] theorem State.emit_seq (s : State) (es : List Event) : (s.emit es).seq = s.seq := rfl
@[simp] theorem State.emit_eff (s : State) (es : List Event) : (s.emit es).eff = s.eff := rfl
@[simp] theorem State.emit_pc (s : State) (es : List Event) : (s.emit es).pc = s.pc := rfl
@[simp] theorem State.emit_L (s : State) (es : List Event) : (s.emit es).L = s.L := rfl
@[simp] theorem State.emit_cnt (s : State) (es : List Event) : (s.emit es).cnt = s.cnt := rfl
@[simp] theorem State.emit_racc (s : State) (es : List Event) : (s.emit es).racc = s.racc := rfl
@[simp] theorem State.emit_buf (s : State) (es : List Event) : (s.emit es).buf = s.buf := rfl
@[simp] theorem State.emit_tmr (s : State) (es : List Event) : (s.emit es).tmr = s.tmr := rfl
@[simp] theorem State.emit_txf (s : State) (es : List Event) : (s.emit es).txf = s.txf := rfl
@[simp] theorem State.emit_txi (s : State) (es : List Event) : (s.emit es).txi = s.txi := rfl
@[simp] theorem State.emit_nq (s : State) (es : List Event) : (s.emit es).nq = s.nq := rfl
@[simp] theorem State.emit_togC (s : State) (es : List Event) : (s.emit es).togC = s.togC := rfl
@[simp] theorem State.emit_togOn (s : State) (es : List Event) : (s.emit es).togOn = s.togOn := rfl
@[simp] theorem State.emit_txBusy (s : State) (es : List Event) : (s.emit es).txBusy = s.txBusy := rfl
@[simp] theorem State.emit_inbound (s : State) (es : List Event) : (s.emit es).inbound = s.inbound := rfl
@[simp] theorem State.emit_txReady (s : State) (es : List Event) : (s.emit es).txReady = s.txReady := rfl
@[simp] theorem State.emit_hostq (s : State) (es : List Event) : (s.emit es).hostq = s.hostq := rfl
@[simp] theorem State.emit_rst (s : State) (es : List Event) : (s.emit es).rst = s.rst := rfl
@[simp] theorem State.emit_trace (s : State) (es : List Event) : (s.emit es).trace = s.trace ++ es := rfl

@[simp] theorem State.goto_cfg (s : State) (p : Pos) : (s.goto p).cfg = s.cfg := rfl
@[simp] theorem State.goto_ch (s : State) (p : Pos) : (s.goto p).ch = s.ch := rfl
@[simp] theorem State.goto_seq (s : State) (p : Pos) : (s.goto p).seq = s.seq := rfl
@[simp] theorem State.goto_eff (s : State) (p : Pos) : (s.goto p).eff = s.eff := rfl
@[simp] theorem State.goto_pc (s : State) (p : Pos) : (s.goto p).pc = p := rfl
@[simp] theorem State.goto_L (s : State) (p : Pos) : (s.goto p).L = s.L := rfl
@[simp] theorem State.goto_cnt (s : State) (p : Pos) : (s.goto p).cnt = s.cnt := rfl
@[simp] theorem State.goto_racc (s : State) (p : Pos) : (s.goto p).racc = s.racc := rfl
@[simp] theorem State.goto_buf (s : State) (p : Pos) : (s.goto p).buf = s.buf := rfl
@[simp] theorem State.goto_tmr (s : State) (p : Pos) : (s.goto p).tmr = s.tmr := rfl
@[simp] theorem State.goto_txf (s : State) (p : Pos) : (s.goto p).txf = s.txf := rfl
@[simp] theorem State.goto_txi (s : State) (p : Pos) : (s.goto p).txi = s.txi := rfl
@[simp] theorem State.goto_nq (s : State) (p : Pos) : (s.goto p).nq = s.nq := rfl
@[simp] theorem State.goto_togC (s : State) (p : Pos) : (s.goto p).togC = s.togC := rfl
@[simp] theorem State.goto_togOn (s : State) (p : Pos) : (s.goto p).togOn = s.togOn := rfl
@[simp] theorem State.goto_txBusy (s : State) (p : Pos) : (s.goto p).txBusy = s.txBusy := rfl
@[simp] theorem State.goto_inbound (s : State) (p : Pos) : (s.goto p).inbound = s.inbound := rfl
@[simp] theorem State.goto_txReady (s : State) (p : Pos) : (s.goto p).txReady = s.txReady := rfl
@[simp] theorem State.goto_hostq (s : State) (p : Pos) : (s.goto p).hostq = s.hostq := rfl
@[simp] theorem State.goto_rst (s : State) (p : Pos) : (s.goto p).rst = s.rst := rfl
@[simp] theorem State.goto_trace (s : State) (p : Pos) : (s.goto p).trace = s.trace := rfl

@[simp] theorem State.takeByte_cfg (s : State) (b : Byte) : (s.takeByte b).cfg = s.cfg := rfl
@[simp] theorem State.takeByte_ch (s : State) (b : Byte) : (s.takeByte b).ch = s.ch := rfl
@[simp] theorem State.takeByte_seq (s : State) (b : Byte) : (s.takeByte b).seq = s.seq := rfl
@[simp] theorem State.takeByte_eff (s : State) (b : Byte) : (s.takeByte b).eff = s.eff := rfl
@[simp] theorem State.takeByte_pc (s : State) (b : Byte) : (s.takeByte b).pc = s.pc := rfl
@[simp] theorem State.takeByte_L (s : State) (b : Byte) : (s.takeByte b).L = s.L := rfl
@[simp] theorem State.takeByte_cnt (s : State) (b : Byte) : (s.takeByte b).cnt = s.cnt := rfl
@[simp] theorem State.takeByte_racc (s : State) (b : Byte) : (s.takeByte b).racc = s.racc := rfl
@[simp] theorem State.takeByte_buf (s : State) (b : Byte) : (s.takeByte b).buf = s.buf := rfl
@[simp] theorem State.takeByte_tmr (s : State) (b : Byte) : (s.takeByte b).tmr = 0 := rfl
@[simp] theorem State.takeByte_txf (s : State) (b : Byte) : (s.takeByte b).txf = s.txf := rfl
@[simp] theorem State.takeByte_txi (s : State) (b : Byte) : (s.takeByte b).txi = s.txi := rfl
@[simp] theorem State.takeByte_nq (s : State) (b : Byte) : (s.takeByte b).nq = s.nq := rfl
@[simp] theorem State.takeByte_togC (s : State) (b : Byte) : (s.takeByte b).togC = s.togC := rfl
@[simp] theorem State.takeByte_togOn (s : State) (b : Byte) : (s.takeByte b).togOn = s.togOn := rfl
@[simp] theorem State.takeByte_txBusy (s : State) (b : Byte) : (s.takeByte b).txBusy = s.txBusy := rfl
@[simp] theorem State.takeByte_inbound (s : State) (b : Byte) : (s.takeByte b).inbound = s.inbound.tail := rfl
@[simp] theorem State.takeByte_txReady (s : State) (b : Byte) : (s.takeByte b).txReady = s.txReady := rfl
@[simp] theorem State.takeByte_hostq (s : State) (b : Byte) : (s.takeByte b).hostq = s.hostq := rfl
@[simp] theorem State.takeByte_rst (s : State) (b : Byte) : (s.takeByte b).rst = s.rst := rfl
@[simp] theorem State.takeByte_trace (s : State) (b : Byte) : (s.takeByte b).trace = s.trace ++ [.rx b] := rfl

@[simp] theorem State.expireRead_cfg (s : State) : (s.expireRead).cfg = s.cfg := rfl
@[simp] theorem State.expireRead_ch (s : State) : (s.expireRead).ch = s.ch := rfl
@[simp] theorem State.expireRead_seq (s : State) : (s.expireRead).seq = s.seq := rfl
@[simp] theorem State.expireRead_eff (s : State) : (s.expireRead).eff = s.eff := rfl
@[simp] theorem State.expireRead_pc (s : State) : (s.expireRead).pc = s.pc := rfl
@[simp] theorem State.expireRead_L (s : State) : (s.expireRead).L = s.L := rfl
@[simp] theorem State.expireRead_cnt (s : State) : (s.expireRead).cnt = s.cnt := rfl
@[simp] theorem State.expireRead_racc (s : State) : (s.expireRead).racc = s.racc := rfl
@[simp] theorem State.expireRead_buf (s : State) : (s.expireRead).buf = s.buf := rfl
@[simp] theorem State.expireRead_tmr (s : State) : (s.expireRead).tmr = 0 := rfl
@[simp] theorem State.expireRead_txf (s : State) : (s.expireRead).txf = s.txf := rfl
@[simp] theorem State.expireRead_txi (s : State) : (s.expireRead).txi = s.txi := rfl
@[simp] theorem State.expireRead_nq (s : State) : (s.expireRead).nq = s.nq := rfl
@[simp] theorem State.expireRead_togC (s : State) : (s.expireRead).togC = s.togC := rfl
@[simp] theorem State.expireRead_togOn (s : State) : (s.expireRead).togOn = s.togOn := rfl
@[simp] theorem State.expireRead_txBusy (s : State) : (s.expireRead).txBusy = s.txBusy := rfl
@[simp] theorem State.expireRead_inbound (s : State) : (s.expireRead).inbound = s.inbound.tail := rfl
@[simp] theorem State.expireRead_txReady (s : State) : (s.expireRead).txReady = s.txReady := rfl
@[simp] theorem State.expireRead_hostq (s : State) : (s.expireRead).hostq = s.hostq := rfl
@[simp] theorem State.expireRead_rst (s : State) : (s.expireRead).rst = s.rst := rfl
@[simp] theorem State.expireRead_trace (s : State) : (s.expireRead).trace = s.trace ++ [.rxNone] := rfl

@[simp] theorem State.tickOn_cfg (s : State) : (s.tickOn).cfg = s.cfg := rfl
@[simp] theorem State.tickOn_ch (s : State) : (s.tickOn).ch = s.ch := rfl
@[simp] theorem State.tickOn_seq (s : State) : (s.tickOn).seq = s.seq := rfl
@[simp] theorem State.tickOn_eff (s : State) : (s.tickOn).eff = s.eff := rfl
@[simp] theorem State.tickOn_pc (s : State) : (s.tickOn).pc = s.pc := rfl
@[simp] theorem State.tickOn_L (s : State) : (s.tickOn).L = s.L := rfl
@[simp] theorem State.tickOn_cnt (s : State) : (s.tickOn).cnt = s.cnt := rfl
@[simp] theorem State.tickOn_racc (s : State) : (s.tickOn).racc = s.racc := rfl
@[simp] theorem State.tickOn_buf (s : State) : (s.tickOn).buf = s.buf := rfl
@[simp] theorem State.tickOn_tmr (s : State) : (s.tickOn).tmr = s.tmr + 1 := rfl
@[simp] theorem State.tickOn_txf (s : State) : (s.tickOn).txf = s.txf := rfl
@[simp] theorem State.tickOn_txi (s : State) : (s.tickOn).txi = s.txi := rfl
@[simp] theorem State.tickOn_nq (s : State) : (s.tickOn).nq = s.nq := rfl
@[simp] theorem State.tickOn_togC (s : State) : (s.tickOn).togC = s.togC := rfl
@[simp] theorem State.tickOn_togOn (s : State) : (s.tickOn).togOn = s.togOn := rfl
@[simp] theorem State.tickOn_txBusy (s : State) : (s.tickOn).txBusy = s.txBusy := rfl
@[simp] theorem State.tickOn_inbound (s : State) : (s.tickOn).inbound = s.inbound.tail := rfl
@[simp] theorem State.tickOn_txReady (s : State) : (s.tickOn).txReady = s.txReady := rfl
@[simp] theorem State.tickOn_hostq (s : State) : (s.tickOn).hostq = s.hostq := rfl
@[simp] theorem State.tickOn_rst (s : State) : (s.tickOn).rst = s.rst := rfl
@[simp] theorem State.tickOn_trace (s : State) : (s.tickOn).trace = s.trace := rfl

@[simp] theorem State.passTime_cfg (s : State) : (s.passTime).cfg = s.cfg := rfl
@[simp] theorem State.passTime_ch (s : State) : (s.passTime).ch = s.ch := rfl
@[simp] theorem State.passTime_seq (s : State) : (s.passTime).seq = s.seq := rfl
@[simp] theorem State.passTime_eff (s : State) : (s.passTime).eff = s.eff := rfl
@[simp] theorem State.passTime_pc (s : State) : (s.passTime).pc = s.pc := rfl
@[simp] theorem State.passTime_L (s : State) : (s.passTime).L = s.L := rfl
@[simp] theorem State.passTime_cnt (s : State) : (s.passTime).cnt = s.cnt := rfl
@[simp] theorem State.passTime_racc (s : State) : (s.passTime).racc = s.racc := rfl
@[simp] theorem State.passTime_buf (s : State) : (s.passTime).buf = s.buf := rfl
@[simp] theorem State.passTime_tmr (s : State) : (s.passTime).tmr = s.tmr := rfl
@[simp] theorem State.passTime_txf (s : State) : (s.passTime).txf = s.txf := rfl
@[simp] theorem State.passTime_txi (s : State) : (s.passTime).txi = s.txi := rfl
@[simp] theorem State.passTime_nq (s : State) : (s.passTime).nq = s.nq := rfl
@[simp] theorem State.passTime_togC (s : State) : (s.passTime).togC = s.togC := rfl
@[simp] theorem State.passTime_togOn (s : State) : (s.passTime).togOn = s.togOn := rfl
@[simp] theorem State.passTime_txBusy (s : State) : (s.passTime).txBusy = s.txBusy := rfl
@[simp] theorem State.passTime_inbound (s : State) : (s.passTime).inbound = s.inbound.tail := rfl
@[simp] theorem State.passTime_txReady (s : State) : (s.passTime).txReady = s.txReady := rfl
@[simp] theorem State.passTime_hostq (s : State) : (s.passTime).hostq = s.hostq := rfl
@[simp] theorem State.passTime_rst (s : State) : (s.passTime).rst = s.rst := rfl
@[simp] theorem State.passTime_trace (s : State) : (s.passTime).trace = s.trace := rfl

@[simp] theorem State.hostDone_cfg (s : State) : (s.hostDone).cfg = s.cfg := rfl
@[simp] theorem State.hostDone_ch (s : State) : (s.hostDone).ch = s.ch := rfl
@[simp] theorem State.hostDone_seq (s : State) : (s.hostDone).seq = s.seq := rfl
@[simp] theorem State.hostDone_eff (s : State) : (s.hostDone).eff = s.eff := rfl
@[simp] theorem State.hostDone_pc (s : State) : (s.hostDone).pc = s.pc := rfl
@[simp] theorem State.hostDone_L (s : State) : (s.hostDone).L = s.L := rfl
@[simp] theorem State.hostDone_cnt (s : State) : (s.hostDone).cnt = s.cnt := rfl
@[simp] theorem State.hostDone_racc (s : State) : (s.hostDone).racc = s.racc := rfl
@[simp] theorem State.hostDone_buf (s : State) : (s.hostDone).buf = s.buf := rfl
@[simp] theorem State.hostDone_tmr (s : State) : (s.hostDone).tmr = s.tmr := rfl
@[simp] theorem State.hostDone_txf (s : State) : (s.hostDone).txf = s.txf := rfl
@[simp] theorem State.hostDone_txi (s : State) : (s.hostDone).txi = s.txi := rfl
@[simp] theorem State.hostDone_nq (s : State) : (s.hostDone).nq = s.nq := rfl
@[simp] theorem State.hostDone_togC (s : State) : (s.hostDone).togC = s.togC := rfl
@[simp] theorem State.hostDone_togOn (s : State) : (s.hostDone).togOn = s.togOn := rfl
@[simp] theorem State.hostDone_txBusy (s : State) : (s.hostDone).txBusy = s.txBusy := rfl
@[simp] theorem State.hostDone_inbound (s : State) : (s.hostDone).inbound = s.inbound := rfl
@[simp] theorem State.hostDone_txReady (s : State) : (s.hostDone).txReady = s.txReady := rfl
@[simp] theorem State.hostDone_hostq (s : State) : (s.hostDone).hostq = s.hostq.tail := rfl
@[simp] theorem State.hostDone_rst (s : State) : (s.hostDone).rst = s.rst := rfl
@[simp] theorem State.hostDone_trace (s : State) : (s.hostDone).trace = s.trace := rfl

@[simp] theorem State.sampleRst_cfg (s : State) : (s.sampleRst).cfg = s.cfg := rfl
@[simp] theorem State.sampleRst_ch (s : State) : (s.sampleRst).ch = s.ch := rfl
@[simp] theorem State.sampleRst_seq (s : State) : (s.sampleRst).seq = s.seq := rfl
@[simp] theorem State.sampleRst_eff (s : State) : (s.sampleRst).eff = s.eff := rfl
@[simp] theorem State.sampleRst_pc (s : State) : (s.sampleRst).pc = s.pc := rfl
@[simp] theorem State.sampleRst_L (s : State) : (s.sampleRst).L = s.L := rfl
@[simp] theorem State.sampleRst_cnt (s : State) : (s.sampleRst).cnt = s.cnt := rfl
@[simp] theorem State.sampleRst_racc (s : State) : (s.sampleRst).racc = s.racc := rfl
@[simp] theorem State.sampleRst_buf (s : State) : (s.sampleRst).buf = s.buf := rfl
@[simp] theorem State.sampleRst_tmr (s : State) : (s.sampleRst).tmr = s.tmr := rfl
@[simp] theorem State.sampleRst_txf (s : State) : (s.sampleRst).txf = s.txf := rfl
@[simp] theorem State.sampleRst_txi (s : State) : (s.sampleRst).txi = s.txi := rfl
@[simp] theorem State.sampleRst_nq (s : State) : (s.sampleRst).nq = s.nq := rfl
@[simp] theorem State.sampleRst_togC (s : State) : (s.sampleRst).togC = s.togC := rfl
@[simp] theorem State.sampleRst_togOn (s : State) : (s.sampleRst).togOn = s.togOn := rfl
@[simp] theorem State.sampleRst_txBusy (s : State) : (s.sampleRst).txBusy = s.txBusy := rfl
@[simp] theorem State.sampleRst_inbound (s : State) : (s.sampleRst).inbound = s.inbound := rfl
@[simp] theorem State.sampleRst_txReady (s : State) : (s.sampleRst).txReady = s.txReady := rfl
@[simp] theorem State.sampleRst_hostq (s : State) : (s.sampleRst).hostq = s.hostq := rfl
@[simp] theorem State.sampleRst_rst (s : State) : (s.sampleRst).rst = s.rst.tail := rfl
@[simp] theorem State.sampleRst_trace (s : State) : (s.sampleRst).trace = s.trace := rfl

@[simp] theorem State.note_cfg (s : State) (c : Cond) : (s.note c).cfg = s.cfg := rfl
@[simp] theorem State.note_ch (s : State) (c : Cond) : (s.note c).ch = s.ch := rfl
@[simp] theorem State.note_seq (s : State) (c : Cond) : (s.note c).seq = s.seq := rfl
@[simp] theorem State.note_eff (s : State) (c : Cond) : (s.note c).eff = s.eff := rfl
@[simp] theorem State.note_pc (s : State) (c : Cond) : (s.note c).pc = s.pc := rfl
@[simp] theorem State.note_L (s : State) (c : Cond) : (s.note c).L = s.L := rfl
@[simp] theorem State.note_cnt (s : State) (c : Cond) : (s.note c).cnt = s.cnt := rfl
@[simp] theorem State.note_racc (s : State) (c : Cond) : (s.note c).racc = s.racc := rfl
@[simp] theorem State.note_buf (s : State) (c : Cond) : (s.note c).buf = s.buf := rfl
@[simp] theorem State.note_tmr (s : State) (c : Cond) : (s.note c).tmr = s.tmr := rfl
@[simp] theorem State.note_txf (s : State) (c : Cond) : (s.note c).txf = s.txf := rfl
@[simp] theorem State.note_txi (s : State) (c : Cond) : (s.note c).txi = s.txi := rfl
@[simp] theorem State.note_nq (s : State) (c : Cond) : (s.note c).nq = s.nq := rfl
@[simp] theorem State.note_togC (s : State) (c : Cond) : (s.note c).togC = s.togC := rfl
@[simp] theorem State.note_togOn (s : State) (c : Cond) : (s.note c).togOn = s.togOn := rfl
@[simp] theorem State.note_txBusy (s : State) (c : Cond) : (s.note c).txBusy = s.txBusy := rfl
@[simp] theorem State.note_inbound (s : State) (c : Cond) : (s.note c).inbound = s.inbound := rfl
@[simp] theorem State.note_txReady (s : State) (c : Cond) : (s.note c).txReady = s.txReady := rfl
@[simp] theorem State.note_hostq (s : State) (c : Cond) : (s.note c).hostq = s.hostq := rfl
@[simp] theorem State.note_rst (s : State) (c : Cond) : (s.note c).rst = s.rst := rfl
@[simp] theorem State.note_trace (s : State) (c : Cond) : (s.note c).trace = s.trace ++ [.drop c] := rfl

@[simp] theorem raise_cfg (s : State) (c : Cond) : (raise s c).cfg = s.cfg := rfl
@[simp] theorem raise_ch (s : State) (c : Cond) : (raise s c).ch = s.ch := rfl
@[simp] theorem raise_seq (s : State) (c : Cond) : (raise s c).seq = s.seq := rfl
@[simp] theorem raise_eff (s : State) (c : Cond) : (raise s c).eff = s.eff := rfl
@[simp] theorem raise_pc (s : State) (c : Cond) : (raise s c).pc = .idle := rfl
@[simp] theorem raise_L (s : State) (c : Cond) : (raise s c).L = s.L := rfl
@[simp] theorem raise_cnt (s : State) (c : Cond) : (raise s c).cnt = s.cnt := rfl
@[simp] theorem raise_racc (s : State) (c : Cond) : (raise s c).racc = s.racc := rfl
@[simp] theorem raise_buf (s : State) (c : Cond) : (raise s c).buf = s.buf := rfl
@[simp] theorem raise_tmr (s : State) (c : Cond) : (raise s c).tmr = s.tmr := rfl
@[simp] theorem raise_txf (s : State) (c : Cond) : (raise s c).txf = s.txf := rfl
@[simp] theorem raise_txi (s : State) (c : Cond) : (raise s c).txi = s.txi := rfl
@[simp] theorem raise_nq (s : State) (c : Cond) : (raise s c).nq = s.nq := rfl
@[simp] theorem raise_togC (s : State) (c : Cond) : (raise s c).togC = s.togC := rfl
@[simp] theorem raise_togOn (s : State) (c : Cond) : (raise s c).togOn = s.togOn := rfl
@[simp] theorem raise_txBusy (s : State) (c : Cond) : (raise s c).txBusy = s.txBusy := rfl
@[simp] theorem raise_inbound (s : State) (c : Cond) : (raise s c).inbound = s.inbound := rfl
@[simp] theorem raise_txReady (s : State) (c : Cond) : (raise s c).txReady = s.txReady := rfl
@[simp] theorem raise_hostq (s : State) (c : Cond) : (raise s c).hostq = s.hostq := rfl
@[simp] theorem raise_rst (s : State) (c : Cond) : (raise s c).rst = s.rst := rfl
@[simp] theorem raise_trace (s : State) (c : Cond) : (raise s c).trace = s.trace ++ [.drop c] := rfl

@[simp] theorem State.resetRegs_cfg (s : State) : (s.resetRegs).cfg = s.cfg := rfl
@[simp] theorem State.resetRegs_ch (s : State) : (s.resetRegs).ch = Vector.replicate 8 false := rfl
@[simp] theorem State.resetRegs_seq (s : State) : (s.resetRegs).seq = s.cfg.seqReset := rfl
@[simp] theorem State.resetRegs_eff (s : State) : (s.resetRegs).eff = Vector.replicate 8 effectDefault := rfl
@[simp] theorem State.resetRegs_pc (s : State) : (s.resetRegs).pc = .idle := rfl
@[simp] theorem State.resetRegs_L (s : State) : (s.resetRegs).L = 0 := rfl
@[simp] theorem State.resetRegs_cnt (s : State) : (s.resetRegs).cnt = 0 := rfl
@[simp] theorem State.resetRegs_racc (s : State) : (s.resetRegs).racc = 0 := rfl
@[simp] theorem State.resetRegs_buf (s : State) : (s.resetRegs).buf = [] := rfl
@[simp] theorem State.resetRegs_tmr (s : State) : (s.resetRegs).tmr = 0 := rfl
@[simp] theorem State.resetRegs_txf (s : State) : (s.resetRegs).txf = Vector.replicate 7 0 := rfl
@[simp] theorem State.resetRegs_txi (s : State) : (s.resetRegs).txi = 0 := rfl
@[simp] theorem State.resetRegs_nq (s : State) : (s.resetRegs).nq = [] := rfl
@[simp] theorem State.resetRegs_togC (s : State) : (s.resetRegs).togC = 0 := rfl
@[simp] theorem State.resetRegs_togOn (s : State) : (s.resetRegs).togOn = false := rfl
@[simp] theorem State.resetRegs_txBusy (s : State) : (s.resetRegs).txBusy = false := rfl
@[simp] theorem State.resetRegs_inbound (s : State) : (s.resetRegs).inbound = s.inbound := rfl
@[simp] theorem State.resetRegs_txReady (s : State) : (s.resetRegs).txReady = s.txReady := rfl
@[simp] theorem State.resetRegs_hostq (s : State) : (s.resetRegs).hostq = s.hostq := rfl
@[simp] theorem State.resetRegs_rst (s : State) : (s.resetRegs).rst = s.rst := rfl
@[simp] theorem State.resetRegs_trace (s : State) : (s.resetRegs).trace = s.trace := rfl

/-- After a byte only `txi` and the mark of an outstanding byte differ. -/
theorem State.advanceTx_eq (s : State) : s.advanceTx = { s with
    txi := if s.txi = 6 then s.txi else s.txi + 1
    txBusy := if s.txi = 6 then false else s.txBusy } := by
  unfold State.advanceTx
  split <;> rfl

@[simp] theorem State.advanceTx_cfg (s : State) : s.advanceTx.cfg = s.cfg := by rw [State.advanceTx_eq]
@[simp] theorem State.advanceTx_ch (s : State) : s.advanceTx.ch = s.ch := by rw [State.advanceTx_eq]
@[simp] theorem State.advanceTx_seq (s : State) : s.advanceTx.seq = s.seq := by rw [State.advanceTx_eq]
@[simp] theorem State.advanceTx_eff (s : State) : s.advanceTx.eff = s.eff := by rw [State.advanceTx_eq]
@[simp] theorem State.advanceTx_pc (s : State) : s.advanceTx.pc = s.pc := by rw [State.advanceTx_eq]
@[simp] theorem State.advanceTx_L (s : State) : s.advanceTx.L = s.L := by rw [State.advanceTx_eq]
@[simp] theorem State.advanceTx_cnt (s : State) : s.advanceTx.cnt = s.cnt := by rw [State.advanceTx_eq]
@[simp] theorem State.advanceTx_racc (s : State) : s.advanceTx.racc = s.racc := by rw [State.advanceTx_eq]
@[simp] theorem State.advanceTx_buf (s : State) : s.advanceTx.buf = s.buf := by rw [State.advanceTx_eq]
@[simp] theorem State.advanceTx_tmr (s : State) : s.advanceTx.tmr = s.tmr := by rw [State.advanceTx_eq]
@[simp] theorem State.advanceTx_txf (s : State) : s.advanceTx.txf = s.txf := by rw [State.advanceTx_eq]
@[simp] theorem State.advanceTx_nq (s : State) : s.advanceTx.nq = s.nq := by rw [State.advanceTx_eq]
@[simp] theorem State.advanceTx_togC (s : State) : s.advanceTx.togC = s.togC := by rw [State.advanceTx_eq]
@[simp] theorem State.advanceTx_togOn (s : State) : s.advanceTx.togOn = s.togOn := by rw [State.advanceTx_eq]
@[simp] theorem State.advanceTx_inbound (s : State) : s.advanceTx.inbound = s.inbound := by rw [State.advanceTx_eq]
@[simp] theorem State.advanceTx_txReady (s : State) : s.advanceTx.txReady = s.txReady := by rw [State.advanceTx_eq]
@[simp] theorem State.advanceTx_hostq (s : State) : s.advanceTx.hostq = s.hostq := by rw [State.advanceTx_eq]
@[simp] theorem State.advanceTx_rst (s : State) : s.advanceTx.rst = s.rst := by rw [State.advanceTx_eq]
@[simp] theorem State.advanceTx_trace (s : State) : s.advanceTx.trace = s.trace := by rw [State.advanceTx_eq]

/-- With a silent reset input, sampling it changes nothing. -/
theorem State.sampleRst_of_silent {s : State} (h : s.rst = Feed.silent) : s.sampleRst = s := by
  cases s
  cases h
  rfl

theorem rstAsserted_of_silent {s : State} (h : s.rst = Feed.silent) : rstAsserted s = false := by
  rw [rstAsserted, h]
  rfl

/-- Reset is asserted exactly where the next sample of the input says so. -/
theorem rstAsserted_eq_true {s : State} : rstAsserted s = true ↔ s.rst.head? = some true := by
  unfold rstAsserted
  cases s.rst.head? <;> simp

/-! ### Continuing an outcome -/

@[simp] theorem andThen_next (s : State) (f : State → Result) : andThen (.next s) f = f s := rfl

theorem andThen_eq_next {o : Result} {f : State → Result} {t : State} (h : andThen o f = .next t) :
    ∃ s, o = .next s ∧ f s = .next t := by
  cases o with
  | next s => exact ⟨s, rfl, h⟩
  | fault r => cases h
  | refused r => cases h

end Sys2Proof.Machine
end

