-- ==== Sys2Proof/Laws/Memory.lean ====
section
/-!
SUPPORT. The frame buffer: a read after a write, the canonical form, and the bound on listed indices.
-/
namespace Sys2Proof.Machine

@[simp] theorem Memory.read_nil (a : Nat) : Memory.read [] a = Memory.unlisted := rfl

@[simp] theorem Memory.read_cons (k : Nat) (v : Byte) (m : Memory) (a : Nat) :
    Memory.read ((k, v) :: m) a = if k = a then v else m.read a := rfl

/-- Below the first index of a canonical list nothing is listed. -/
theorem Memory.read_of_lt {m : Memory} {lo a : Nat} (h : m.wfFrom lo = true) (ha : a < lo) :
    m.read a = Memory.unlisted := by
  induction m generalizing lo with
  | nil => rfl
  | cons c rest ih =>
    obtain ⟨k, v⟩ := c
    simp only [Memory.wfFrom, Bool.and_eq_true, decide_eq_true_eq] at h
    have hk : k ≠ a := by omega
    rw [Memory.read_cons, if_neg hk]
    exact ih h.2 (by omega)

theorem Memory.read_put {m : Memory} {lo a : Nat} (h : m.wfFrom lo = true) (ha : a < lo) (v : Byte) (b : Nat) :
    (Memory.put a v m).read b = if b = a then v else m.read b := by
  unfold Memory.put
  split
  · split
    · subst_vars; exact Memory.read_of_lt h ha
    · rfl
  · simp only [Memory.read_cons, eq_comm]

/-- Weakening the lower bound of a canonical list. -/
theorem Memory.wfFrom_mono {m : Memory} {lo lo' : Nat} (h : m.wfFrom lo = true) (hle : lo' ≤ lo) :
    m.wfFrom lo' = true := by
  cases m with
  | nil => rfl
  | cons c rest =>
    simp only [Memory.wfFrom, Bool.and_eq_true, decide_eq_true_eq] at h ⊢
    exact ⟨⟨by omega, h.1.2⟩, h.2⟩

theorem Memory.wfFrom_put {m : Memory} {lo a : Nat} (h : m.wfFrom (a + 1) = true) (hlo : lo ≤ a) (v : Byte) :
    (Memory.put a v m).wfFrom lo = true := by
  unfold Memory.put
  split
  · exact Memory.wfFrom_mono h (by omega)
  · simp_all [Memory.wfFrom]

/-- A write keeps the canonical form (log 12). -/
theorem Memory.wfFrom_write {m : Memory} {lo a : Nat} (h : m.wfFrom lo = true) (hlo : lo ≤ a) (v : Byte) :
    (m.write a v).wfFrom lo = true := by
  induction m generalizing lo with
  | nil => exact Memory.wfFrom_put rfl hlo v
  | cons c rest ih =>
    obtain ⟨k, w⟩ := c
    simp only [Memory.wfFrom, Bool.and_eq_true, decide_eq_true_eq] at h
    unfold Memory.write
    split
    · refine Memory.wfFrom_put ?_ hlo v
      simp only [Memory.wfFrom, Bool.and_eq_true, decide_eq_true_eq]
      exact ⟨⟨by omega, h.1.2⟩, h.2⟩
    · split
      · exact Memory.wfFrom_put (Memory.wfFrom_mono h.2 (by omega)) hlo v
      · simp only [Memory.wfFrom, Bool.and_eq_true, decide_eq_true_eq]
        exact ⟨h.1, ih h.2 (by omega)⟩

theorem Memory.wf_write {m : Memory} (h : m.wf = true) (a : Nat) (v : Byte) : (m.write a v).wf = true :=
  Memory.wfFrom_write h (Nat.zero_le a) v

theorem Memory.read_write_from {m : Memory} {lo : Nat} (h : m.wfFrom lo = true) (a : Nat) (v : Byte) (b : Nat) :
    (m.write a v).read b = if b = a then v else m.read b := by
  induction m generalizing lo with
  | nil => exact Memory.read_put (lo := a + 1) rfl (by omega) v b
  | cons c rest ih =>
    obtain ⟨k, w⟩ := c
    simp only [Memory.wfFrom, Bool.and_eq_true, decide_eq_true_eq] at h
    unfold Memory.write
    split
    · refine Memory.read_put (lo := k) ?_ ‹_› v b
      simp only [Memory.wfFrom, Bool.and_eq_true, decide_eq_true_eq]
      exact ⟨⟨le_refl k, h.1.2⟩, h.2⟩
    · split
      · subst_vars
        rw [Memory.read_put h.2 (by omega) v b, Memory.read_cons]
        split
        · rfl
        · rw [if_neg (by omega)]
      · rw [Memory.read_cons, ih h.2, Memory.read_cons]
        split
        · rw [if_neg (by omega)]
        · rfl

/-- A read after a write: the byte written at its index, every other byte as before. -/
theorem Memory.read_write {m : Memory} (h : m.wf = true) (a : Nat) (v : Byte) (b : Nat) :
    (m.write a v).read b = if b = a then v else m.read b := Memory.read_write_from h a v b

/-- A write lists no index but its own. -/
theorem Memory.mem_write {m : Memory} {a : Nat} {v : Byte} {c : Host.Cell} (h : c ∈ m.write a v) :
    c ∈ m ∨ c = (a, v) := by
  induction m with
  | nil =>
    simp only [Memory.write, Memory.put] at h
    split at h <;> simp_all
  | cons d rest ih =>
    obtain ⟨k, w⟩ := d
    simp only [Memory.write, Memory.put] at h
    split at h
    · split at h <;> simp_all
      tauto
    · split at h
      · split at h <;> simp_all
        tauto
      · rcases List.mem_cons.mp h with h | h
        · exact .inl (h ▸ List.mem_cons_self)
        · exact (ih h).imp (List.mem_cons_of_mem _) id

/-- A write within the capacity lists nothing beyond it. -/
theorem Memory.bound_write {m : Memory} {cap a : Nat} (h : ∀ c ∈ m, c.1 < cap) (ha : a < cap) (v : Byte) :
    ∀ c ∈ m.write a v, c.1 < cap := by
  intro c hc
  rcases Memory.mem_write hc with hc | rfl
  · exact h c hc
  · exact ha

/-! ### Storing a payload -/

theorem storeFrom_wf {cap : Nat} {m : Memory} (h : m.wf = true) (a : Nat) (p : List Byte) :
    (storeFrom cap m a p).wf = true := by
  induction p generalizing m a with
  | nil => exact h
  | cons b rest ih =>
    refine ih ?_ _
    split
    · exact Memory.wf_write h a b
    · exact h

/-- Storing a payload from index `a` on: below the bound each index holds its byte, every other index is as before. -/
theorem storeFrom_read {cap : Nat} {m : Memory} (h : m.wf = true) (a : Nat) (p : List Byte) (k : Nat) :
    (storeFrom cap m a p).read k =
      if a ≤ k ∧ k < a + p.length ∧ k < cap then p.getD (k - a) 0 else m.read k := by
  induction p generalizing m a with
  | nil => simp [storeFrom]; omega
  | cons b rest ih =>
    have hw : (if a < cap then m.write a b else m).wf = true := by
      split
      · exact Memory.wf_write h a b
      · exact h
    rw [storeFrom, ih hw]
    by_cases hk : k = a
    · subst hk
      have : ¬ (k + 1 ≤ k ∧ k < k + 1 + rest.length ∧ k < cap) := by omega
      rw [if_neg this]
      by_cases hc : k < cap
      · simp [hc, Memory.read_write h]
      · simp [hc]
    · have hr : (if a < cap then m.write a b else m).read k = m.read k := by
        split
        · rw [Memory.read_write h, if_neg hk]
        · rfl
      rw [hr]
      by_cases hc : a + 1 ≤ k ∧ k < a + 1 + rest.length ∧ k < cap
      · rw [if_pos hc, if_pos (by simp; omega)]
        obtain ⟨j, rfl⟩ : ∃ j, k = a + 1 + j := ⟨k - (a + 1), by omega⟩
        have h1 : a + 1 + j - (a + 1) = j := by omega
        have h2 : a + 1 + j - a = j + 1 := by omega
        rw [h1, h2]
        simp
      · rw [if_neg hc, if_neg (by simp; omega)]

end Sys2Proof.Machine
end

