-- ==== Sys2Proof/Laws/Ops.lean ====
section
/-!
SUPPORT. One lemma for each shared operation: what it can do.
-/
namespace Sys2Proof.Machine

/-! ### The frame buffer -/

theorem memRead_of_lt {s : State} {a : Nat} (h : a < s.cfg.bufCap) : memRead s a = .ok (s.buf.read a) := by
  simp [memRead, h]

theorem memWrite_of_lt {s : State} {a : Nat} (h : a < s.cfg.bufCap) (v : Byte) :
    memWrite s a v = .next { s with buf := s.buf.write a v } := by
  simp [memWrite, h]

/-- What storing one payload byte does: the whole next state. It never faults (R108). -/
theorem storePayload_eq (byte : Byte) (s : State) :
    storePayload byte s = .next { s with
      buf := if s.cnt.toNat < s.cfg.bufCap then s.buf.write s.cnt.toNat byte else s.buf
      racc := if s.cfg.rxCsumEn then s.racc + byte else s.racc
      cnt := s.cnt + 1 } := by
  unfold storePayload
  split
  · next h => simp [memWrite_of_lt h]
  · rfl

/-! ### The decoder's reads -/

/-- With a length the decoder accepts, the three fields are read in bounds (R27, R131). -/
theorem readFields_of_decodable {s : State} (h : s.cfg.decodable s.L = true) :
    readFields s = .ok (s.buf.read s.cfg.decBase, s.buf.read (s.cfg.decBase + 1), s.buf.read (s.cfg.decBase + 2)) := by
  simp only [Config.decodable, Bool.and_eq_true, decide_eq_true_eq] at h
  unfold readFields
  rw [memRead_of_lt (by omega), memRead_of_lt (by omega), memRead_of_lt (by omega)]
  rfl

theorem decodeBuffer_of_overlen {s : State} (h : s.cfg.bufCap < s.L.toNat) : decodeBuffer s = .ok (.overlen s.L) := by
  simp [decodeBuffer, h]

theorem decodeBuffer_of_short {s : State} (h : s.L.toNat < s.cfg.decBase + 3) (hc : s.L.toNat ≤ s.cfg.bufCap) :
    decodeBuffer s = .ok (.short s.L) := by
  rw [decodeBuffer, if_neg (by omega), if_pos h]

theorem decodeBuffer_of_decodable {s : State} (h : s.cfg.decodable s.L = true) :
    decodeBuffer s = .ok (classifyFields s.L (s.buf.read s.cfg.decBase) (s.buf.read (s.cfg.decBase + 1))
      (s.buf.read (s.cfg.decBase + 2))) := by
  have h' := h
  simp only [Config.decodable, Bool.and_eq_true, decide_eq_true_eq] at h
  rw [decodeBuffer, if_neg (by omega), if_neg (by omega), readFields_of_decodable h']
  rfl

/-- The decoder always names an instruction: it never reads out of bounds. -/
theorem decodeBuffer_total (s : State) : ∃ i, decodeBuffer s = .ok i := by
  by_cases h1 : s.cfg.bufCap < s.L.toNat
  · exact ⟨_, decodeBuffer_of_overlen h1⟩
  · by_cases h2 : s.L.toNat < s.cfg.decBase + 3
    · exact ⟨_, decodeBuffer_of_short h2 (by omega)⟩
    · exact ⟨_, decodeBuffer_of_decodable (by simp [Config.decodable]; omega)⟩

/-! ### The channel table -/

/-- What the loop of R152 leaves in the channel table: the channels it visits are off, but for the addressed one. -/
theorem forceOthersOff_table (i : Chan) (js : List Chan) (ch : Table Bool) (nq : List Notif) (k : Chan) :
    (forceOthersOff i js ch nq).1[k] = if k ∈ js ∧ k ≠ i then false else ch[k] := by
  induction js generalizing ch nq with
  | nil => simp [forceOthersOff]
  | cons j rest ih =>
    unfold forceOthersOff
    split
    · next h =>
      rw [ih]
      by_cases hk : k = j
      · subst hk
        simp [h.1]
      · have : j.val ≠ k.val := fun e => hk (Fin.ext e.symm)
        simp [hk, this]
    · next h =>
      rw [ih]
      by_cases hk : k = j
      · subst hk
        by_cases hi : k = i
        · simp [hi]
        · have : ch[k] = false := by simpa [hi] using h
          simp [hi, this]
      · simp [hk]

/-- What the loop of R152 appends to the notifications: one for each visited channel that was on, in the order visited. -/
theorem forceOthersOff_owed (i : Chan) (js : List Chan) (hjs : js.Nodup) (ch : Table Bool) (nq : List Notif) :
    (forceOthersOff i js ch nq).2 =
      nq ++ (js.filter fun j => decide (j ≠ i) && ch[j]).map fun j => { c := j, on := false } := by
  induction js generalizing ch nq with
  | nil => simp [forceOthersOff]
  | cons j rest ih =>
    have hn := List.nodup_cons.mp hjs
    unfold forceOthersOff
    split
    · next h =>
      rw [ih hn.2, List.filter_cons_of_pos (by simp [h.1, h.2])]
      have : (rest.filter fun k => decide (k ≠ i) && (ch.set j false)[k]) =
          rest.filter fun k => decide (k ≠ i) && ch[k] := by
        apply List.filter_congr
        intro k hk
        have : j.val ≠ k.val := fun e => hn.1 ((Fin.ext e : j = k) ▸ hk)
        simp [this]
      rw [this]
      simp
    · next h =>
      rw [ih hn.2, List.filter_cons_of_neg]
      intro hc
      simp only [Bool.and_eq_true, decide_eq_true_eq] at hc
      exact h hc

theorem mem_channels (i : Chan) : i ∈ channels := by
  revert i
  decide

/-- The channel table after a toggle: the addressed channel flips, every other is off (R151, R152). -/
theorem toggleChannels_table (ch : Table Bool) (i k : Chan) :
    (toggleChannels ch i).1[k] = if k = i then !ch[i] else false := by
  unfold toggleChannels
  rw [forceOthersOff_table]
  by_cases hk : k = i
  · subst hk
    simp
  · simp [hk, mem_channels]

/-- The notifications of a toggle: the addressed channel's, then the forced-off channels' in ascending order (R153). -/
theorem toggleChannels_owed (ch : Table Bool) (i : Chan) :
    (toggleChannels ch i).2 = { c := i, on := !ch[i] } ::
      (channels.filter fun j => decide (j ≠ i) && ch[j]).map fun j => { c := j, on := false } := by
  unfold toggleChannels
  rw [forceOthersOff_owed i channels (by decide)]
  have : (channels.filter fun j => decide (j ≠ i) && (ch.set i !ch[i])[j]) =
      channels.filter fun j => decide (j ≠ i) && ch[j] := by
    apply List.filter_congr
    intro j _
    by_cases hj : j = i
    · simp [hj]
    · have : i.val ≠ j.val := fun e => hj (Fin.ext e.symm)
      simp [this]
  rw [this]
  rfl

/-! ### The environment's inputs -/

section Feed
variable {α : Type} {free : Nat → α}

@[simp] theorem Feed.head?_push (x : α) (l : Feed free) : (l.push x).head? = some x := rfl

@[simp] theorem Feed.tail_push (x : α) (l : Feed free) : (l.push x).tail = l := rfl

@[simp] theorem Feed.head?_silent : (Feed.silent : Feed free).head? = none := rfl

@[simp] theorem Feed.tail_silent : (Feed.silent : Feed free).tail = Feed.silent := rfl

/-- An input that supplies nothing more stays as it is. -/
theorem Feed.tail_of_silent {l : Feed free} (h : l.head? = none) : l.tail = l := by
  obtain ⟨items, after⟩ := l
  cases items with
  | cons x rest => simp [Feed.head?] at h
  | nil => cases after <;> simp_all [Feed.head?, Feed.tail]

@[simp] theorem Feed.drop_zero (l : Feed free) : Feed.drop 0 l = l := rfl

@[simp] theorem Feed.drop_succ (n : Nat) (l : Feed free) : Feed.drop (n + 1) l = Feed.drop n l.tail := rfl

theorem Feed.drop_add (m n : Nat) (l : Feed free) : Feed.drop (m + n) l = Feed.drop n (Feed.drop m l) := by
  induction m generalizing l with
  | zero => rw [Nat.zero_add, Feed.drop_zero]
  | succ m ih => rw [Nat.add_right_comm, Feed.drop_succ, ih, Feed.drop_succ]

theorem Feed.drop_of_silent {l : Feed free} (h : l.head? = none) (n : Nat) : Feed.drop n l = l := by
  induction n with
  | zero => rfl
  | succ n ih => rw [Feed.drop_succ, Feed.tail_of_silent h, ih]

variable [DecidableEq α]

@[simp] theorem Feed.starts_nil (l : Feed free) : l.starts [] = true := rfl

@[simp] theorem Feed.starts_cons {l : Feed free} {x : α} {rest : List α} :
    l.starts (x :: rest) = true ↔ l.head? = some x ∧ l.tail.starts rest = true := by
  simp [Feed.starts]

theorem Feed.starts_append {l : Feed free} {xs ys : List α} :
    l.starts (xs ++ ys) = true ↔ l.starts xs = true ∧ (Feed.drop xs.length l).starts ys = true := by
  induction xs generalizing l with
  | nil => simp
  | cons x rest ih => simp [ih, and_assoc]

/-- An input starts with its listed items, whatever follows them. -/
theorem Feed.starts_listed (items : List α) (after : Option Nat) :
    ({ items := items, after := after } : Feed free).starts items = true := by
  induction items with
  | nil => rfl
  | cons x rest ih => exact Feed.starts_cons.mpr ⟨rfl, ih⟩

end Feed

/-! ### The transmit side -/

/-- What offering a byte to the transport can do. -/
theorem txWrite_cases (s : State) :
    (s.txReady.head? = some true ∧ txWrite s = { s with
      txReady := s.txReady.tail
      trace := s.trace ++ [.tx (txByte s)]
      txi := if s.txi = 6 then s.txi else s.txi + 1
      txBusy := if s.txi = 6 then false else s.txBusy }) ∨
    (s.txReady.head? ≠ some true ∧ txWrite s = { s with txReady := s.txReady.tail }) := by
  cases h : s.txReady.head? with
  | none =>
    refine .inr ⟨by simp, ?_⟩
    simp [txWrite, h, Feed.tail_of_silent h]
  | some b =>
    cases b with
    | true =>
      refine .inl ⟨rfl, ?_⟩
      simp only [txWrite, h, State.advanceTx_eq]
      rfl
    | false => exact .inr ⟨by simp, by simp [txWrite, h]⟩

end Sys2Proof.Machine
end

