-- ==== Sys2Proof/Laws/PerInstr.lean ====
section
/-!
SUPPORT. Statements made of every instruction as syntax, one lemma per constructor.
-/
namespace Sys2Proof.Laws.EncodedSize

/-- The number of items of an encoded form: timed reads of an inbound frame, bytes of a status frame, one port sample. -/
def size : Wire → Nat
  | .rxf reads => reads.length
  | .txf bytes => bytes.length
  | .hop _ => 1

/-- The reads of a frame with declared length `len`: `2 + L`, and one more when `RX_CSUM_EN = 1` (R115). -/
def frameSize (cfg : Config) (len : Byte) : Nat := 2 + len.toNat + if cfg.rxCsumEn then 1 else 0

/-- The size the spec gives each instruction: R115 for the inbound classes, R72 for the status frame, R205 for the host
operations. -/
def stated (cfg : Config) : Instr → Nat
  | .nostart _ => 1
  | .nolen => 2
  | .overlen len => frameSize cfg len
  | .short len => frameSize cfg len
  | .rsvd len _ _ _ => frameSize cfg len
  | .swevNop len _ _ => frameSize cfg len
  | .swevBadch len _ => frameSize cfg len
  | .swevPress len _ => frameSize cfg len
  | .stat _ _ _ => 7
  | .cfgImport _ _ => 1
  | .cfgExport => 1
  | .statusExport => 1
  | .hopNone => 1

/-- The encoding of a well-formed instruction has the size the spec gives it. -/
def Statement (i : Instr) : Prop := ∀ cfg : Config, i.wf cfg = true → size (encode cfg i) = stated cfg i

theorem frameReads_length (cfg : Config) (len : Byte) (p : List Byte) (h : p.length = len.toNat) :
    (frameReads cfg len p).length = frameSize cfg len := by
  unfold frameReads frameSize
  cases cfg.rxCsumEn <;> simp [h] <;> omega

theorem fieldPayload_reads {cfg : Config} {len : Byte} (h : cfg.decodable len = true) (cmd chan status : Byte) :
    (frameReads cfg len (fieldPayload cfg len cmd chan status)).length = frameSize cfg len := by
  simp only [Config.decodable, Bool.and_eq_true, decide_eq_true_eq] at h
  exact frameReads_length cfg len _ (fieldPayload_length h.1)

theorem nostart (b0 : Byte) : Statement (.nostart b0) := fun _ _ => rfl
theorem nolen : Statement .nolen := fun _ _ => rfl
theorem overlen (len : Byte) : Statement (.overlen len) := fun cfg _ => frameReads_length cfg len _ (by simp)
theorem short (len : Byte) : Statement (.short len) := fun cfg _ => frameReads_length cfg len _ (by simp)

theorem rsvd (len cmd chan status : Byte) : Statement (.rsvd len cmd chan status) := by
  intro cfg h
  simp only [Instr.wf, Bool.and_eq_true] at h
  exact fieldPayload_reads h.1 _ _ _

theorem swevNop (len chan status : Byte) : Statement (.swevNop len chan status) := by
  intro cfg h
  simp only [Instr.wf, Bool.and_eq_true] at h
  exact fieldPayload_reads h.1 _ _ _

theorem swevBadch (len chan : Byte) : Statement (.swevBadch len chan) := by
  intro cfg h
  simp only [Instr.wf, Bool.and_eq_true] at h
  exact fieldPayload_reads h.1 _ _ _

theorem swevPress (len : Byte) (c : Chan) : Statement (.swevPress len c) := fun _ h => fieldPayload_reads h _ _ _

theorem stat (seq : Byte) (c : Chan) (on : Bool) : Statement (.stat seq c on) := fun _ _ => rfl
theorem cfgImport (valid : Bool) (v : Table Byte) : Statement (.cfgImport valid v) := fun _ _ => rfl
theorem cfgExport : Statement .cfgExport := fun _ _ => rfl
theorem statusExport : Statement .statusExport := fun _ _ => rfl
theorem hopNone : Statement .hopNone := fun _ _ => rfl

end Sys2Proof.Laws.EncodedSize
end

