-- ==== Sys2Proof/Laws/Step.lean ====
section
/-!
SUPPORT. What one step does, position by position: the lemmas later proofs cite instead of unfolding `step`.
-/
namespace Sys2Proof.Machine

/-! ### The two halves of a step -/

/-- An asserted reset ends whatever is in progress. -/
theorem step_of_reset {s : State} (h : rstAsserted s = true) : step s = .next s.sampleRst.resetRegs := by
  simp [step, h]

/-- Without a reset the sequencer acts. -/
theorem step_of_noReset {s : State} (h : rstAsserted s = false) : step s = perform (action s.sampleRst) := by
  simp [step, h]

/-- With a silent reset input, a step is the action at the present position. -/
theorem step_of_quiet {s : State} (h : s.rst = Feed.silent) : step s = perform (action s) := by
  rw [step_of_noReset (rstAsserted_of_silent h), State.sampleRst_of_silent h]

/-! ### Reads -/

@[simp] theorem readNow_byte {s : State} {b : Byte} (h : s.inbound.head? = some (.byte b)) :
    readNow s = .got b := by simp [readNow, h]

@[simp] theorem readNow_gap {s : State} (h : s.inbound.head? = some .gap) : readNow s = .expired := by
  simp [readNow, h]

@[simp] theorem readNow_withdrawn {s : State} (h : s.inbound.head? = some .withdrawn) : readNow s = .expired := by
  simp [readNow, h]

@[simp] theorem readNow_silent {s : State} (h : s.inbound.head? = none) : readNow s = .expired := by simp [readNow, h]

/-- A read stays outstanding only at a tick that leaves the timer below the timeout. -/
theorem readNow_waiting {s : State} :
    readNow s = .waiting ↔ s.inbound.head? = some .tick ∧ s.tmr + 1 < s.cfg.rxTimeout := by
  unfold readNow
  split <;> simp_all

/-- A read that returns a byte meets it at the head of the line. -/
theorem readNow_got {s : State} {b : Byte} : readNow s = .got b ↔ s.inbound.head? = some (.byte b) := by
  unfold readNow
  split
  · simp_all
  · split <;> simp_all
  · simp_all
  · simp_all
  · simp_all

/-! ### Runs -/

@[simp] theorem run_zero (s : State) : run 0 s = .next s := rfl

theorem run_succ (n : Nat) (s : State) : run (n + 1) s = andThen (step s) (run n) := rfl

/-- A run continues from where a shorter one ends. -/
theorem run_add {m n : Nat} {s t : State} (h : run m s = .next t) : run (m + n) s = run n t := by
  induction m generalizing s with
  | zero =>
    cases h
    rw [Nat.zero_add]
  | succ m ih =>
    rw [run_succ] at h
    obtain ⟨u, hu, ht⟩ := andThen_eq_next h
    rw [Nat.add_right_comm, run_succ, hu, andThen_next]
    exact ih ht

/-- One step, then a run. -/
theorem run_of_step {n : Nat} {s t : State} (h : step s = .next t) : run (n + 1) s = run n t := by
  rw [run_succ, h, andThen_next]

/-- What holds at the start of a run and is kept by every step holds at its end. -/
theorem run_keeps {P : State → Prop} (hstep : ∀ s t, P s → step s = .next t → P t) {n : Nat} {s t : State}
    (hs : P s) (h : run n s = .next t) : P t := by
  induction n generalizing s with
  | zero =>
    cases h
    exact hs
  | succ n ih =>
    rw [run_succ] at h
    obtain ⟨u, hu, ht⟩ := andThen_eq_next h
    exact ih (hstep s u hs hu) ht

/-! ### What a step can do -/

/-- Every instruction answers a next state. -/
theorem exec_answers_next (i : Instr) (s : State) : ∃ t, exec i s = .next t := by
  cases i with
  | cfgImport valid v =>
    cases valid
    · exact ⟨_, rfl⟩
    · exact ⟨_, rfl⟩
  | nostart b0 => exact ⟨_, rfl⟩
  | nolen => exact ⟨_, rfl⟩
  | overlen len => exact ⟨_, rfl⟩
  | short len => exact ⟨_, rfl⟩
  | rsvd len cmd chan status => exact ⟨_, rfl⟩
  | swevNop len chan status => exact ⟨_, rfl⟩
  | swevBadch len chan => exact ⟨_, rfl⟩
  | swevPress len c => exact ⟨_, rfl⟩
  | stat seq c on => exact ⟨_, rfl⟩
  | cfgExport => exact ⟨_, rfl⟩
  | statusExport => exact ⟨_, rfl⟩
  | hopNone => exact ⟨_, rfl⟩

/-- The ways a step that no reset interrupts can go from `s` to `t`, with the guard of each: the sequencer's own progress, a
wait, or the instruction decoded at the position. -/
inductive StepCase (s t : State) : Prop
  /-- IDLE: a host operation is served. -/
  | hostOp (hpc : s.pc = .idle) (i : Instr) (hi : decodeHop (hostPort s) = i) (hne : i ≠ .hopNone)
      (ht : exec i s = .next t)
  /-- IDLE: no request, and the availability check. -/
  | polled (hpc : s.pc = .idle) (hi : decodeHop (hostPort s) = .hopNone) (ht : t = poll s.hostDone)
  /-- A timed read stays outstanding for one time unit. -/
  | waited (hr : reading s = true) (hw : readNow s = .waiting) (ht : t = s.tickOn)
  | startExpired (hpc : s.pc = .rxStart) (hr : readNow s = .expired) (ht : t = raise s.expireRead .startTimeout)
  | startAccepted (hpc : s.pc = .rxStart) (hr : readNow s = .got startByte) (ht : t = acceptStart startByte s)
  | nostart (hpc : s.pc = .rxStart) (b : Byte) (hb : b ≠ startByte) (hr : readNow s = .got b)
      (ht : t = raise (s.takeByte b) .desync)
  | nolen (hpc : s.pc = .rxLen) (hr : readNow s = .expired) (ht : t = raise s.expireRead .lenTimeout)
  | lengthAccepted (hpc : s.pc = .rxLen) (b : Byte) (hr : readNow s = .got b) (ht : t = acceptLength b s)
  | payloadByte (hpc : s.pc = .rxPayload) (hne : s.cnt ≠ s.L) (b : Byte) (hr : readNow s = .got b)
      (ht : storePayload b (s.takeByte b) = .next t)
  | payloadExpired (hpc : s.pc = .rxPayload) (hne : s.cnt ≠ s.L) (hr : readNow s = .expired)
      (ht : storePayload s.cfg.sentinel s.expireRead = .next t)
  | toChecksum (hpc : s.pc = .rxPayload) (he : s.cnt = s.L) (hc : s.cfg.rxCsumEn = true)
      (ht : t = { s with pc := .rxCsum, tmr := 0 })
  | overlen (hpc : s.pc = .rxPayload) (he : s.cnt = s.L) (hc : s.cfg.rxCsumEn = false) (hl : s.cfg.bufCap < s.L.toNat)
      (ht : t = raise s .overflow)
  | handedOff (hpc : s.pc = .rxPayload) (he : s.cnt = s.L) (hc : s.cfg.rxCsumEn = false) (hl : s.L.toNat ≤ s.cfg.bufCap)
      (ht : t = s.goto .dispatch)
  | checksumFailed (hpc : s.pc = .rxCsum) (ht : (readNow s = .expired ∧ t = raise s.expireRead .csum) ∨
      ∃ b, readNow s = .got b ∧ b ≠ s.racc ∧ t = raise (s.takeByte b) .csum)
  | checksumOverlen (hpc : s.pc = .rxCsum) (hr : readNow s = .got s.racc) (hl : s.cfg.bufCap < s.L.toNat)
      (ht : t = raise (s.takeByte s.racc) .overflow)
  | checksumHandedOff (hpc : s.pc = .rxCsum) (hr : readNow s = .got s.racc) (hl : s.L.toNat ≤ s.cfg.bufCap)
      (ht : t = (s.takeByte s.racc).goto .dispatch)
  /-- DISPATCH: the decoded instruction runs. -/
  | dispatched (hpc : s.pc = .dispatch) (i : Instr) (hi : decodeBuffer s = .ok i) (ht : exec i s = .next t)
  /-- TX: a byte is offered to the transport. -/
  | offered (hpc : s.pc = .tx) (hx : s.txBusy = true) (ht : t = txWrite s)
  /-- TX: the next status frame is built. -/
  | notified (hpc : s.pc = .tx) (hx : s.txBusy = false) (n : Notif) (rest : List Notif) (hq : s.nq = n :: rest)
      (ht : execStat n.c n.on s = .next t)
  /-- TX: nothing is owed any more. -/
  | allSent (hpc : s.pc = .tx) (hx : s.txBusy = false) (hq : s.nq = []) (ht : t = s.goto .host)
  /-- HOST: the host calls. -/
  | hostCalled (hpc : s.pc = .host) (ht : t = hostWrites s)

theorem perform_handOff_eq {s u t : State} (h : perform (handOff u) = .next t) (hu : u.cfg = s.cfg) (hL : u.L = s.L) :
    (s.cfg.bufCap < s.L.toNat ∧ t = raise u .overflow) ∨ (s.L.toNat ≤ s.cfg.bufCap ∧ t = u.goto .dispatch) := by
  unfold handOff at h
  rw [hu, hL] at h
  split at h
  · next hl =>
    cases h
    exact .inl ⟨hl, rfl⟩
  · next hl =>
    cases h
    exact .inr ⟨by omega, rfl⟩

/-- The inversion lemma of the sequencer: an action that answers a next state is one of the cases above. -/
theorem action_cases {s t : State} (h : perform (action s) = .next t) : StepCase s t := by
  unfold action at h
  cases hpc : s.pc with
  | idle =>
    simp only [hpc, atIdle] at h
    split at h
    · next hi =>
      cases h
      exact .polled hpc hi rfl
    · next i hi => exact .hostOp hpc _ rfl (fun e => hi e) h
  | rxStart =>
    simp only [hpc, atStart] at h
    cases hr : readNow s with
    | waiting =>
      simp only [hr] at h
      cases h
      exact .waited (by simp [reading, hpc]) hr rfl
    | expired =>
      simp only [hr] at h
      cases h
      exact .startExpired hpc hr rfl
    | got b =>
      simp only [hr] at h
      split at h
      · next hb =>
        subst hb
        cases h
        exact .startAccepted hpc hr rfl
      · next hb =>
        cases h
        exact .nostart hpc b hb hr rfl
  | rxLen =>
    simp only [hpc, atLen] at h
    cases hr : readNow s with
    | waiting =>
      simp only [hr] at h
      cases h
      exact .waited (by simp [reading, hpc]) hr rfl
    | expired =>
      simp only [hr] at h
      cases h
      exact .nolen hpc hr rfl
    | got b =>
      simp only [hr] at h
      cases h
      exact .lengthAccepted hpc b hr rfl
  | rxPayload =>
    simp only [hpc, atPayload] at h
    split at h
    · next he =>
      split at h
      · next hc =>
        cases h
        exact .toChecksum hpc he hc rfl
      · next hc =>
        rcases perform_handOff_eq h rfl rfl with ⟨hl, ht⟩ | ⟨hl, ht⟩
        · exact .overlen hpc he (by simpa using hc) hl ht
        · exact .handedOff hpc he (by simpa using hc) hl ht
    · next hne =>
      cases hr : readNow s with
      | waiting =>
        simp only [hr] at h
        cases h
        exact .waited (by simp [reading, hpc, hne]) hr rfl
      | expired =>
        simp only [hr] at h
        exact .payloadExpired hpc hne hr h
      | got b =>
        simp only [hr] at h
        exact .payloadByte hpc hne b hr h
  | rxCsum =>
    simp only [hpc, atCsum] at h
    cases hr : readNow s with
    | waiting =>
      simp only [hr] at h
      cases h
      exact .waited (by simp [reading, hpc]) hr rfl
    | expired =>
      simp only [hr] at h
      cases h
      exact .checksumFailed hpc (.inl ⟨hr, rfl⟩)
    | got b =>
      simp only [hr] at h
      split at h
      · next hb =>
        subst hb
        rcases perform_handOff_eq (s := s) h rfl rfl with ⟨hl, ht⟩ | ⟨hl, ht⟩
        · exact .checksumOverlen hpc hr hl ht
        · exact .checksumHandedOff hpc hr hl ht
      · next hb =>
        cases h
        exact .checksumFailed hpc (.inr ⟨b, hr, hb, rfl⟩)
  | dispatch =>
    simp only [hpc, atDispatch] at h
    obtain ⟨i, hi⟩ := decodeBuffer_total s
    rw [hi] at h
    exact .dispatched hpc i hi h
  | tx =>
    simp only [hpc, atTx] at h
    cases hx : s.txBusy with
    | true =>
      rw [hx] at h
      cases h
      exact .offered hpc hx rfl
    | false =>
      rw [hx] at h
      cases hq : s.nq with
      | nil =>
        simp only [hq] at h
        cases h
        exact .allSent hpc hx hq rfl
      | cons n rest =>
        simp only [hq] at h
        exact .notified hpc hx n rest hq h
  | host =>
    simp only [hpc, atHost] at h
    cases h
    exact .hostCalled hpc rfl

/-- What a step can do: a reset, or one of the sequencer's cases on the state with this step's reset sample taken. -/
theorem step_cases {s t : State} (h : step s = .next t) :
    (rstAsserted s = true ∧ t = s.sampleRst.resetRegs) ∨ (rstAsserted s = false ∧ StepCase s.sampleRst t) := by
  cases hr : rstAsserted s with
  | true =>
    rw [step_of_reset hr] at h
    cases h
    exact .inl ⟨rfl, rfl⟩
  | false =>
    rw [step_of_noReset hr] at h
    exact .inr ⟨rfl, action_cases h⟩

/-! ### What the instructions that stand at one position do -/

/-- The availability check: the position and the timer, or the head of the inbound stream, and nothing else. -/
theorem poll_cases (s : State) :
    (rxAvail s = true ∧ poll s = { s with pc := .rxStart, tmr := 0 }) ∨
    (rxAvail s = false ∧ poll s = { s with inbound := s.inbound.tail }) := by
  unfold poll
  cases h : rxAvail s
  · exact .inr ⟨rfl, rfl⟩
  · exact .inl ⟨rfl, rfl⟩

/-- A host operation writes the effect table, the trace and its own request, and only an import writes the table. -/
theorem hostOp_cases {s t : State} (hne : decodeHop (hostPort s) ≠ .hopNone)
    (ht : exec (decodeHop (hostPort s)) s = .next t) :
    ∃ (eff : Table Byte) (es : List Event),
      t = { s with eff := eff, hostq := s.hostq.tail, trace := s.trace ++ es } ∧
      (eff ≠ s.eff → (hostPort s).op = 0b01) ∧
      ∀ e ∈ es, (∃ r, e = .cfgResult r) ∨ e = .cfgExport s.eff ∨ e = .statusExport (statusPairs s.eff) ∨
        e = .drop .cfgMalformed := by
  generalize hi : decodeHop (hostPort s) = i at hne ht
  unfold decodeHop at hi
  split at hi
  · next hop =>
    subst hi
    cases hv : (hostPort s).cfgValid <;> rw [hv] at ht <;> cases ht
    · refine ⟨Vector.replicate 8 effectDefault, [.drop .cfgMalformed, .cfgResult false], ?_, fun _ => hop, by simp⟩
      simp [State.note, State.emit, State.hostDone]
    · exact ⟨unpackTable (hostPort s).cfgIn, [.cfgResult true], rfl, fun _ => hop, by simp⟩
  · split at hi
    · subst hi
      cases ht
      exact ⟨s.eff, [.cfgExport s.eff], rfl, fun h => absurd rfl h, by simp⟩
    · split at hi
      · subst hi
        cases ht
        exact ⟨s.eff, [.statusExport (statusPairs s.eff)], rfl, fun h => absurd rfl h, by simp⟩
      · exact absurd hi.symm hne

/-- The instruction the decoder names from the buffer either only raises a condition, or is a press. -/
theorem dispatch_cases {s t : State} {i : Instr} (hi : decodeBuffer s = .ok i) (ht : exec i s = .next t) :
    (∃ c, t = raise s c) ∨ (∃ c, i = .swevPress s.L c ∧ execSwevPress c s = .next t) := by
  unfold decodeBuffer at hi
  split at hi
  · cases hi
    cases ht
    exact .inl ⟨_, rfl⟩
  split at hi
  · cases hi
    cases ht
    exact .inl ⟨_, rfl⟩
  cases hf : readFields s with
  | error e =>
    rw [hf] at hi
    cases hi
  | ok f =>
    rw [hf] at hi
    simp only [Except.map, Except.ok.injEq] at hi
    unfold classifyFields at hi
    split at hi
    · subst hi
      cases ht
      exact .inl ⟨_, rfl⟩
    split at hi
    · subst hi
      cases ht
      exact .inl ⟨_, rfl⟩
    split at hi
    · subst hi
      cases ht
      exact .inl ⟨_, rfl⟩
    · subst hi
      exact .inr ⟨_, rfl, ht⟩

end Sys2Proof.Machine
end

