-- ==== Sys2Proof/Tests/Slice0.lean ====
section
/-!
SUPPORT. Tests. Expected values come from 95_test_vectors.md (the vector is named), from the encodings of 30_encoding.md or
from hand computation by the rules. First the ill-formed terms and the decodings, then one step for each instruction, last
the witnesses that the statements' hypotheses can be met.
-/
namespace Sys2Proof.Tests
open Sys2Proof Sys2Proof.Machine

/-- The state a step or an instruction answers, `s` if it stops. -/
def got (s : State) (o : Result) : State :=
  match o with
  | .next t => t
  | .fault _ => s
  | .refused _ => s

/-- Whether a next state is answered. -/
def isNext (o : Result) : Bool :=
  match o with
  | .next _ => true
  | .fault _ => false
  | .refused _ => false

/-- The effect table of the start state `S0` of 95_test_vectors.md. -/
def eff0 : Table Byte := #v[0x0B, 0x16, 0x21, 0x2C, 0x37, 0x42, 0x4D, 0x58]

/-- `S0` of 95_test_vectors.md: after reset and a successful import of `eff0`. -/
def s0 : State := { State.reset with eff := eff0 }

/-- `S0` at position `p` with the inbound list `items`. -/
def at' (p : Pos) (items : List RxItem) : State := { s0 with pc := p, inbound := Feed.ofList items }

/-- `S0` at DISPATCH with the payload `p` in the buffer. -/
def handed (p : List Byte) : State :=
  { s0 with pc := .dispatch, L := BitVec.ofNat 8 p.length, cnt := BitVec.ofNat 8 p.length, buf := storeFrom 128 [] 0 p }

/-- A channel table with exactly the listed channel indices on. -/
def on (cs : List Chan) : Table Bool := Vector.ofFn fun i => decide (i ∈ cs)

/-- This hardware with the inbound checksum enabled. -/
def csumCfg : Config := { Config.hardware with rxCsumEn := true }

/-- This hardware with the smallest legal buffer. -/
def smallCfg : Config := { Config.hardware with bufCap := 3 }

/-! ### Well-formedness: an ill-formed term for each check -/

theorem test_wf_nostart : (Instr.nostart 0x7B).wf Config.hardware = false := by decide
theorem test_wf_overlen : (Instr.overlen 0x80).wf Config.hardware = false := by decide
theorem test_wf_short : (Instr.short 3).wf Config.hardware = false := by decide
theorem test_wf_short_cap : (Instr.short 2).wf { Config.hardware with bufCap := 1 } = false := by decide
theorem test_wf_rsvd_cmd : (Instr.rsvd 3 0x04 3 1).wf Config.hardware = false := by decide
theorem test_wf_rsvd_len : (Instr.rsvd 2 0x09 3 1).wf Config.hardware = false := by decide
theorem test_wf_swevNop_status : (Instr.swevNop 3 3 0x01).wf Config.hardware = false := by decide
theorem test_wf_swevNop_len : (Instr.swevNop 0x81 3 0).wf Config.hardware = false := by decide
theorem test_wf_swevBadch_low : (Instr.swevBadch 3 1).wf Config.hardware = false := by decide
theorem test_wf_swevBadch_high : (Instr.swevBadch 3 8).wf Config.hardware = false := by decide
theorem test_wf_swevBadch_len : (Instr.swevBadch 2 9).wf Config.hardware = false := by decide
theorem test_wf_swevPress_short : (Instr.swevPress 2 0).wf Config.hardware = false := by decide
theorem test_wf_swevPress_long : (Instr.swevPress 0x81 0).wf Config.hardware = false := by decide
theorem test_wf_accepts : (Instr.swevPress 0x80 0).wf Config.hardware = true ∧ (Instr.overlen 0x81).wf Config.hardware = true ∧
    (Instr.short 2).wf Config.hardware = true ∧ (Instr.rsvd 3 5 3 1).wf Config.hardware = true := by decide

/-! ### Decoding: wire bytes written out from 30_encoding.md R71, R72, R80, and the port of R205 -/

/-- The bytes of an inbound frame, all received. -/
def bytes (l : List Byte) : List (Option Byte) := l.map some

theorem test_decode_nostart : decodeRxf Config.hardware (bytes [0x55, 0x7B]) = .ok (.nostart 0x55, bytes [0x7B]) := by rfl
theorem test_decode_nolen : decodeRxf Config.hardware [some 0x7B, none, some 0x7B] = .ok (.nolen, bytes [0x7B]) := by rfl
theorem test_decode_overlen : decodeRxf Config.hardware (bytes [0x7B, 0x81, 0x04, 0x03, 0x01]) =
    .ok (.overlen 0x81, []) := by rfl
theorem test_decode_short : decodeRxf Config.hardware (bytes [0x7B, 0x02, 0x04, 0x03, 0x55]) =
    .ok (.short 2, bytes [0x55]) := by rfl
theorem test_decode_rsvd : decodeRxf Config.hardware (bytes [0x7B, 0x03, 0x09, 0x0A, 0x02]) =
    .ok (.rsvd 3 9 0x0A 2, []) := by rfl
theorem test_decode_swevNop : decodeRxf Config.hardware (bytes [0x7B, 0x03, 0x04, 0x0A, 0x02]) =
    .ok (.swevNop 3 0x0A 2, []) := by rfl
theorem test_decode_swevBadch : decodeRxf Config.hardware (bytes [0x7B, 0x03, 0x04, 0x09, 0x01]) =
    .ok (.swevBadch 3 9, []) := by rfl
theorem test_decode_swevPress : decodeRxf Config.hardware (bytes [0x7B, 0x04, 0x04, 0x08, 0x01] ++ [none]) =
    .ok (.swevPress 4 7, []) := by rfl
/-- A39: the core's own status frame is no press; `RX_CSUM_EN = 1` checks its checksum. -/
theorem test_decode_csum : decodeRxf csumCfg (bytes [0x7B, 0x04, 0x00, 0x05, 0x03, 0x01, 0x09]) =
    .ok (.rsvd 4 0 5 3, []) := by rfl
/-- A31. -/
theorem test_decode_badChecksum : decodeRxf csumCfg (bytes [0x7B, 0x03, 0x04, 0x03, 0x01, 0x09]) = .error .badChecksum := by
  rfl
/-- W9. -/
theorem test_decode_stat : decodeTxf [0x7B, 0x04, 0xFF, 0x05, 0x08, 0x01, 0x0D] = .ok (.stat 0xFF 7 true, []) := by rfl
theorem test_decode_txf_channel : decodeTxf [0x7B, 0x04, 0x00, 0x05, 0x09, 0x01, 0x0F] = .error .txfChannel := by rfl
theorem test_decode_txf_state : decodeTxf [0x7B, 0x04, 0x00, 0x05, 0x03, 0x02, 0x0A] = .error .txfState := by rfl
theorem test_decode_txf_checksum : decodeTxf [0x7B, 0x04, 0x00, 0x05, 0x03, 0x01, 0x0A] = .error .txfChecksum := by rfl
theorem test_decode_txf_literal : decodeTxf [0x7B, 0x05, 0x00, 0x05, 0x03, 0x01, 0x09] = .error .txfLiteral := by rfl
theorem test_decode_txf_truncated : decodeTxf [0x7B, 0x04, 0x00] = .error .txfTruncated := by rfl
theorem test_decode_noStartByte : decodeRxf Config.hardware [none] = .error .noStartByte := by rfl
theorem test_decode_cfgImport : decodeHop { op := 0b01, cfgValid := true, cfgIn := 0x584D42372C21160B } =
    .cfgImport true eff0 := by decide
theorem test_decode_cfgExport : decodeHop { op := 0b10, cfgValid := true, cfgIn := 5 } = .cfgExport := by decide
theorem test_decode_statusExport : decodeHop { op := 0b11, cfgValid := true, cfgIn := 5 } = .statusExport := by decide
theorem test_decode_hopNone : decodeHop { op := 0b00, cfgValid := true, cfgIn := 5 } = .hopNone := by decide
/-- `DEC_BASE = 1` (2.2): the fields one byte later, and a frame of three bytes is short. -/
theorem test_decode_decBase :
    decodeRxf { Config.hardware with decBase := 1 } (bytes [0x7B, 0x04, 0x2A, 0x04, 0x03, 0x01]) = .ok (.swevPress 4 2, []) ∧
    decodeRxf { Config.hardware with decBase := 1 } (bytes [0x7B, 0x03, 0x04, 0x03, 0x01]) = .ok (.short 3, []) := ⟨rfl, rfl⟩
/-- Sentinels decide the class (A12, A13). -/
theorem test_decode_sentinel :
    decodeRxf Config.hardware [some 0x7B, some 3, some 4, none, some 1] = .ok (.swevBadch 3 0xFF, []) ∧
    decodeRxf Config.hardware [some 0x7B, some 3, some 4, some 3, none] = .ok (.swevNop 3 3 0xFF, []) := ⟨rfl, rfl⟩

/-! ### One step -/

/-- A3. -/
theorem test_nostart : (got s0 (step (at' .rxStart [.byte 0x55, .byte 0x7B]))).trace = [.rx 0x55, .drop .desync] ∧
    (got s0 (step (at' .rxStart [.byte 0x55, .byte 0x7B]))).inbound = Feed.ofList [.byte 0x7B] := by decide
/-- A5: a silent line. -/
theorem test_nolen : (got s0 (step (at' .rxLen []))).trace = [.rxNone, .drop .lenTimeout] ∧
    (got s0 (step (at' .rxLen []))).pc = .idle := by decide
/-- A18: the 129 payload bytes are read. -/
theorem test_overlen : (got s0 (step { s0 with pc := .rxPayload, L := 0x81, cnt := 0x81 })).trace = [.drop .overflow] := by
  decide
/-- A9. -/
theorem test_short : (got s0 (step (handed [0x04, 0x03]))).trace = [.drop .short] := by decide
/-- B17: all three checks would fail, the first reports. -/
theorem test_rsvd : (got s0 (step (handed [0x09, 0x0A, 0x00]))).trace = [.drop .unknownCmd] := by decide
/-- B9: the whole status byte must be 01. -/
theorem test_swevNop : (got s0 (step (handed [0x04, 0x03, 0x81]))).trace = [.drop .notPressed] := by decide
/-- B18: status is tested before channel. -/
theorem test_swevNop_first : (got s0 (step (handed [0x04, 0x0A, 0x00]))).trace = [.drop .notPressed] := by decide
/-- B1, B4. -/
theorem test_swevBadch : (got s0 (step (handed [0x04, 0x00, 0x01]))).trace = [.drop .badChannel] ∧
    (got s0 (step (handed [0x04, 0x09, 0x01]))).trace = [.drop .badChannel] := by decide
/-- G8: two channels are forced off, in ascending order, after the addressed one. -/
theorem test_swevPress :
    (got s0 (step { handed [0x04, 0x04, 0x01] with ch := on [2, 4] })).ch = on [3] ∧
    (got s0 (step { handed [0x04, 0x04, 0x01] with ch := on [2, 4] })).nq = [⟨3, true⟩, ⟨2, false⟩, ⟨4, false⟩] := by decide
/-- G7: a press that turns a channel off still forces the others off. -/
theorem test_swevPress_off :
    (got s0 (step { handed [0x04, 0x03, 0x01] with ch := on [2, 4] })).ch = on [] ∧
    (got s0 (step { handed [0x04, 0x03, 0x01] with ch := on [2, 4] })).nq = [⟨2, false⟩, ⟨4, false⟩] := by decide
/-- W9: the counter wraps. -/
theorem test_stat :
    (got s0 (step { s0 with pc := .tx, seq := 0xFF, nq := [⟨7, true⟩] })).txf =
      #v[0x7B, 0x04, 0xFF, 0x05, 0x08, 0x01, 0x0D] ∧
    (got s0 (step { s0 with pc := .tx, seq := 0xFF, nq := [⟨7, true⟩] })).seq = 0x00 := by decide
/-- W12: the checksum's carry is dropped. -/
theorem test_stat_carry :
    (got s0 (step { s0 with pc := .tx, seq := 0xF2, nq := [⟨7, true⟩] })).txf[6] = 0x00 := by decide
/-- H1. -/
theorem test_cfgImport :
    (got s0 (step { State.reset with hostq := .ofList [⟨0b01, true, 0x584D42372C21160B⟩] })).eff = eff0 ∧
    (got s0 (step { State.reset with hostq := .ofList [⟨0b01, true, 0x584D42372C21160B⟩] })).trace = [.cfgResult true] := by decide
/-- V4: a failed import resets the effects and leaves the channels. -/
theorem test_cfgImport_malformed :
    (got s0 (step { s0 with ch := on [2], hostq := .ofList [⟨0b01, false, 5⟩] })).eff = Vector.replicate 8 0 ∧
    (got s0 (step { s0 with ch := on [2], hostq := .ofList [⟨0b01, false, 5⟩] })).ch = on [2] := by decide
/-- H2. -/
theorem test_cfgExport : (got s0 (step { s0 with hostq := .ofList [⟨0b10, false, 0⟩] })).trace = [.cfgExport eff0] := by decide
/-- H3. -/
theorem test_statusExport : (got s0 (step { s0 with hostq := .ofList [⟨0b11, false, 0⟩] })).trace =
    [.statusExport [(1, 0x0B), (2, 0x16), (3, 0x21), (4, 0x2C), (5, 0x37), (6, 0x42), (7, 0x4D), (8, 0x58)]] := by decide
/-- H9: the host request is served before the available byte. -/
theorem test_hostFirst :
    (got s0 (step { s0 with hostq := .ofList [⟨0b01, false, 0⟩], inbound := Feed.ofList [.byte 0x7B] })).inbound = Feed.ofList [.byte 0x7B] ∧
    (got s0 (step { s0 with hostq := .ofList [⟨0b01, false, 0⟩], inbound := Feed.ofList [.byte 0x7B] })).pc = .idle := by decide
/-- A2: a leading gap passes at IDLE. -/
theorem test_hopNone : (got s0 (step { s0 with inbound := Feed.ofList [.gap, .byte 0x7B] })).trace = [] ∧
    (got s0 (step { s0 with inbound := Feed.ofList [.gap, .byte 0x7B] })).inbound = Feed.ofList [.byte 0x7B] := by decide
/-- A10: an expired payload read stores the sentinel and the loop goes on. -/
theorem test_sentinel :
    (got s0 (step { at' .rxPayload [.gap] with L := 3, cnt := 1 })).buf = [(1, 0xFF)] ∧
    (got s0 (step { at' .rxPayload [.gap] with L := 3, cnt := 1 })).cnt = 2 := by decide
/-- A18: the 129th payload byte is read and not stored; the 128th is stored (A17). -/
theorem test_drain :
    (got s0 (step { at' .rxPayload [.byte 0xAA] with L := 0x81, cnt := 0x80 })).buf = [] ∧
    (got s0 (step { at' .rxPayload [.byte 0xAA] with L := 0x81, cnt := 0x7F })).buf = [(127, 0xAA)] := by decide
/-- The last tick before the timeout, and the tick that reaches it. -/
theorem test_timer :
    (got s0 (step { at' .rxStart [.tick, .byte 0x7B] with tmr := 298 })).tmr = 299 ∧
    (got s0 (step { at' .rxStart [.tick, .byte 0x7B] with tmr := 299 })).trace = [.rxNone, .drop .startTimeout] := by decide
/-- A withdrawn byte (2.6). -/
theorem test_startTimeout :
    (got s0 (step (at' .idle [.withdrawn]))).pc = .rxStart ∧
    (got s0 (step (at' .rxStart [.withdrawn]))).trace = [.rxNone, .drop .startTimeout] := by decide
/-- A36: the sentinel enters the sum. -/
theorem test_racc : (got s0 (step { at' .rxPayload [.gap] with cfg := csumCfg, L := 4, cnt := 3, racc := 8 })).racc = 7 := by
  decide
/-- A37: the checksum is right, then the overflow is found. -/
theorem test_checksum_overlen :
    (got s0 (step { at' .rxCsum [.byte 0] with cfg := csumCfg, L := 0x81, cnt := 0x81 })).trace =
      [.rx 0, .drop .overflow] := by decide
/-- G1, G2: the host writes. -/
theorem test_hostWrites :
    (got s0 (step { s0 with pc := .host, togC := 2, togOn := true })).trace =
      [.setEffect 0x21, .setPower Config.powerOnLevel, .directChange] ∧
    (got s0 (step { s0 with pc := .host, togC := 2, togOn := false })).trace = [.setPower 0, .directChange] := ⟨rfl, rfl⟩
/-- Z3: reset during a transmission. -/
theorem test_reset :
    (got s0 (step { s0 with pc := .tx, txi := 3, txBusy := true, seq := 6, ch := on [2], rst := .ofList [true] })).seq = 0 ∧
    (got s0 (step { s0 with pc := .tx, txi := 3, txBusy := true, seq := 6, ch := on [2], rst := .ofList [true] })).ch = on [] ∧
    (got s0 (step { s0 with pc := .tx, txi := 3, txBusy := true, seq := 6, ch := on [2], rst := .ofList [true] })).trace = [] := by decide
/-- The stall of 2.4: three bytes taken, then none. -/
theorem test_stall : (got s0 (step { s0 with pc := .tx, txi := 3, txBusy := true })) = { s0 with pc := .tx, txi := 3, txBusy := true } := by decide
/-- The seventh byte ends the frame, the third does not (R174). -/
theorem test_lastByte :
    (got s0 (step { s0 with pc := .tx, txi := 6, txBusy := true, txReady := .ofList [true] })).txBusy = false ∧
    (got s0 (step { s0 with pc := .tx, txi := 2, txBusy := true, txReady := .ofList [true] })).txi = 3 := by decide
/-- R36: a toggle touches neither `txi` nor `txf`. -/
theorem test_toggleLeavesTxi : (got s0 (step { handed [0x04, 0x03, 0x01] with txi := 5 })).txi = 5 := by decide
/-- An infinite line: the read meets whatever the free line holds, and the next read the item after it (log 27). -/
theorem test_infiniteLine : ({ items := [.gap], after := some 7 } : Feed Config.rxItemAt).tail.head? = some (Config.rxItemAt 7) ∧
    ({ items := [], after := some 7 } : Feed Config.rxItemAt).tail.head? = some (Config.rxItemAt 8) := ⟨rfl, rfl⟩
/-- CSUM8 values of 2.4. -/
theorem test_csum : csum8 [] = 0 ∧ csum8 [0xFF, 0x01] = 0 ∧ csum8 [0x80, 0x80] = 0 ∧ csum8 [0xFF, 0xFF, 0xFF, 0xFF] = 0xFC ∧
    csum8 [0x04, 0x03, 0x01, 0xFF] = 7 ∧ csumOk [0x00, 0x05, 0x03, 0x01] 0x0A = false := by decide
/-- A table word is stored and run as the first instruction after reset (log 13). -/
theorem test_withFetchWord :
    (got s0 (step (State.reset.withFetchWord 40 0x7B03040301))).ch = on [2] ∧
    (got s0 (step (State.reset.withFetchWord 56 0x7B040005030109))).txf = #v[0x7B, 0x04, 0x00, 0x05, 0x03, 0x01, 0x09] := by
  decide

/-! ### Witnesses: states and operands that meet a statement's hypotheses, a clause at a time -/

theorem witness_RxfDecodeEncodeAgree : ∀ i ∈ [Instr.nostart 0x7A, .nolen, .overlen 0x81, .short 2, .rsvd 3 5 0 0,
    .swevNop 0x80 9 0, .swevBadch 3 9, .swevBadch 3 0, .swevPress 3 0, .swevPress 0x80 7],
    i.format = .rxf ∧ i.wf Config.hardware = true := by decide
theorem witness_TxfDecodeEncodeAgree : decodeTxf [0x7B, 0x04, 0x00, 0x05, 0x01, 0x00, 0x06] = .ok (.stat 0 0 false, []) := rfl
theorem witness_HopDecodeEncodeAgree : (Instr.format .cfgExport = .hop) ∧
    decodeHop { op := 1, cfgValid := false, cfgIn := 0 } = .cfgImport false (Vector.replicate 8 0) := by decide
/-- `pay` at the boundary lengths 2, 3, 128 and 129, and at channel numbers 0, 1, 8 and 9. -/
theorem witness_ClassesFollowTheTable :
    128 < (0x81 : Byte).toNat ∧ (2 : Byte).toNat < 3 ∧ 3 ≤ (3 : Byte).toNat ∧ (0x80 : Byte).toNat ≤ 128 ∧
    (∀ reads : List (Option Byte), ∃ pay : Nat → Byte, ∀ k, pay k = (reads.getD k none).getD 0xFF) ∧
    (((bytes [0x04, 0x08, 0x01]).getD 1 none).getD 0xFF).toNat = (7 : Chan).val + 1 ∧ 8 < (9 : Byte).toNat :=
  ⟨by decide, by decide, by decide, by decide, fun _ => ⟨_, fun _ => rfl⟩, by decide, by decide⟩
theorem witness_FramesAgreeingInFieldsActAlike :
    Config.hardware.decodable 3 = true ∧ Config.hardware.decodable 0x80 = true ∧
    ∀ k, k < 3 → ([0x04, 0x03, 0x01] : List Byte).getD (Config.hardware.decBase + k) 0 =
      ([0x04, 0x03, 0x01, 0x55] : List Byte).getD (Config.hardware.decBase + k) 0 := by decide
theorem witness_ExpiredFieldReadNeverPresses : Config.hardware.sentinel = 0xFF ∧
    decodeRxf Config.hardware [some 0x7B, some 4, some 4, some 3, some 1, none] = .ok (.swevPress 4 2, []) := ⟨rfl, rfl⟩

theorem witness_step_host : rstAsserted { s0 with hostq := .ofList [⟨0b11, false, 0⟩] } = false ∧ s0.pc = .idle ∧
    decodeHop (hostPort { s0 with hostq := .ofList [⟨0b11, false, 0⟩] }) ≠ .hopNone := by decide
theorem witness_step_poll : rstAsserted s0 = false ∧ s0.pc = .idle ∧ decodeHop (hostPort s0) = .hopNone := by decide
theorem witness_step_nostart : rstAsserted (at' .rxStart [.byte 0x7A]) = false ∧ (at' .rxStart [.byte 0x7A]).pc = .rxStart ∧
    (at' .rxStart [.byte 0x7A]).inbound.head? = some (.byte 0x7A) ∧ (0x7A : Byte) ≠ 0x7B := by decide
theorem witness_step_nolen : rstAsserted (at' .rxLen []) = false ∧ (at' .rxLen []).pc = .rxLen ∧
    readNow (at' .rxLen []) = .expired := by decide
theorem witness_step_overlen : (got s0 (.next { s0 with pc := .rxPayload, L := 0x81, cnt := 0x81 })).cnt = 0x81 ∧
    s0.cfg.rxCsumEn = false ∧ s0.cfg.bufCap < (0x81 : Byte).toNat := by decide
theorem witness_step_overlen_csum :
    let s : State := { at' .rxCsum [.byte 0] with cfg := csumCfg, L := 0x81, cnt := 0x81 }
    rstAsserted s = false ∧ s.pc = .rxCsum ∧ s.inbound.head? = some (.byte s.racc) ∧ s.cfg.bufCap < s.L.toNat := by decide
theorem witness_step_dispatch : rstAsserted (handed [4, 3, 1]) = false ∧ (handed [4, 3, 1]).pc = .dispatch ∧
    decodeBuffer (handed [4, 3, 1]) = .ok (.swevPress 3 2) := ⟨by decide, by decide, rfl⟩
theorem witness_step_stat : let s : State := { s0 with pc := .tx, nq := [⟨2, true⟩] }
    rstAsserted s = false ∧ s.pc = .tx ∧ s.txBusy = false ∧ s.nq = ⟨2, true⟩ :: [] := by decide

theorem witness_LoadedWordRunsNext : s0.buf.wf = true ∧ decodeWord s0.cfg 40 0x7B03040301 = some (.swevPress 3 2) ∧
    decodeWord s0.cfg 8 0 = some .hopNone := by decide
theorem witness_step_next : rstAsserted s0 = false ∧ step s0 = .next s0 := ⟨by decide, rfl⟩

theorem witness_PollBeginsAttempt : ∀ items ∈ [[], [RxItem.gap], [.tick], [.withdrawn], [.byte 0x00]],
    rstAsserted (at' .idle items) = false ∧ (at' .idle items).pc = .idle ∧
    decodeHop (hostPort (at' .idle items)) = .hopNone := by decide
theorem witness_StartRead : ∀ items ∈ [[RxItem.byte 0x7B], [.byte 0x7C], [.gap]],
    rstAsserted (at' .rxStart items) = false ∧ (at' .rxStart items).pc = .rxStart := by decide
theorem witness_StartRead_expired : readNow (at' .rxStart [.gap]) = .expired := by decide
theorem witness_NostartDropsExactlyOneByte : let s := at' .idle [.byte 0x55, .byte 0x7B]
    (0x55 : Byte) ≠ 0x7B ∧ s.inbound.head? = some (.byte 0x55) ∧ s.pc = .idle ∧ s.rst = .silent ∧ s.hostq = .silent := by decide
theorem witness_LengthByteIsLoaded : let s := at' .rxLen [.byte 0x00]
    s.pc = .rxLen ∧ rstAsserted s = false ∧ s.inbound.head? = some (.byte 0) ∧ s.rst = .silent ∧ s.cfg.rxCsumEn = false ∧
    (at' .rxLen [.byte 0xFF]).inbound.head? = some (.byte 0xFF) ∧ readNow (at' .rxLen [.gap]) = .expired := by decide
theorem witness_NolenAbandonsTheAttempt : let s : State := { at' .rxLen [.tick] with tmr := 299 }
    s.pc = .rxLen ∧ rstAsserted s = false ∧ s.inbound.head? = some .tick ∧ s.cfg.rxTimeout ≤ s.tmr + 1 ∧
    (at' .rxLen [.withdrawn]).inbound.head? = some .withdrawn ∧ (at' .rxLen []).inbound.head? = none := by decide
/-- A byte, and an expiry by a silent line. -/
theorem witness_ReaderPerformsOneRead : ∀ items ∈ [[RxItem.byte 4], []], let s : State := { at' .rxPayload items with L := 3 }
    rstAsserted s = false ∧ s.pc = .rxPayload ∧ s.cnt ≠ s.L ∧ (readNow s = .got 4 ∨ readNow s = .expired) := by decide
/-- A buffer of three bytes and four reads: the last stored index is 2, index 3 is drained. -/
theorem witness_ReaderPerformsExactlyLReads :
    let s : State := { at' .rxPayload [.byte 4, .gap, .byte 1, .byte 0] with cfg := smallCfg, L := 4 }
    s.pc = .rxPayload ∧ s.rst = .silent ∧ s.buf.wf = true ∧
    s.cnt.toNat + [some (4 : Byte), none, some 1, some 0].length = s.L.toNat ∧
    s.inbound.starts ([some (4 : Byte), none, some 1, some 0].map itemOf) = true ∧ s.cnt.toNat + 2 < s.cfg.bufCap ∧
    s.cfg.bufCap ≤ 3 := by decide
theorem witness_OverflowIsTestedAfterTheDrain : ∀ len ∈ [(0x80 : Byte), 0x81],
    let s : State := { s0 with pc := .rxPayload, L := len, cnt := len }
    rstAsserted s = false ∧ s.pc = .rxPayload ∧ s.cnt = s.L ∧ s.cfg.rxCsumEn = false ∧
    (s.L.toNat ≤ s.cfg.bufCap ↔ len = 0x80) := by decide
theorem witness_ChecksumStage_enter : let s : State := { s0 with cfg := csumCfg, pc := .rxPayload, L := 3, cnt := 3 }
    rstAsserted s = false ∧ s.pc = .rxPayload ∧ s.cnt = s.L ∧ s.cfg.rxCsumEn = true := by decide
/-- A missing, a wrong and a right byte. -/
theorem witness_ChecksumStage_read : ∀ items ∈ [[RxItem.gap], [.byte 9], [.byte 8]],
    let s : State := { at' .rxCsum items with cfg := csumCfg, L := 3, cnt := 3, racc := 8 }
    rstAsserted s = false ∧ s.pc = .rxCsum ∧ (readNow s = .expired ↔ items = [.gap]) := by decide
theorem witness_TimerExpiresTheRead : let s : State := { at' .rxStart [.tick] with tmr := 298 }
    s.rst = .silent ∧ reading s = true ∧ s.inbound.starts (List.replicate 1 .tick) = true ∧ s.tmr + 1 < s.cfg.rxTimeout ∧
    s.cfg.rxTimeout ≤ { s with tmr := 299 }.tmr + 1 := by decide
theorem witness_PayloadBlockingIsBounded :
    let s : State := { at' .rxPayload (List.replicate 6 .tick) with cfg := { Config.hardware with rxTimeout := 3 }, L := 2 }
    s.pc = .rxPayload ∧ s.rst = .silent ∧ s.tmr = 0 ∧ 0 < s.cfg.rxTimeout ∧ s.cnt.toNat ≤ s.L.toNat ∧
    s.inbound.starts (List.replicate (s.cfg.rxTimeout * (s.L.toNat - s.cnt.toNat)) .tick) = true := by decide
theorem witness_ReaderRefinesTheDecoder :
    let reads := bytes [0x7B, 0x03, 0x04, 0x03, 0x01, 0x55]
    let s := at' .idle (reads.map itemOf)
    s.pc = .idle ∧ s.hostq = .silent ∧ s.rst = .silent ∧ s.buf.wf = true ∧ s.cfg.rxCsumEn = false ∧
    s.inbound.starts (reads.map itemOf) = true ∧ (s.inbound.drop reads.length).head? = none ∧
    decodeRxf s.cfg reads = .ok (.swevPress 3 2, bytes [0x55]) := ⟨rfl, rfl, rfl, rfl, rfl, rfl, rfl, rfl⟩
/-- The other classes: no start byte, a silent line after the start byte, a short frame, an ignored one, and one that is too
long for a buffer of three bytes. -/
theorem witness_ReaderRefinesTheDecoder_classes : ∀ reads ∈ [bytes [0x55, 0x7B], bytes [0x7B], bytes [0x7B, 0x02, 0x04, 0x03],
    bytes [0x7B, 0x03, 0x09, 0x03, 0x01], bytes [0x7B, 0x04, 0x04, 0x03, 0x01]],
    let s : State := { at' .idle (reads.map itemOf) with cfg := smallCfg }
    s.inbound.starts (reads.map itemOf) = true ∧ (s.inbound.drop reads.length).head? = none ∧
    (decodeRxf s.cfg reads).isOk = true := by decide
/-- 257 reads of a line that goes on for ever. -/
theorem witness_ReaderRefinesTheDecoder_infinite :
    let rest := bytes (List.replicate 256 0x55)
    let reads := some (0x55 : Byte) :: rest
    let s : State := { s0 with inbound := { items := reads.map itemOf, after := some 0 } }
    257 ≤ reads.length ∧ s.inbound.starts (reads.map itemOf) = true ∧
    decodeRxf s.cfg reads = .ok (.nostart 0x55, rest) := ⟨by
    show 257 ≤ (some (0x55 : Byte) :: (List.replicate 256 0x55).map some).length
    rw [List.length_cons, List.length_map, List.length_replicate], Feed.starts_listed _ _, rfl⟩
theorem witness_NoisyLine : let s := at' .idle [.byte 0x55, .byte 0x00, .byte 0x7B]
    (∀ b ∈ [(0x55 : Byte), 0x00], b ≠ 0x7B) ∧ s.pc = .idle ∧ s.rst = .silent ∧ s.hostq = .silent ∧ s.tmr = 0 ∧
    s.inbound.starts ([(0x55 : Byte), 0x00].map .byte) = true := by decide
theorem witness_BufferIsWrittenOnlyWithinCapacity :
    let s : State := { at' .rxPayload [.byte 4] with L := 3 }
    s.buf.wf = true ∧ rstAsserted s = false ∧ isNext (step s) = true ∧ (got s (step s)).buf.read 0 ≠ s.buf.read 0 := by decide
/-- The three clauses: another command, channel 0 and 9, channel 1 and 8. -/
theorem witness_UnknownCommands : ∀ p ∈ [[(0x05 : Byte), 3, 1], [4, 0, 1], [4, 9, 1], [4, 1, 1], [4, 8, 1]],
    rstAsserted (handed p) = false ∧ (handed p).pc = .dispatch ∧ (handed p).cfg.decBase + 3 ≤ (handed p).L.toNat ∧
    (handed p).L.toNat ≤ (handed p).cfg.bufCap ∧ (handed p).buf.read 1 = p.getD 1 0 := by decide
theorem witness_ShortAndUnpressed : (handed [4, 3]).L.toNat < (handed [4, 3]).cfg.decBase + 3 ∧
    (handed [4, 3, 0]).cfg.decBase + 3 ≤ (handed [4, 3, 0]).L.toNat ∧ (handed [4, 3, 0]).buf.read 0 = 0x04 ∧
    (handed [4, 3, 0]).buf.read 2 ≠ 0x01 ∧ (handed [4, 3, 0]).L.toNat ≤ (handed [4, 3, 0]).cfg.bufCap ∧
    rstAsserted (handed [4, 3, 0]) = false := by decide
theorem witness_PressLeavesAtMostOneOn : isNext (exec (.swevPress 3 2) { s0 with ch := on [0, 4, 7] }) = true := by decide
theorem witness_PressTwice : let s : State := { s0 with ch := on [4] }
    let t := got s (exec (.swevPress 3 2) s)
    isNext (exec (.swevPress 3 2) s) = true ∧ isNext (exec (.swevPress 4 2) { s0 with ch := t.ch }) = true := by decide
theorem witness_HostCalls : ∀ b : Bool, let s : State := { s0 with pc := .host, togC := 2, togOn := b }
    rstAsserted s = false ∧ s.pc = .host ∧ s.togOn = b := by decide
theorem witness_ChannelTableChanges : let s := handed [4, 3, 1]
    isNext (step s) = true ∧ (got s (step s)).ch ≠ s.ch ∧
    (got s0 (step { s0 with ch := on [2], rst := .ofList [true] })).ch ≠ on [2] := by decide
theorem witness_BuiltFrame : isNext (exec (.stat 0 7 true) s0) = true := by decide
/-- A transport that is not ready at two samples. -/
theorem witness_SevenBytes :
    let s : State := { s0 with pc := .tx, txBusy := true, txReady := .ofList [true, false, true, true, true, false, true, true, true, true] }
    s.pc = .tx ∧ s.txBusy = true ∧ s.txi = 0 ∧ s.rst = .silent ∧ [true, false, true, true, true, false, true, true].count true = 6 ∧
    s.txReady.starts ([true, false, true, true, true, false, true, true] ++ [true]) = true := by decide
theorem witness_TransmitStall : ∀ w ∈ [[], [false]], let s : State := { s0 with pc := .tx, txi := 6, txBusy := true, txReady := .ofList w }
    s.pc = .tx ∧ s.txBusy = true ∧ s.rst = .silent ∧ rstAsserted s = false ∧ isNext (step s) = true ∧
    (∀ k, k < 3 → (s.txReady.drop k).head? ≠ some true) := by decide
theorem witness_OwedFrames :
    let s : State := { s0 with pc := .tx, nq := [⟨2, true⟩, ⟨4, false⟩], txReady := .ofList (List.replicate 14 true) }
    s.pc = .tx ∧ s.txBusy = false ∧ s.rst = .silent ∧ s.txReady.starts (List.replicate (7 * s.nq.length) true) = true := by decide
theorem witness_OutboundStream : NoReset 1 s0 ∧ s0.trace = [] ∧ run 1 s0.resetRegs = .next s0.resetRegs :=
  ⟨by decide, rfl, rfl⟩
/-- From reset a press frame and a transport that takes one byte: the run stands at TX with six bytes to send. -/
theorem witness_OutboundStream_cut :
    let e : State := { at' .idle [.byte 0x7B, .byte 0x03, .byte 0x04, .byte 0x03, .byte 0x01] with txReady := .ofList [true] }
    isNext (run 10 e.resetRegs) = true ∧ (got e (run 10 e.resetRegs)).txi = 1 ∧
    sent (got e (run 10 e.resetRegs)) = [0x7B] := by decide
/-- Channel 8 is pressed while channel 1 is on (G4). -/
theorem witness_PressFrameEndToEnd :
    let s : State := { at' .idle [.byte 0x7B, .byte 0x03, .byte 0x04, .byte 0x08, .byte 0x01] with
      ch := on [0], txReady := .ofList (List.replicate 14 true) }
    s.pc = .idle ∧ s.hostq = .silent ∧ s.rst = .silent ∧ s.cfg.rxCsumEn = false ∧ s.cfg.decBase = 0 ∧ 3 ≤ s.cfg.bufCap ∧
    s.buf.wf = true ∧ s.inbound.starts [.byte 0x7B, .byte 0x03, .byte 0x04, .byte (chanNumber 7), .byte 0x01] = true ∧
    s.txReady.starts (List.replicate (7 * (({ c := 7, on := !s.ch[7] } : Notif) ::
      (channels.filter fun j : Chan => decide (j ≠ 7) && s.ch[j]).map fun j => { c := j, on := false }).length) true) = true := by
  decide
theorem witness_Csum_perm : [(0x00 : Byte), 5, 3, 1].Perm [3, 0, 5, 1] := by decide
theorem witness_ImportThenExport :
    let s : State := { s0 with hostq := .ofList [encodeHop (.cfgImport true eff0), encodeHop .cfgExport] }
    s.pc = .idle ∧ s.rst = .silent ∧ s.hostq.starts [encodeHop (.cfgImport true eff0), encodeHop .cfgExport] = true := by decide
theorem witness_EffectTableChanges : let s : State := { s0 with hostq := .ofList [⟨0b01, true, 0⟩] }
    isNext (step s) = true ∧ (got s (step s)).eff ≠ s.eff := by decide
theorem witness_ResetEndsAnyOperation : ∀ p : Pos, p ∈ [.idle, .rxStart, .rxLen, .rxPayload, .rxCsum, .dispatch, .tx, .host] →
    rstAsserted { s0 with pc := p, rst := .ofList [true] } = true := by decide
/-- A state at TX in which the invariant holds, and its step. -/
def sending : State :=
  { s0 with pc := .tx, ch := on [2], togC := 2, togOn := true, txBusy := true, txf := statusFrame 0 2 true, nq := [⟨4, false⟩] }
theorem witness_InvariantIsKept : Inv sending ∧ isNext (step sending) = true :=
  ⟨{ bufWf := rfl
     bufBound := fun _ h => absurd h List.not_mem_nil
     exclusive := by unfold AtMostOneOn; decide
     owedAtTx := fun h => absurd rfl h
     owedAtMostTwo := by decide
     loop := fun h => Pos.noConfusion h
     stage := fun h => Pos.noConfusion h
     handed := fun h => Pos.noConfusion h
     toggled := by decide
     frame := fun _ => ⟨0, 2, true, rfl⟩
     busyAtTx := fun _ => rfl
     timer := .inl rfl }, by decide⟩
theorem witness_Reachable : run 1 s0.resetRegs = .next s0.resetRegs ∧ s0.resetRegs.pc = .idle := ⟨rfl, rfl⟩
theorem witness_DeadRegisters : let t : State := { s0 with L := 7, cnt := 3, buf := [(1, 5)], txi := 2, togOn := true, txBusy := true }
    s0.pc = .idle ∧ s0.buf.wf = true ∧ t.buf.wf = true ∧ SameButDead s0 t ∧ s0 ≠ t :=
  ⟨rfl, rfl, rfl, ⟨rfl, rfl, rfl, rfl, rfl, rfl, rfl, rfl, rfl, rfl, rfl⟩, by decide⟩

/-- One step for each kind of event: a read byte, an expired read, a sent byte, the host calls, an export. -/
theorem witness_EventsBelongToTheirPositions : ∀ s ∈ [at' .rxLen [.byte 3], at' .rxLen [.gap],
    { s0 with pc := .tx, txBusy := true, txReady := .ofList [true] }, { s0 with pc := .host }, { s0 with hostq := .ofList [⟨0b11, false, 0⟩] }],
    isNext (step s) = true ∧ (got s (step s)).trace ≠ s.trace := by
  intro s hs
  rcases List.mem_cons.mp hs with rfl | hs
  · decide
  rcases List.mem_cons.mp hs with rfl | hs
  · decide
  rcases List.mem_cons.mp hs with rfl | hs
  · decide
  rcases List.mem_cons.mp hs with rfl | hs
  · exact ⟨rfl, by decide⟩
  rcases List.mem_cons.mp hs with rfl | hs
  · decide
  · exact absurd hs List.not_mem_nil
theorem witness_BlockingIsBoundedOverAnAttempt : let s := at' .rxStart [.tick, .byte 0x7B, .tick]
    s.pc = .rxStart ∧ s.rst = .silent ∧ s.tmr = 0 ∧ 0 < s.cfg.rxTimeout := by decide
/-- Vector A20: the clause on the time that passes. -/
theorem witness_Blocking_A20 : let s := at' .rxStart [.byte 0x7B, .byte 0xFF]
    s.pc = .rxStart ∧ s.rst = .silent ∧ s.tmr = 0 ∧ 0 < s.cfg.rxTimeout ∧ s.inbound = .ofList [.byte 0x7B, .byte 0xFF] ∧
    s.cfg.rxCsumEn = false := by decide
/-- Two steps at IDLE with samples that ask for nothing, of inputs that go on for ever. -/
theorem witness_QuietInputs :
    let s : State := { s0 with rst := { items := [false, false], after := some 0 }
                               hostq := { items := [noRequest, noRequest], after := some 0 } }
    NoReset 2 s ∧ ∀ k, k < 2 → ∀ p, (s.hostq.drop k).head? = some p → decodeHop p = .hopNone := by
  refine ⟨by decide, fun k hk p hp => ?_⟩
  match k with
  | 0 => exact Option.some.inj hp ▸ rfl
  | 1 => exact Option.some.inj hp ▸ rfl
  | _ + 2 => omega
/-- A step that builds a frame and one that sends a byte of it. -/
theorem witness_EveryStepKeepsTheOutboundStream : let s : State := { s0 with pc := .tx, nq := [⟨2, true⟩], txReady := .ofList [true] }
    let t := got s (step s)
    rstAsserted s = false ∧ isNext (step s) = true ∧ sent s ++ unsent s = frameBytes 0 [] ∧
    s.seq = 0 + BitVec.ofNat 8 ([] : List Notif).length ∧
    rstAsserted t = false ∧ isNext (step t) = true ∧ sent t ++ unsent t = frameBytes 0 [⟨2, true⟩] ∧
    t.seq = 0 + BitVec.ofNat 8 [(⟨2, true⟩ : Notif)].length := by decide

end Sys2Proof.Tests
end

/-! ## The proofs of the family 00_scope: parameters, the trace, quiet inputs, the power level -/

namespace Sys2Proof.Machine

/-! ### The power level (R11) -/

/-- Settles O34: the free value is taken only within the bound, and the spec's suggested 128 is within it. -/
theorem onPowerIsNeitherZeroNorFull : Obligations.OnPowerIsNeitherZeroNorFull := by
  unfold Obligations.OnPowerIsNeitherZeroNorFull Config.powerOnLevel
  split
  · next h => exact ⟨BitVec.lt_def.mp h.1, BitVec.lt_def.mp h.2⟩
  · decide

/-! ### The parameters (R9 to R12, R32) -/

/-- No instruction changes the parameters. -/
theorem exec_cfg {i : Instr} {s t : State} (h : exec i s = .next t) : t.cfg = s.cfg := by
  cases i with
  | cfgImport valid v => cases valid <;> cases h <;> rfl
  | _ => cases h; rfl

@[simp] theorem poll_cfg (s : State) : (poll s).cfg = s.cfg := by
  rcases poll_cases s with ⟨-, h⟩ | ⟨-, h⟩ <;> rw [h]

@[simp] theorem txWrite_cfg (s : State) : (txWrite s).cfg = s.cfg := by
  rcases txWrite_cases s with ⟨-, h⟩ | ⟨-, h⟩ <;> rw [h]

theorem storePayload_cfg {b : Byte} {s t : State} (h : storePayload b s = .next t) : t.cfg = s.cfg := by
  rw [storePayload_eq] at h
  cases h
  rfl

/-- No case of the sequencer changes the parameters. -/
theorem StepCase.cfg_eq {s t : State} (h : StepCase s t) : t.cfg = s.cfg := by
  cases h with
  | hostOp _ _ _ _ ht => exact exec_cfg ht
  | dispatched _ _ _ ht => exact exec_cfg ht
  | notified _ _ n _ _ ht => exact exec_cfg (i := .stat s.seq n.c n.on) ht
  | payloadByte _ _ _ _ ht => exact (storePayload_cfg ht).trans rfl
  | payloadExpired _ _ _ ht => exact (storePayload_cfg ht).trans rfl
  | polled _ _ ht => simp [ht]
  | offered _ _ ht => simp [ht]
  | checksumFailed _ ht =>
    rcases ht with ⟨-, rfl⟩ | ⟨_, -, -, rfl⟩
    · rfl
    · rfl
  | _ => subst_vars; rfl

/-- Settles O12: a reset keeps the parameters, and so does every case of the sequencer. -/
theorem parametersAreFixed : Obligations.ParametersAreFixed := by
  intro s t h
  rcases step_cases h with ⟨-, rfl⟩ | ⟨-, hc⟩
  · rfl
  · exact hc.cfg_eq

/-! ### The trace (R15, R61, R81, R156, R176) -/

/-- What an event says of the step from `s` to `t` that produces it: its position, and its value. -/
def EventFits (s t : State) : Event → Prop
  | .rx b => reading s = true ∧ s.inbound.head? = some (.byte b)
  | .rxNone => reading s = true ∧ readNow s = .expired
  | .tx b => s.pc = .tx ∧ s.txBusy = true ∧ b = s.txf[s.txi]
  | .setEffect e => s.pc = .host ∧ e = s.eff[s.togC]
  | .setPower p => s.pc = .host ∧ (p = 0 ∨ p = Config.powerOnLevel)
  | .directChange => s.pc = .host
  | .cfgResult _ => s.pc = .idle
  | .cfgExport v => s.pc = .idle ∧ v = s.eff
  | .statusExport p => s.pc = .idle ∧ p = statusPairs s.eff
  | .drop _ => t.pc = .idle ∧ t.ch = s.ch ∧ t.seq = s.seq

/-- The step from `s` to `t` appends events that fit it, at HOST with exactly one change signal. -/
def EmitsFitting (s t : State) : Prop :=
  ∃ es : List Event, t.trace = s.trace ++ es ∧ (∀ e ∈ es, EventFits s t e) ∧
    (s.pc = .host → es.count .directChange = 1)

/-- No event depends on the sample of the reset input. -/
theorem eventFits_sampleRst {s t : State} {e : Event} : EventFits s.sampleRst t e ↔ EventFits s t e := by
  cases e <;> exact Iff.rfl

section Emits
variable {s t u : State}

theorem emitsFitting_of_trace_eq (hpc : s.pc ≠ .host) (h : t.trace = s.trace) : EmitsFitting s t :=
  ⟨[], by simp [h], by simp, fun hp => absurd hp hpc⟩

theorem emitsFitting_of_one {e : Event} (hpc : s.pc ≠ .host) (h : t.trace = s.trace ++ [e]) (he : EventFits s t e) :
    EmitsFitting s t :=
  ⟨[e], h, List.forall_mem_singleton.mpr he, fun hp => absurd hp hpc⟩

/-- Raising a condition adds its ghost event, and keeps what the step has produced before. -/
theorem emitsFitting_raise {es : List Event} (c : Cond) (hpc : s.pc ≠ .host) (h : u.trace = s.trace ++ es)
    (hes : ∀ e ∈ es, EventFits s (raise u c) e) (hch : u.ch = s.ch) (hseq : u.seq = s.seq) :
    EmitsFitting s (raise u c) := by
  refine ⟨es ++ [.drop c], by simp [h], fun e he => ?_, fun hp => absurd hp hpc⟩
  rcases List.mem_append.mp he with he | he
  · exact hes e he
  · rw [List.mem_singleton.mp he]
    exact ⟨rfl, hch, hseq⟩

/-- A condition raised with nothing read in the same step. -/
theorem emitsFitting_raise_self (c : Cond) (hpc : s.pc ≠ .host) : EmitsFitting s (raise s c) :=
  emitsFitting_raise (es := []) c hpc (by simp) (by simp) rfl rfl

/-- No read is outstanding at HOST. -/
theorem pc_ne_host_of_reading (hr : reading s = true) : s.pc ≠ .host := by
  intro hp
  simp [reading, hp] at hr

theorem eventFits_rx {b : Byte} (hr : reading s = true) (hn : readNow s = .got b) : EventFits s t (.rx b) :=
  ⟨hr, readNow_got.mp hn⟩

/-- A read that returns a byte, with no other event in its step. -/
theorem emitsFitting_rx {b : Byte} (hr : reading s = true) (hn : readNow s = .got b)
    (ht : t.trace = s.trace ++ [.rx b]) : EmitsFitting s t :=
  emitsFitting_of_one (pc_ne_host_of_reading hr) ht (eventFits_rx hr hn)

/-- A read that expires, with no other event in its step. -/
theorem emitsFitting_rxNone (hr : reading s = true) (hn : readNow s = .expired)
    (ht : t.trace = s.trace ++ [.rxNone]) : EmitsFitting s t :=
  emitsFitting_of_one (e := .rxNone) (pc_ne_host_of_reading hr) ht ⟨hr, hn⟩

/-- A read that returns a byte on which a condition is raised. -/
theorem emitsFitting_raise_takeByte {b : Byte} (c : Cond) (hr : reading s = true) (hn : readNow s = .got b) :
    EmitsFitting s (raise (s.takeByte b) c) :=
  emitsFitting_raise c (pc_ne_host_of_reading hr) (State.takeByte_trace s b)
    (List.forall_mem_singleton.mpr (eventFits_rx hr hn)) rfl rfl

/-- A read whose expiry raises a condition. -/
theorem emitsFitting_raise_expireRead (c : Cond) (hr : reading s = true) (hn : readNow s = .expired) :
    EmitsFitting s (raise s.expireRead c) :=
  emitsFitting_raise c (pc_ne_host_of_reading hr) (State.expireRead_trace s)
    (List.forall_mem_singleton.mpr ⟨hr, hn⟩) rfl rfl

theorem storePayload_trace {b : Byte} (h : storePayload b s = .next t) : t.trace = s.trace := by
  rw [storePayload_eq] at h
  cases h
  rfl

/-- A host operation's result is its own, and a failed import's ghost event leaves the core at IDLE. -/
theorem emitsFitting_hostOp (hpc : s.pc = .idle) (hne : decodeHop (hostPort s) ≠ .hopNone)
    (ht : exec (decodeHop (hostPort s)) s = .next t) : EmitsFitting s t := by
  obtain ⟨eff, es, rfl, -, hes⟩ := hostOp_cases hne ht
  refine ⟨es, rfl, fun e he => ?_, fun hp => by simp [hpc] at hp⟩
  rcases hes e he with ⟨r, rfl⟩ | rfl | rfl | rfl
  · exact hpc
  · exact ⟨hpc, rfl⟩
  · exact ⟨hpc, rfl⟩
  · exact ⟨hpc, rfl, rfl⟩

theorem emitsFitting_poll (hpc : s.pc = .idle) : EmitsFitting s (poll s.hostDone) := by
  refine emitsFitting_of_trace_eq (by simp [hpc]) ?_
  rcases poll_cases s.hostDone with ⟨-, h⟩ | ⟨-, h⟩
  · rw [h]; rfl
  · rw [h]; rfl

theorem emitsFitting_txWrite (hpc : s.pc = .tx) (hx : s.txBusy = true) : EmitsFitting s (txWrite s) := by
  rcases txWrite_cases s with ⟨-, h⟩ | ⟨-, h⟩
  · exact emitsFitting_of_one (e := .tx (txByte s)) (by simp [hpc]) (by rw [h]) ⟨hpc, hx, rfl⟩
  · exact emitsFitting_of_trace_eq (by simp [hpc]) (by rw [h])

/-- The host calls of a toggle end with the one change signal, whether the channel turns on or off. -/
theorem emitsFitting_hostWrites (hpc : s.pc = .host) : EmitsFitting s (hostWrites s) := by
  refine ⟨hostCalls s, rfl, ?_, fun _ => ?_⟩
  · unfold hostCalls
    split
    · simp [EventFits, hpc]
    · simp [EventFits, hpc]
  · unfold hostCalls
    split
    · rfl
    · rfl

/-- Every case of the sequencer emits events that fit it. -/
theorem StepCase.emitsFitting (h : StepCase s t) : EmitsFitting s t := by
  cases h with
  | hostOp hpc i hi hne ht =>
    subst hi
    exact emitsFitting_hostOp hpc hne ht
  | polled hpc _ ht => exact ht ▸ emitsFitting_poll hpc
  | waited hr _ ht => exact emitsFitting_of_trace_eq (pc_ne_host_of_reading hr) (by simp [ht])
  | startExpired hpc hn ht => exact ht ▸ emitsFitting_raise_expireRead _ (by simp [reading, hpc]) hn
  | startAccepted hpc hn ht => exact emitsFitting_rx (by simp [reading, hpc]) hn (ht ▸ rfl)
  | nostart hpc b _ hn ht => exact ht ▸ emitsFitting_raise_takeByte _ (by simp [reading, hpc]) hn
  | nolen hpc hn ht => exact ht ▸ emitsFitting_raise_expireRead _ (by simp [reading, hpc]) hn
  | lengthAccepted hpc b hn ht => exact emitsFitting_rx (by simp [reading, hpc]) hn (ht ▸ rfl)
  | payloadByte hpc hne b hn ht => exact emitsFitting_rx (by simp [reading, hpc, hne]) hn (storePayload_trace ht)
  | payloadExpired hpc hne hn ht => exact emitsFitting_rxNone (by simp [reading, hpc, hne]) hn (storePayload_trace ht)
  | toChecksum hpc _ _ ht => exact emitsFitting_of_trace_eq (by simp [hpc]) (by rw [ht])
  | overlen hpc _ _ _ ht => exact ht ▸ emitsFitting_raise_self _ (by simp [hpc])
  | handedOff hpc _ _ _ ht => exact emitsFitting_of_trace_eq (by simp [hpc]) (by simp [ht])
  | checksumFailed hpc ht =>
    rcases ht with ⟨hn, rfl⟩ | ⟨b, hn, -, rfl⟩
    · exact emitsFitting_raise_expireRead _ (by simp [reading, hpc]) hn
    · exact emitsFitting_raise_takeByte _ (by simp [reading, hpc]) hn
  | checksumOverlen hpc hn _ ht => exact ht ▸ emitsFitting_raise_takeByte _ (by simp [reading, hpc]) hn
  | checksumHandedOff hpc hn _ ht => exact emitsFitting_rx (by simp [reading, hpc]) hn (by simp [ht])
  | dispatched hpc i hi ht =>
    rcases dispatch_cases hi ht with ⟨c, rfl⟩ | ⟨c, -, hp⟩
    · exact emitsFitting_raise_self c (by simp [hpc])
    · cases hp
      exact emitsFitting_of_trace_eq (by simp [hpc]) rfl
  | offered hpc hx ht => exact ht ▸ emitsFitting_txWrite hpc hx
  | notified hpc _ n _ _ ht =>
    cases ht
    exact emitsFitting_of_trace_eq (by simp [hpc]) rfl
  | allSent hpc _ _ ht => exact emitsFitting_of_trace_eq (by simp [hpc]) (by simp [ht])
  | hostCalled hpc ht => exact ht ▸ emitsFitting_hostWrites hpc

/-- Every step appends events that fit it; at HOST, unless a reset comes first, with exactly one change signal. -/
theorem step_emitsFitting (h : step s = .next t) : ∃ es : List Event, t.trace = s.trace ++ es ∧
    (∀ e ∈ es, EventFits s t e) ∧ (s.pc = .host → rstAsserted s = false → es.count .directChange = 1) := by
  rcases step_cases h with ⟨hr, rfl⟩ | ⟨-, hc⟩
  · exact ⟨[], by simp, by simp, fun _ hn => by simp [hr] at hn⟩
  · obtain ⟨es, htr, hfit, hone⟩ := hc.emitsFitting
    exact ⟨es, htr, fun e he => eventFits_sampleRst.mp (hfit e he), fun hp _ => hone hp⟩

end Emits

/-- Settles O50: each clause reads off what the kind of event says of the step. -/
theorem eventsBelongToTheirPositions : Obligations.EventsBelongToTheirPositions := by
  intro s t h
  obtain ⟨es, htr, hfit, hone⟩ := step_emitsFitting h
  exact ⟨es, htr, fun b => hfit (.rx b), hfit .rxNone, fun b => hfit (.tx b), fun e => hfit (.setEffect e),
    fun p => hfit (.setPower p), hone, fun hpc he => hpc (hfit .directChange he), fun c => hfit (.drop c),
    fun r => hfit (.cfgResult r), fun v => hfit (.cfgExport v), fun p => hfit (.statusExport p)⟩

/-! ### Quiet inputs (R16, R206, R260) -/

/-- `s` with other reset and host inputs. -/
def State.withInputs (s : State) (r : Feed Config.rstAt) (h : Feed Config.hostPortAt) : State :=
  { s with rst := r, hostq := h }

section WithInputs
variable (s : State) (r : Feed Config.rstAt) (h : Feed Config.hostPortAt)

@[simp] theorem State.withInputs_pc : (s.withInputs r h).pc = s.pc := rfl
@[simp] theorem State.withInputs_seq : (s.withInputs r h).seq = s.seq := rfl
@[simp] theorem State.withInputs_nq : (s.withInputs r h).nq = s.nq := rfl
@[simp] theorem State.withInputs_txBusy : (s.withInputs r h).txBusy = s.txBusy := rfl
@[simp] theorem State.withInputs_rst : (s.withInputs r h).rst = r := rfl
@[simp] theorem State.withInputs_hostq : (s.withInputs r h).hostq = h := rfl

@[simp] theorem State.withInputs_withInputs (r' : Feed Config.rstAt) (h' : Feed Config.hostPortAt) :
    (s.withInputs r h).withInputs r' h' = s.withInputs r' h' := rfl

@[simp] theorem rxAvail_withInputs : rxAvail (s.withInputs r h) = rxAvail s := rfl

@[simp] theorem readNow_withInputs : readNow (s.withInputs r h) = readNow s := rfl

@[simp] theorem decodeBuffer_withInputs : decodeBuffer (s.withInputs r h) = decodeBuffer s := rfl

@[simp] theorem poll_withInputs : poll (s.withInputs r h) = (poll s).withInputs r h := by
  unfold poll
  rw [rxAvail_withInputs]
  split
  · rfl
  · rfl

@[simp] theorem txWrite_withInputs : txWrite (s.withInputs r h) = (txWrite s).withInputs r h := by
  rcases txWrite_cases s with ⟨hr, hs⟩ | ⟨hr, hs⟩
  · rw [hs]
    exact ((txWrite_cases (s.withInputs r h)).resolve_right fun hn => hn.1 hr).2
  · rw [hs]
    exact ((txWrite_cases (s.withInputs r h)).resolve_left fun hn => hr hn.1).2

end WithInputs

/-- The action `f` takes at `s` answers a next state, and neither reads nor changes the reset and host inputs. -/
def IgnoresInputs (f : State → Action) (s : State) : Prop :=
  ∃ t : State, ∀ r h, perform (f (s.withInputs r h)) = .next (t.withInputs r h)

/-- What equals an action that ignores the inputs, whatever the inputs are, ignores them too. -/
theorem IgnoresInputs.of_eq {f g : State → Action} {s u : State} (hg : IgnoresInputs g u)
    (hfg : ∀ r h, f (s.withInputs r h) = g (u.withInputs r h)) : IgnoresInputs f s := by
  obtain ⟨t, ht⟩ := hg
  exact ⟨t, fun r h => by rw [hfg, ht]⟩

/-- A move whose next state has the inputs of the present one. -/
theorem ignoresInputs_move {f : State → Action} {s : State} (t : State)
    (hf : ∀ r h, f (s.withInputs r h) = .move (.next (t.withInputs r h))) : IgnoresInputs f s :=
  ⟨t, fun r h => by rw [hf]; rfl⟩

theorem classifyFields_format (len cmd chan status : Byte) : (classifyFields len cmd chan status).format = .rxf := by
  unfold classifyFields
  split
  · rfl
  split
  · rfl
  split
  · rfl
  · rfl

/-- The decoder names inbound classes only. -/
theorem decodeBuffer_format {s : State} {i : Instr} (hi : decodeBuffer s = .ok i) : i.format = .rxf := by
  by_cases hl : s.cfg.bufCap < s.L.toNat
  · rw [decodeBuffer_of_overlen hl] at hi
    cases hi
    rfl
  by_cases hs : s.L.toNat < s.cfg.decBase + 3
  · rw [decodeBuffer_of_short hs (by omega)] at hi
    cases hi
    rfl
  · rw [decodeBuffer_of_decodable (by simp [Config.decodable]; omega)] at hi
    cases hi
    exact classifyFields_format ..

/-- Only the host operations take a sample of the host port. -/
theorem run_ignoresInputs {i : Instr} (hi : i.format ≠ .hop) (s : State) : IgnoresInputs (.run i) s := by
  obtain ⟨t, ht⟩ := exec_answers_next i s
  refine ⟨t, fun r h => ?_⟩
  cases i with
  | cfgImport valid v => exact absurd rfl hi
  | cfgExport => exact absurd rfl hi
  | statusExport => exact absurd rfl hi
  | hopNone => exact absurd rfl hi
  | _ => cases ht; rfl

theorem storePayload_ignoresInputs (b : Byte) (s : State) : IgnoresInputs (fun s => .move (storePayload b s)) s := by
  obtain ⟨t, ht⟩ : ∃ t, storePayload b s = .next t := ⟨_, storePayload_eq b s⟩
  refine ignoresInputs_move t fun r h => ?_
  rw [storePayload_eq] at ht ⊢
  cases ht
  rfl

theorem handOff_ignoresInputs (s : State) : IgnoresInputs handOff s := by
  by_cases hl : s.cfg.bufCap < s.L.toNat
  · exact (run_ignoresInputs (i := .overlen s.L) nofun s).of_eq fun _ _ => if_pos hl
  · exact ignoresInputs_move (s.goto .dispatch) fun _ _ => if_neg hl

theorem atStart_ignoresInputs (s : State) : IgnoresInputs atStart s := by
  cases hn : readNow s with
  | waiting => exact ignoresInputs_move s.tickOn fun r h => by rw [atStart, readNow_withInputs, hn]; rfl
  | expired =>
    exact ignoresInputs_move (raise s.expireRead .startTimeout) fun r h => by
      rw [atStart, readNow_withInputs, hn]; rfl
  | got b =>
    by_cases hb : b = startByte
    · exact ignoresInputs_move (acceptStart b s) fun r h => by
        rw [atStart, readNow_withInputs, hn]; exact if_pos hb
    · exact (run_ignoresInputs (i := .nostart b) nofun s).of_eq fun r h => by
        rw [atStart, readNow_withInputs, hn]; exact if_neg hb

theorem atLen_ignoresInputs (s : State) : IgnoresInputs atLen s := by
  cases hn : readNow s with
  | waiting => exact ignoresInputs_move s.tickOn fun r h => by rw [atLen, readNow_withInputs, hn]; rfl
  | expired =>
    exact (run_ignoresInputs (i := .nolen) nofun s).of_eq fun r h => by rw [atLen, readNow_withInputs, hn]
  | got b => exact ignoresInputs_move (acceptLength b s) fun r h => by rw [atLen, readNow_withInputs, hn]; rfl

theorem atPayload_ignoresInputs (s : State) : IgnoresInputs atPayload s := by
  by_cases he : s.cnt = s.L
  · by_cases hc : s.cfg.rxCsumEn = true
    · exact ignoresInputs_move { s with pc := .rxCsum, tmr := 0 } fun _ _ => (if_pos he).trans (if_pos hc)
    · exact (handOff_ignoresInputs s).of_eq fun _ _ => (if_pos he).trans (if_neg hc)
  · have hread (r h) : atPayload (s.withInputs r h) = _ := if_neg he
    cases hn : readNow s with
    | waiting => exact ignoresInputs_move s.tickOn fun r h => by rw [hread, readNow_withInputs, hn]; rfl
    | expired =>
      exact (storePayload_ignoresInputs s.cfg.sentinel s.expireRead).of_eq fun r h => by
        rw [hread, readNow_withInputs, hn]; rfl
    | got b =>
      exact (storePayload_ignoresInputs b (s.takeByte b)).of_eq fun r h => by
        rw [hread, readNow_withInputs, hn]; rfl

theorem atCsum_ignoresInputs (s : State) : IgnoresInputs atCsum s := by
  cases hn : readNow s with
  | waiting => exact ignoresInputs_move s.tickOn fun r h => by rw [atCsum, readNow_withInputs, hn]; rfl
  | expired =>
    exact ignoresInputs_move (raise s.expireRead .csum) fun r h => by rw [atCsum, readNow_withInputs, hn]; rfl
  | got b =>
    by_cases hb : b = s.racc
    · exact (handOff_ignoresInputs (s.takeByte b)).of_eq fun r h => by
        rw [atCsum, readNow_withInputs, hn]; exact if_pos hb
    · exact ignoresInputs_move (raise (s.takeByte b) .csum) fun r h => by
        rw [atCsum, readNow_withInputs, hn]; exact if_neg hb

theorem atDispatch_ignoresInputs (s : State) : IgnoresInputs atDispatch s := by
  obtain ⟨i, hi⟩ := decodeBuffer_total s
  exact (run_ignoresInputs (i := i) (by simp [decodeBuffer_format hi]) s).of_eq fun r h => by
    rw [atDispatch, decodeBuffer_withInputs, hi]

theorem atTx_ignoresInputs (s : State) : IgnoresInputs atTx s := by
  cases hx : s.txBusy with
  | true => exact ignoresInputs_move (txWrite s) fun r h => by simp [atTx, hx]
  | false =>
    cases hq : s.nq with
    | nil => exact ignoresInputs_move (s.goto .host) fun r h => by simp [atTx, hx, hq]; rfl
    | cons n rest =>
      exact (run_ignoresInputs (i := .stat s.seq n.c n.on) nofun s).of_eq fun r h => by simp [atTx, hx, hq]

theorem atHost_ignoresInputs (s : State) : IgnoresInputs atHost s :=
  ignoresInputs_move (hostWrites s) fun _ _ => rfl

/-- At every position but IDLE the sequencer ignores the reset and host inputs. -/
theorem action_ignoresInputs {s : State} (hpc : s.pc ≠ .idle) : IgnoresInputs action s := by
  cases hp : s.pc with
  | idle => exact absurd hp hpc
  | rxStart => exact (atStart_ignoresInputs s).of_eq fun r h => by simp [action, hp]
  | rxLen => exact (atLen_ignoresInputs s).of_eq fun r h => by simp [action, hp]
  | rxPayload => exact (atPayload_ignoresInputs s).of_eq fun r h => by simp [action, hp]
  | rxCsum => exact (atCsum_ignoresInputs s).of_eq fun r h => by simp [action, hp]
  | dispatch => exact (atDispatch_ignoresInputs s).of_eq fun r h => by simp [action, hp]
  | tx => exact (atTx_ignoresInputs s).of_eq fun r h => by simp [action, hp]
  | host => exact (atHost_ignoresInputs s).of_eq fun r h => by simp [action, hp]

/-- At IDLE a sample that requests nothing is taken, and the availability check is made. -/
theorem perform_action_idle {s : State} (hpc : s.pc = .idle) (hq : decodeHop (hostPort s) = .hopNone) :
    perform (action s) = .next (poll (s.withInputs s.rst s.hostq.tail)) := by
  simp only [action, hpc, atIdle, hq]
  rfl

/-- The next sample of the host port, if one comes, requests nothing: then this evaluation requests nothing. -/
theorem decodeHop_hostPort_of_quiet {s : State} (hq : ∀ p, s.hostq.head? = some p → decodeHop p = .hopNone) :
    decodeHop (hostPort s) = .hopNone := by
  unfold hostPort
  cases hh : s.hostq.head? with
  | none => rfl
  | some p => exact hq p hh

/-- One step with quiet inputs is the step with silent ones, but for the samples taken. -/
theorem step_of_quietInputs {s : State} (hr : s.rst.head? ≠ some true)
    (hq : ∀ p, s.hostq.head? = some p → decodeHop p = .hopNone) :
    ∃ (t : State) (m : Nat), m ≤ 1 ∧
      step (s.withInputs .silent .silent) = .next (t.withInputs .silent .silent) ∧
      step s = .next (t.withInputs s.rst.tail (s.hostq.drop m)) := by
  have hsilent : step (s.withInputs .silent .silent) = perform (action (s.withInputs .silent .silent)) :=
    step_of_quiet rfl
  have hsampled : step s = perform (action (s.withInputs s.rst.tail s.hostq)) :=
    step_of_noReset (Bool.eq_false_iff.mpr (mt rstAsserted_eq_true.mp hr))
  by_cases hpc : s.pc = .idle
  · refine ⟨poll s, 1, Nat.le_refl 1, ?_, ?_⟩
    · rw [hsilent, perform_action_idle (s := s.withInputs .silent .silent) hpc rfl]
      simp
    · rw [hsampled, perform_action_idle (s := s.withInputs s.rst.tail s.hostq) hpc (decodeHop_hostPort_of_quiet hq)]
      simp
  · obtain ⟨t, ht⟩ := action_ignoresInputs hpc
    exact ⟨t, 0, Nat.zero_le 1, hsilent.trans (ht _ _), hsampled.trans (ht _ _)⟩

/-- A run with quiet inputs is the run with silent ones, but for the samples taken: one of reset a step, and of the host
port at most as many. -/
theorem run_of_quietInputs {n : Nat} {s : State} (hr : NoReset n s)
    (hq : ∀ k, k < n → ∀ p, (s.hostq.drop k).head? = some p → decodeHop p = .hopNone) :
    ∃ (t : State) (m : Nat), m ≤ n ∧
      run n (s.withInputs .silent .silent) = .next (t.withInputs .silent .silent) ∧
      run n s = .next (t.withInputs (s.rst.drop n) (s.hostq.drop m)) := by
  induction n generalizing s with
  | zero => exact ⟨s, 0, Nat.le_refl 0, rfl, rfl⟩
  | succ n ih =>
    obtain ⟨u, m, hm, hsilent, hsampled⟩ := step_of_quietInputs (hr 0 n.succ_pos) (hq 0 n.succ_pos)
    have hqu (k : Nat) (hk : k < n) (p : HostPort) (hp : ((s.hostq.drop m).drop k).head? = some p) :
        decodeHop p = .hopNone :=
      hq (m + k) (by omega) p (by rwa [Feed.drop_add])
    obtain ⟨t, m', hm', htsilent, htsampled⟩ := ih (s := u.withInputs s.rst.tail (s.hostq.drop m))
      (fun k hk => hr (k + 1) (Nat.succ_lt_succ hk)) hqu
    refine ⟨t, m + m', by omega, ?_, ?_⟩
    · rw [run_of_step hsilent]
      exact htsilent
    · rw [run_of_step hsampled, htsampled, Feed.drop_add m]
      rfl

/-- Settles O60, by the induction on the number of steps of `run_of_quietInputs`. -/
theorem quietInputsChangeNothing : Obligations.QuietInputsChangeNothing := by
  intro s n hr hq
  obtain ⟨t, m, hm, hsilent, hsampled⟩ := run_of_quietInputs hr hq
  exact ⟨t.withInputs .silent .silent, m, hm, hsilent, hsampled⟩

end Sys2Proof.Machine

/-! ## The proofs of the family 10_state: the invariant, the sequencer, the tables, the timer, reset -/

namespace Sys2Proof.Machine

/-! ### The channel table after a toggle (R34, R153, R159) -/

/-- Whatever the table before, after a toggle at most the addressed channel is on. -/
theorem atMostOneOn_toggleChannels (ch : Table Bool) (c : Chan) : AtMostOneOn (toggleChannels ch c).1 := by
  have on_addressed (k : Chan) (hk : (toggleChannels ch c).1[k] = true) : k = c := by
    rw [toggleChannels_table] at hk
    by_contra hne
    simp [hne] at hk
  intro i j hi hj
  rw [on_addressed i hi, on_addressed j hj]

/-- With at most one channel on before, at most one is forced off: a toggle owes one or two notifications. -/
theorem toggleChannels_owed_length {ch : Table Bool} (h : AtMostOneOn ch) (c : Chan) :
    (toggleChannels ch c).2.length ≤ 2 := by
  have hforced : (channels.filter fun j => decide (j ≠ c) && ch[j]).length ≤ 1 := by
    have hnodup : (channels.filter fun j => decide (j ≠ c) && ch[j]).Nodup := List.Nodup.filter _ (by decide)
    rw [← List.toFinset_card_of_nodup hnodup, Finset.card_le_one]
    intro i hi j hj
    simp only [List.mem_toFinset, List.mem_filter, Bool.and_eq_true] at hi hj
    exact h i j hi.2.2 hj.2.2
  rw [toggleChannels_owed, List.length_cons, List.length_map]
  omega

/-! ### The invariant: one rule for each operation on the state -/

theorem inv_resetRegs (s : State) : Inv s.resetRegs where
  bufWf := rfl
  bufBound := fun _ hc => absurd hc List.not_mem_nil
  exclusive := fun i _ hi _ => by simp at hi
  owedAtTx := fun _ => rfl
  owedAtMostTwo := Nat.zero_le 2
  loop := nofun
  stage := nofun
  handed := nofun
  toggled := nofun
  frame := nofun
  busyAtTx := nofun
  timer := .inl rfl

section Inv
variable {s t : State}

theorem Inv.sampleRst (h : Inv s) : Inv s.sampleRst := { h with }

theorem Inv.emit (h : Inv s) (es : List Event) : Inv (s.emit es) := { h with }

theorem Inv.hostDone (h : Inv s) : Inv s.hostDone := { h with }

theorem Inv.passTime (h : Inv s) : Inv s.passTime := { h with }

theorem Inv.takeByte (h : Inv s) (b : Byte) : Inv (s.takeByte b) := { h with timer := .inl rfl }

theorem Inv.expireRead (h : Inv s) : Inv s.expireRead := { h with timer := .inl rfl }

theorem Inv.clearTimer (h : Inv s) : Inv { s with tmr := 0 } := { h with timer := .inl rfl }

/-- A read that stays outstanding leaves the timer below the timeout (R28). -/
theorem Inv.tickOn (h : Inv s) (hw : readNow s = .waiting) : Inv s.tickOn :=
  { h with timer := .inr (readNow_waiting.mp hw).2 }

/-- The sequencer may go to a position of the read path from any position but TX, if what that position asks for holds. -/
theorem Inv.goto {p : Pos} (h : Inv s) (hs : s.pc ≠ .tx) (hp : p ≠ .tx ∧ p ≠ .host)
    (hloop : p = .rxPayload → s.cnt.toNat ≤ s.L.toNat)
    (hstage : p = .rxCsum → s.cnt = s.L ∧ s.cfg.rxCsumEn = true)
    (hhanded : p = .dispatch → s.cnt = s.L ∧ s.L.toNat ≤ s.cfg.bufCap) : Inv (s.goto p) :=
  { h with
    owedAtTx := fun _ => h.owedAtTx hs
    loop := hloop
    stage := hstage
    handed := hhanded
    toggled := fun hpc => absurd hpc (not_or.mpr hp)
    busyAtTx := fun hx => absurd (h.busyAtTx hx) hs }

theorem Inv.goto_idle (h : Inv s) (hs : s.pc ≠ .tx) : Inv (s.goto .idle) :=
  h.goto hs ⟨nofun, nofun⟩ nofun nofun nofun

/-- A frame handed to the decoder is whole and within the bound (R109, R111). -/
theorem Inv.goto_dispatch (h : Inv s) (hs : s.pc ≠ .tx) (he : s.cnt = s.L) (hl : s.L.toNat ≤ s.cfg.bufCap) :
    Inv (s.goto .dispatch) :=
  h.goto hs ⟨nofun, nofun⟩ nofun nofun fun _ => ⟨he, hl⟩

theorem Inv.raise (h : Inv s) (hs : s.pc ≠ .tx) (c : Cond) : Inv (raise s c) :=
  (h.emit [.drop c]).goto_idle hs

theorem Inv.poll (h : Inv s) (hs : s.pc = .idle) : Inv (poll s) := by
  rcases poll_cases s with ⟨-, hp⟩ | ⟨-, hp⟩
  · rw [hp]
    exact h.clearTimer.goto (p := .rxStart) (by simp [hs]) ⟨nofun, nofun⟩ nofun nofun nofun
  · rw [hp]
    exact h.passTime

theorem Inv.hostOp (h : Inv s) (hne : decodeHop (hostPort s) ≠ .hopNone)
    (ht : exec (decodeHop (hostPort s)) s = .next t) : Inv t := by
  obtain ⟨eff, es, rfl, -, -⟩ := hostOp_cases hne ht
  exact { h with }

/-- The payload loop begins with nothing read (R104). -/
theorem Inv.acceptLength (h : Inv s) (hs : s.pc = .rxLen) (b : Byte) : Inv (acceptLength b s) :=
  { h.takeByte b with
    owedAtTx := fun _ => h.owedAtTx (by simp [hs])
    loop := fun _ => Nat.zero_le _
    stage := nofun
    handed := nofun
    toggled := nofun
    busyAtTx := fun hx => absurd (h.busyAtTx hx) (by simp [hs]) }

/-- A payload byte is written only within the capacity, and counted only up to the declared length (R106, R108). -/
theorem Inv.storePayload {b : Byte} (h : Inv s) (hs : s.pc = .rxPayload) (hne : s.cnt ≠ s.L)
    (ht : storePayload b s = .next t) : Inv t := by
  rw [storePayload_eq] at ht
  cases ht
  have hle := h.loop hs
  exact
    { h with
      bufWf := by
        dsimp only
        split
        · exact Memory.wf_write h.bufWf _ _
        · exact h.bufWf
      bufBound := by
        dsimp only
        split
        · next hlt => exact Memory.bound_write h.bufBound hlt b
        · exact h.bufBound
      loop := fun _ => by
        dsimp only
        bv_omega
      stage := fun hp => by simp [hs] at hp
      handed := fun hp => by simp [hs] at hp }

/-- A press owes one or two notifications, and leaves the addressed channel with its new state and every other off. -/
theorem Inv.execSwevPress {c : Chan} (h : Inv s) (ht : execSwevPress c s = .next t) : Inv t := by
  cases ht
  exact
    { h with
      exclusive := atMostOneOn_toggleChannels s.ch c
      owedAtTx := fun hp => absurd rfl hp
      owedAtMostTwo := toggleChannels_owed_length h.exclusive c
      loop := nofun
      stage := nofun
      handed := nofun
      toggled := fun _ j => by
        rw [toggleChannels_table]
        by_cases hj : j = c
        · simp [hj]
        · simp [hj]
      frame := nofun
      busyAtTx := nofun }

/-- What STAT puts at the transport is a status frame, and one notification less is owed. -/
theorem Inv.execStat {c : Chan} {on : Bool} (h : Inv s) (hs : s.pc = .tx) (ht : execStat c on s = .next t) : Inv t := by
  cases ht
  exact
    { h with
      owedAtTx := fun hp => absurd rfl hp
      owedAtMostTwo := (List.length_tail ▸ Nat.sub_le _ 1).trans h.owedAtMostTwo
      loop := nofun
      stage := nofun
      handed := nofun
      toggled := fun _ => h.toggled (.inl hs)
      frame := fun _ => ⟨s.seq, c, on, rfl⟩
      busyAtTx := fun _ => rfl }

/-- The transport takes bytes of the frame that stands there; it changes no frame. -/
theorem Inv.txWrite (h : Inv s) (hs : s.pc = .tx) (hx : s.txBusy = true) : Inv (txWrite s) := by
  rcases txWrite_cases s with ⟨-, hw⟩ | ⟨-, hw⟩
  · rw [hw]
    exact { h with frame := fun _ => h.frame hx, busyAtTx := fun _ => hs }
  · rw [hw]
    exact { h with }

/-- With nothing owed and no byte outstanding, the toggle goes on to its host calls. -/
theorem Inv.goto_host (h : Inv s) (hs : s.pc = .tx) (hx : s.txBusy = false) (hq : s.nq = []) : Inv (s.goto .host) :=
  { h with
    owedAtTx := fun _ => hq
    loop := nofun
    stage := nofun
    handed := nofun
    toggled := fun _ => h.toggled (.inl hs)
    busyAtTx := fun hb => by simp [hx] at hb }

/-- Every case of the sequencer keeps the invariant. -/
theorem StepCase.inv (hc : StepCase s t) (h : Inv s) : Inv t := by
  cases hc with
  | hostOp hpc i hi hne ht =>
    subst hi
    exact h.hostOp hne ht
  | polled hpc _ ht => exact ht ▸ h.hostDone.poll hpc
  | waited _ hw ht => exact ht ▸ h.tickOn hw
  | startExpired hpc _ ht => exact ht ▸ h.expireRead.raise (by simp [hpc]) _
  | startAccepted hpc _ ht => exact ht ▸ (h.takeByte _).goto (by simp [hpc]) ⟨nofun, nofun⟩ nofun nofun nofun
  | nostart hpc b _ _ ht => exact ht ▸ (h.takeByte b).raise (by simp [hpc]) _
  | nolen hpc _ ht => exact ht ▸ h.expireRead.raise (by simp [hpc]) _
  | lengthAccepted hpc b _ ht => exact ht ▸ h.acceptLength hpc b
  | payloadByte hpc hne b _ ht => exact (h.takeByte b).storePayload hpc hne ht
  | payloadExpired hpc hne _ ht => exact h.expireRead.storePayload hpc hne ht
  | toChecksum hpc he hen ht =>
    exact ht ▸ h.clearTimer.goto (p := .rxCsum) (by simp [hpc]) ⟨nofun, nofun⟩ nofun (fun _ => ⟨he, hen⟩) nofun
  | overlen hpc _ _ _ ht => exact ht ▸ h.raise (by simp [hpc]) _
  | handedOff hpc he _ hl ht => exact ht ▸ h.goto_dispatch (by simp [hpc]) he hl
  | checksumFailed hpc ht =>
    rcases ht with ⟨-, rfl⟩ | ⟨b, -, -, rfl⟩
    · exact h.expireRead.raise (by simp [hpc]) _
    · exact (h.takeByte b).raise (by simp [hpc]) _
  | checksumOverlen hpc _ _ ht => exact ht ▸ (h.takeByte _).raise (by simp [hpc]) _
  | checksumHandedOff hpc _ hl ht => exact ht ▸ (h.takeByte _).goto_dispatch (by simp [hpc]) (h.stage hpc).1 hl
  | dispatched hpc i hi ht =>
    rcases dispatch_cases hi ht with ⟨c, rfl⟩ | ⟨c, -, hp⟩
    · exact h.raise (by simp [hpc]) c
    · exact h.execSwevPress hp
  | offered hpc hx ht => exact ht ▸ h.txWrite hpc hx
  | notified hpc _ n rest _ ht => exact h.execStat hpc ht
  | allSent hpc hx hq ht => exact ht ▸ h.goto_host hpc hx hq
  | hostCalled hpc ht => exact ht ▸ (h.emit _).goto_idle (by simp [hpc])

end Inv

/-- Settles O54: a reset establishes the invariant, and every case of the sequencer keeps it. -/
theorem invariantIsKeptByEveryStep : Obligations.InvariantIsKeptByEveryStep := by
  intro s t h hstep
  rcases step_cases hstep with ⟨-, rfl⟩ | ⟨-, hc⟩
  · exact inv_resetRegs _
  · exact hc.inv h.sampleRst

/-- Settles O53: the host's reset state is a state with its registers reset. -/
theorem invariantHoldsAtReset : Obligations.InvariantHoldsAtReset :=
  ⟨inv_resetRegs State.reset, inv_resetRegs⟩

/-- Settles O55: the invariant holds at reset and along every run; a press needs nothing of the state before. -/
theorem reachableStatesHaveAtMostOneOn : Obligations.ReachableStatesHaveAtMostOneOn := by
  refine ⟨fun e t n h => ?_, fun s t len c h => ?_⟩
  · exact (run_keeps invariantIsKeptByEveryStep (inv_resetRegs e) h).exclusive
  · cases h
    exact atMostOneOn_toggleChannels s.ch c

/-- Settles O51: each value stands in the reset state as the spec gives it. -/
theorem resetHasTheStatedValues : Obligations.ResetHasTheStatedValues := by
  refine ⟨?_, rfl, ?_, rfl, rfl, rfl, rfl⟩
  · simp [State.reset]
  · simp [State.reset]

/-! ### The sequencer's positions (R24, R36) -/

/-- The positions that may follow `p` in a step without a reset: later stages of the same operation or IDLE, the checksum
stage only when enabled (R24). -/
def MayFollow (cfg : Config) (p q : Pos) : Prop :=
  match p with
  | .idle => q = .idle ∨ q = .rxStart
  | .rxStart => q = .rxStart ∨ q = .rxLen ∨ q = .idle
  | .rxLen => q = .rxLen ∨ q = .rxPayload ∨ q = .idle
  | .rxPayload => q = .rxPayload ∨ (q = .rxCsum ∧ cfg.rxCsumEn = true) ∨ q = .dispatch ∨ q = .idle
  | .rxCsum => q = .rxCsum ∨ q = .dispatch ∨ q = .idle
  | .dispatch => q = .tx ∨ q = .idle
  | .tx => q = .tx ∨ q = .host
  | .host => q = .idle

section Positions
variable {s t : State}

/-- A raised condition may end any stage of the read path. -/
theorem mayFollow_idle {cfg : Config} {p : Pos} (hp : p ≠ .tx) : MayFollow cfg p .idle := by
  cases p with
  | tx => exact absurd rfl hp
  | _ => simp [MayFollow]

/-- A position that waits for the outside may stay as it is. -/
theorem mayFollow_self {cfg : Config} {p : Pos} (hd : p ≠ .dispatch) (hh : p ≠ .host) : MayFollow cfg p p := by
  cases p with
  | dispatch => exact absurd rfl hd
  | host => exact absurd rfl hh
  | _ => simp [MayFollow]

theorem pc_ne_dispatch_of_reading (hr : reading s = true) : s.pc ≠ .dispatch := by
  intro hp
  simp [reading, hp] at hr

theorem storePayload_pc {b : Byte} (h : storePayload b s = .next t) : t.pc = s.pc := by
  rw [storePayload_eq] at h
  cases h
  rfl

@[simp] theorem txWrite_pc (s : State) : (txWrite s).pc = s.pc := by
  rcases txWrite_cases s with ⟨-, h⟩ | ⟨-, h⟩ <;> rw [h]

/-- Every case of the sequencer goes to a position that may follow. -/
theorem StepCase.mayFollow (hc : StepCase s t) : MayFollow s.cfg s.pc t.pc := by
  cases hc with
  | hostOp hpc i hi hne ht =>
    subst hi
    obtain ⟨eff, es, rfl, -, -⟩ := hostOp_cases hne ht
    exact mayFollow_self (by simp [hpc]) (by simp [hpc])
  | polled hpc _ ht =>
    rw [hpc]
    rcases poll_cases s.hostDone with ⟨-, hp⟩ | ⟨-, hp⟩
    · exact .inr (by rw [ht, hp])
    · exact .inl (by rw [ht, hp]; exact hpc)
  | waited hr _ ht => exact ht ▸ mayFollow_self (pc_ne_dispatch_of_reading hr) (pc_ne_host_of_reading hr)
  | startExpired hpc _ ht => exact ht ▸ mayFollow_idle (by simp [hpc])
  | startAccepted hpc _ ht =>
    rw [hpc]
    exact .inr (.inl (ht ▸ rfl))
  | nostart hpc _ _ _ ht => exact ht ▸ mayFollow_idle (by simp [hpc])
  | nolen hpc _ ht => exact ht ▸ mayFollow_idle (by simp [hpc])
  | lengthAccepted hpc _ _ ht =>
    rw [hpc]
    exact .inr (.inl (ht ▸ rfl))
  | payloadByte hpc _ _ _ ht =>
    rw [hpc]
    exact .inl ((storePayload_pc ht).trans hpc)
  | payloadExpired hpc _ _ ht =>
    rw [hpc]
    exact .inl ((storePayload_pc ht).trans hpc)
  | toChecksum hpc _ hen ht =>
    rw [hpc]
    exact .inr (.inl ⟨ht ▸ rfl, hen⟩)
  | overlen hpc _ _ _ ht => exact ht ▸ mayFollow_idle (by simp [hpc])
  | handedOff hpc _ _ _ ht =>
    rw [hpc]
    exact .inr (.inr (.inl (ht ▸ rfl)))
  | checksumFailed hpc ht =>
    rcases ht with ⟨-, rfl⟩ | ⟨_, -, -, rfl⟩
    · exact mayFollow_idle (by simp [hpc])
    · exact mayFollow_idle (by simp [hpc])
  | checksumOverlen hpc _ _ ht => exact ht ▸ mayFollow_idle (by simp [hpc])
  | checksumHandedOff hpc _ _ ht =>
    rw [hpc]
    exact .inr (.inl (ht ▸ rfl))
  | dispatched hpc i hi ht =>
    rcases dispatch_cases hi ht with ⟨c, rfl⟩ | ⟨c, -, hp⟩
    · exact mayFollow_idle (by simp [hpc])
    · cases hp
      rw [hpc]
      exact .inl rfl
  | offered hpc _ ht =>
    rw [ht, txWrite_pc]
    exact mayFollow_self (by simp [hpc]) (by simp [hpc])
  | notified hpc _ _ _ _ ht =>
    cases ht
    rw [hpc]
    exact .inl rfl
  | allSent hpc _ _ ht =>
    rw [hpc]
    exact .inr (ht ▸ rfl)
  | hostCalled hpc ht => exact ht ▸ mayFollow_idle (by simp [hpc])

end Positions

/-- Settles O11: without a reset, the step is one of the sequencer's cases. -/
theorem sequencerMovesForwardOnly : Obligations.SequencerMovesForwardOnly := by
  intro s t hr h
  rcases step_cases h with ⟨hr', -⟩ | ⟨-, hc⟩
  · simp [hr] at hr'
  · exact hc.mayFollow

/-! ### What changes the channel table, the sequence counter and the effect table (R21 to R23, R36) -/

/-- The next step without a reset builds a status frame: at TX with no byte outstanding and a notification owed. -/
def BuildsFrame (s : State) : Prop := s.pc = .tx ∧ s.txBusy = false ∧ s.nq ≠ []

/-- The ways a step without a reset treats the three tables: it keeps all, or changes one in its own place. -/
inductive TableCase (s t : State) : Prop
  | kept (hb : ¬ BuildsFrame s) (hch : t.ch = s.ch) (hseq : t.seq = s.seq) (heff : t.eff = s.eff)
  /-- A host operation: only an import writes the effect table. -/
  | served (hpc : s.pc = .idle) (hop : t.eff ≠ s.eff → (hostPort s).op = 0b01) (hch : t.ch = s.ch) (hseq : t.seq = s.seq)
  | pressed (hpc : s.pc = .dispatch) (c : Chan) (hi : decodeBuffer s = .ok (.swevPress s.L c)) (hc : t.ch[c] = !s.ch[c])
      (hseq : t.seq = s.seq) (heff : t.eff = s.eff)
  | built (hb : BuildsFrame s) (hch : t.ch = s.ch) (hseq : t.seq = s.seq + 1) (heff : t.eff = s.eff)

section Tables
variable {s t u : State}

theorem not_buildsFrame_of_pc (hs : s.pc ≠ .tx) : ¬ BuildsFrame s := fun hb => hs hb.1

/-- Away from TX no frame is built. -/
theorem TableCase.kept_of_pc (hs : s.pc ≠ .tx) (hch : t.ch = s.ch) (hseq : t.seq = s.seq) (heff : t.eff = s.eff) :
    TableCase s t :=
  .kept (not_buildsFrame_of_pc hs) hch hseq heff

/-- A payload byte goes to the frame buffer, not to the tables. -/
theorem tableCase_storePayload {b : Byte} (hs : s.pc ≠ .tx) (hch : u.ch = s.ch) (hseq : u.seq = s.seq)
    (heff : u.eff = s.eff) (ht : storePayload b u = .next t) : TableCase s t := by
  rw [storePayload_eq] at ht
  cases ht
  exact .kept_of_pc hs hch hseq heff

theorem tableCase_poll (hs : s.pc = .idle) : TableCase s (poll s.hostDone) := by
  rcases poll_cases s.hostDone with ⟨-, hp⟩ | ⟨-, hp⟩
  · rw [hp]
    exact .kept_of_pc (by simp [hs]) rfl rfl rfl
  · rw [hp]
    exact .kept_of_pc (by simp [hs]) rfl rfl rfl

theorem tableCase_txWrite (hx : s.txBusy = true) : TableCase s (txWrite s) := by
  have hb : ¬ BuildsFrame s := fun hb => by simp [hb.2.1] at hx
  rcases txWrite_cases s with ⟨-, hw⟩ | ⟨-, hw⟩
  · rw [hw]
    exact .kept hb rfl rfl rfl
  · rw [hw]
    exact .kept hb rfl rfl rfl

/-- Every case of the sequencer treats the tables in one of these ways. -/
theorem StepCase.tableCase (hc : StepCase s t) : TableCase s t := by
  cases hc with
  | hostOp hpc i hi hne ht =>
    subst hi
    obtain ⟨eff, es, rfl, hop, -⟩ := hostOp_cases hne ht
    exact .served hpc hop rfl rfl
  | polled hpc _ ht => exact ht ▸ tableCase_poll hpc
  | waited hr _ ht => exact ht ▸ .kept_of_pc (fun hp => by simp [reading, hp] at hr) rfl rfl rfl
  | payloadByte hpc _ b _ ht => exact tableCase_storePayload (u := s.takeByte b) (by simp [hpc]) rfl rfl rfl ht
  | payloadExpired hpc _ _ ht => exact tableCase_storePayload (u := s.expireRead) (by simp [hpc]) rfl rfl rfl ht
  | checksumFailed hpc ht =>
    rcases ht with ⟨-, rfl⟩ | ⟨b, -, -, rfl⟩
    · exact .kept_of_pc (by simp [hpc]) rfl rfl rfl
    · exact .kept_of_pc (by simp [hpc]) rfl rfl rfl
  | dispatched hpc i hi ht =>
    rcases dispatch_cases hi ht with ⟨c, rfl⟩ | ⟨c, rfl, hp⟩
    · exact .kept_of_pc (by simp [hpc]) rfl rfl rfl
    · cases hp
      exact .pressed hpc c hi ((toggleChannels_table s.ch c c).trans (if_pos rfl)) rfl rfl
  | offered hpc hx ht => exact ht ▸ tableCase_txWrite hx
  | notified hpc hx n rest hq ht =>
    cases ht
    exact .built ⟨hpc, hx, by simp [hq]⟩ rfl rfl rfl
  | allSent hpc _ hq ht => exact ht ▸ .kept (fun hb => hb.2.2 hq) rfl rfl rfl
  | startExpired hpc _ ht | startAccepted hpc _ ht | nostart hpc _ _ _ ht | nolen hpc _ ht | lengthAccepted hpc _ _ ht
  | toChecksum hpc _ _ ht | overlen hpc _ _ _ ht | handedOff hpc _ _ _ ht | checksumOverlen hpc _ _ ht
  | checksumHandedOff hpc _ _ ht | hostCalled hpc ht =>
    exact ht ▸ .kept_of_pc (by simp [hpc]) rfl rfl rfl

/-- The sequence counter advances exactly where a frame is built. -/
theorem TableCase.seq_cases (h : TableCase s t) :
    (BuildsFrame s ∧ t.seq = s.seq + 1) ∨ (¬ BuildsFrame s ∧ t.seq = s.seq) := by
  cases h with
  | kept hb _ hseq => exact .inr ⟨hb, hseq⟩
  | served hpc _ _ hseq => exact .inr ⟨not_buildsFrame_of_pc (by simp [hpc]), hseq⟩
  | pressed hpc _ _ _ hseq => exact .inr ⟨not_buildsFrame_of_pc (by simp [hpc]), hseq⟩
  | built hb _ hseq => exact .inl ⟨hb, hseq⟩

end Tables

/-- Settles O35: of the cases of a step, only a press and a reset change the channel table. -/
theorem channelTableChangesOnlyByPress : Obligations.ChannelTableChangesOnlyByPress := by
  intro s t h hne
  rcases step_cases h with ⟨hr, -⟩ | ⟨-, hc⟩
  · exact .inl hr
  · cases hc.tableCase with
    | kept _ hch => exact absurd hch hne
    | served _ _ hch => exact absurd hch hne
    | built _ hch => exact absurd hch hne
    | pressed hpc c hi hflip => exact .inr ⟨hpc, c, hi, hflip⟩

/-- Settles O41: of the cases of a step, only the one that builds a frame advances the sequence counter. -/
theorem sequenceCounterCountsFrames : Obligations.SequenceCounterCountsFrames := by
  intro s t hr h
  rcases step_cases h with ⟨hr', -⟩ | ⟨-, hc⟩
  · simp [hr] at hr'
  · exact hc.tableCase.seq_cases.imp_left fun ⟨⟨hpc, hx, hq⟩, hseq⟩ => ⟨hpc, hx, hq, hseq⟩

/-- Settles O49: of the cases of a step, only an import and a reset change the effect table. -/
theorem effectTableChangesOnlyByImport : Obligations.EffectTableChangesOnlyByImport := by
  intro s t h hne
  rcases step_cases h with ⟨hr, -⟩ | ⟨-, hc⟩
  · exact .inl hr
  · cases hc.tableCase with
    | kept _ _ _ heff => exact absurd heff hne
    | pressed _ _ _ _ _ heff => exact absurd heff hne
    | built _ _ _ heff => exact absurd heff hne
    | served hpc hop => exact .inr ⟨hpc, hop hne⟩

/-! ### The timer of a read (R28, R230) -/

/-- What the sequencer does with the state `s` that a read's expiry has left at its position. -/
def afterExpiry (s : State) : Result :=
  match s.pc with
  | .rxStart => .next (raise s .startTimeout)
  | .rxLen => .next (raise s .lenTimeout)
  | .rxPayload => storePayload s.cfg.sentinel s
  | .rxCsum => .next (raise s .csum)
  | .idle => .next s
  | .dispatch => .next s
  | .tx => .next s
  | .host => .next s

section Timer
variable {s : State}

/-- An outstanding read that waits takes one time unit, at every reading position. -/
theorem perform_action_of_waiting (hr : reading s = true) (hw : readNow s = .waiting) :
    perform (action s) = .next s.tickOn := by
  cases hpc : s.pc with
  | rxStart => simp [action, hpc, atStart, hw, perform]
  | rxLen => simp [action, hpc, atLen, hw, perform]
  | rxPayload =>
    have hne : s.cnt ≠ s.L := by simpa [reading, hpc] using hr
    simp [action, hpc, atPayload, hne, hw, perform]
  | rxCsum => simp [action, hpc, atCsum, hw, perform]
  | _ => simp [reading, hpc] at hr

/-- An outstanding read that expires does so in the same way whatever has expired it. -/
theorem perform_action_of_expired (hr : reading s = true) (hn : readNow s = .expired) :
    perform (action s) = afterExpiry s.expireRead := by
  cases hpc : s.pc with
  | rxStart => simp [action, hpc, atStart, hn, perform, afterExpiry]
  | rxLen => simp [action, hpc, atLen, hn, perform, afterExpiry, exec, execNolen]
  | rxPayload =>
    have hne : s.cnt ≠ s.L := by simpa [reading, hpc] using hr
    simp [action, hpc, atPayload, hne, hn, perform, afterExpiry]
  | rxCsum => simp [action, hpc, atCsum, hn, perform, afterExpiry]
  | _ => simp [reading, hpc] at hr

theorem step_of_expired (hq : s.rst = .silent) (hr : reading s = true) (hn : readNow s = .expired) :
    step s = afterExpiry s.expireRead :=
  (step_of_quiet hq).trans (perform_action_of_expired hr hn)

/-- Ticks that leave the timer below the timeout only count in it. -/
theorem run_of_ticks {k : Nat} (hq : s.rst = .silent) (hr : reading s = true)
    (hk : s.inbound.starts (List.replicate k .tick) = true) (hlt : s.tmr + k < s.cfg.rxTimeout) :
    run k s = .next { s with inbound := s.inbound.drop k, tmr := s.tmr + k } := by
  induction k generalizing s with
  | zero => rfl
  | succ k ih =>
    rw [List.replicate_succ, Feed.starts_cons] at hk
    have hw : readNow s = .waiting := readNow_waiting.mpr ⟨hk.1, by omega⟩
    have hstep : step s = .next s.tickOn := (step_of_quiet hq).trans (perform_action_of_waiting hr hw)
    have hrest := ih (s := s.tickOn) hq hr hk.2 (by simp only [State.tickOn_tmr, State.tickOn_cfg]; omega)
    rw [run_of_step hstep, hrest]
    simp only [State.tickOn, Feed.drop_succ, Nat.add_right_comm s.tmr 1 k, Nat.add_assoc]

end Timer

/-- Settles O21: the ticks below the timeout by induction on their number; the last one expires the read as a gap does. -/
theorem timerExpiresTheRead : Obligations.TimerExpiresTheRead := by
  intro s hq hr
  refine ⟨fun k => run_of_ticks hq hr, fun htick hle => ?_⟩
  have hn : readNow s = .expired := by simp [readNow, htick, hle]
  have hgap : step { s with inbound := s.inbound.tail.push .gap } = afterExpiry s.expireRead :=
    step_of_expired (s := { s with inbound := s.inbound.tail.push .gap }) hq hr (readNow_gap rfl)
  rw [step_of_expired hq hr hn, hgap]

/-! ### The instruction at the sequencer's position -/

/-- Settles O8: without a reset the step is the action at the position, and at each of these the action is to run the
decoded instruction. -/
theorem stepRunsTheDecodedInstruction : Obligations.StepRunsTheDecodedInstruction := by
  intro s hr
  rw [step_of_noReset hr]
  refine ⟨fun hpc hne => ?_, fun hpc hi => ?_, fun hpc b hb hne => ?_, fun hpc hn => ?_, fun hpc he hc hl => ?_,
    fun hpc hb hl => ?_, fun hpc i hi => ?_, fun hpc hx n rest hq => ?_⟩
  · have hidle : action s.sampleRst = atIdle s.sampleRst := by simp [action, hpc]
    rw [hidle]
    unfold atIdle
    split
    · next hnone => exact absurd hnone hne
    · rfl
  · have hi' : decodeHop (hostPort s.sampleRst) = .hopNone := hi
    simp [action, hpc, atIdle, hi', perform]
  · have hn : readNow s.sampleRst = .got b := readNow_byte hb
    have hne' : b ≠ startByte := hne
    simp [action, hpc, atStart, hn, hne', perform]
  · have hn' : readNow s.sampleRst = .expired := hn
    simp [action, hpc, atLen, hn', perform]
  · simp [action, hpc, atPayload, he, hc, handOff, hl, perform]
  · have hn : readNow s.sampleRst = .got s.racc := readNow_byte hb
    simp [action, hpc, atCsum, hn, handOff, hl, perform]
  · have hi' : decodeBuffer s.sampleRst = .ok i := hi
    simp [action, hpc, atDispatch, hi', perform]
  · simp [action, hpc, atTx, hx, hq, perform]

end Sys2Proof.Machine

/-! ## The proofs of the family 20_memory: the environment's inputs, the outbound stream -/

namespace Sys2Proof.Machine

/-! ### The inbound line and the reset input (R16, R51, R116, R260) -/

/-- What the sequencer does to the inbound line and the reset input: it takes at most one inbound item, from the head, and
no sample of reset. -/
structure InputCase (s t : State) : Prop where
  inbound : t.inbound = s.inbound ∨ t.inbound = s.inbound.tail
  rst : t.rst = s.rst

section Inputs
variable {s t u : State}

/-- Storing a payload byte takes nothing beyond what its read has taken. -/
theorem InputCase.storePayload {b : Byte} (h : InputCase s u) (ht : storePayload b u = .next t) : InputCase s t := by
  rw [storePayload_eq] at ht
  cases ht
  exact ⟨h.inbound, h.rst⟩

theorem inputCase_poll (s : State) : InputCase s (poll s.hostDone) := by
  rcases poll_cases s.hostDone with ⟨-, hp⟩ | ⟨-, hp⟩
  · rw [hp]
    exact ⟨.inl rfl, rfl⟩
  · rw [hp]
    exact ⟨.inr rfl, rfl⟩

theorem inputCase_txWrite (s : State) : InputCase s (txWrite s) := by
  rcases txWrite_cases s with ⟨-, hw⟩ | ⟨-, hw⟩
  · rw [hw]
    exact ⟨.inl rfl, rfl⟩
  · rw [hw]
    exact ⟨.inl rfl, rfl⟩

/-- Every case of the sequencer takes at most one inbound item and no sample of reset. -/
theorem StepCase.inputCase (hc : StepCase s t) : InputCase s t := by
  cases hc with
  | hostOp _ i hi hne ht =>
    subst hi
    obtain ⟨eff, es, rfl, -, -⟩ := hostOp_cases hne ht
    exact ⟨.inl rfl, rfl⟩
  | polled _ _ ht => exact ht ▸ inputCase_poll s
  | payloadByte _ _ b _ ht => exact InputCase.storePayload (u := s.takeByte b) ⟨.inr rfl, rfl⟩ ht
  | payloadExpired _ _ _ ht => exact InputCase.storePayload (u := s.expireRead) ⟨.inr rfl, rfl⟩ ht
  | checksumFailed _ ht =>
    rcases ht with ⟨-, rfl⟩ | ⟨b, -, -, rfl⟩
    · exact ⟨.inr rfl, rfl⟩
    · exact ⟨.inr rfl, rfl⟩
  | dispatched _ i hi ht =>
    rcases dispatch_cases hi ht with ⟨c, rfl⟩ | ⟨c, -, hp⟩
    · exact ⟨.inl rfl, rfl⟩
    · cases hp
      exact ⟨.inl rfl, rfl⟩
  | offered _ _ ht => exact ht ▸ inputCase_txWrite s
  | notified _ _ n rest _ ht =>
    cases ht
    exact ⟨.inl rfl, rfl⟩
  | waited _ _ ht | startExpired _ _ ht | startAccepted _ _ ht | nostart _ _ _ _ ht | nolen _ _ ht
  | lengthAccepted _ _ _ ht | checksumOverlen _ _ _ ht | checksumHandedOff _ _ _ ht =>
    exact ht ▸ ⟨.inr rfl, rfl⟩
  | toChecksum _ _ _ ht | overlen _ _ _ _ ht | handedOff _ _ _ _ ht | allSent _ _ _ ht | hostCalled _ ht =>
    exact ht ▸ ⟨.inl rfl, rfl⟩

end Inputs

/-- Settles O25: a reset takes nothing from the line, a case of the sequencer at most its head; where the line supplies
nothing more, taking its head leaves it as it is. -/
theorem inboundIsConsumedInOrder : Obligations.InboundIsConsumedInOrder := by
  intro s t h
  rcases step_cases h with ⟨-, rfl⟩ | ⟨-, hc⟩
  · exact .inl rfl
  rcases hc.inputCase.inbound with hkept | htaken
  · exact .inl hkept
  cases hx : s.inbound.head? with
  | none => exact .inl (htaken.trans (Feed.tail_of_silent hx))
  | some x => exact .inr ⟨⟨x, rfl⟩, htaken⟩

/-- What holds at the start of a run in which no reset is asserted, and is kept by every step that no reset interrupts,
holds at its end. -/
theorem run_keeps_of_noReset {P : State → Prop}
    (hstep : ∀ s t, rstAsserted s = false → P s → step s = .next t → P t) {n : Nat} {s t : State} (hr : NoReset n s)
    (hs : P s) (h : run n s = .next t) : P t := by
  induction n generalizing s with
  | zero =>
    cases h
    exact hs
  | succ n ih =>
    have hnow : rstAsserted s = false := Bool.eq_false_iff.mpr (mt rstAsserted_eq_true.mp (hr 0 n.succ_pos))
    rw [run_succ] at h
    obtain ⟨u, hu, ht⟩ := andThen_eq_next h
    have hrst : u.rst = s.rst.tail := by
      rw [step_of_noReset hnow] at hu
      exact (action_cases hu).inputCase.rst
    have hlater : NoReset n u := fun k hk => hrst ▸ hr (k + 1) (Nat.succ_lt_succ hk)
    exact ih hlater (hstep s u hnow hs hu) ht

/-! ### The outbound stream (R61, R172 to R176) -/

/-- What a step without a reset does to the bytes that the transport has taken and those that stand there to be taken: none
comes, or the whole frame of the front notification. -/
inductive StreamCase (s t : State) : Prop
  | kept (hout : sent t ++ unsent t = sent s ++ unsent s) (hseq : t.seq = s.seq)
  | framed (n : Notif) (hn : s.nq.head? = some n)
      (hout : sent t ++ unsent t = sent s ++ unsent s ++ (statusFrame s.seq n.c n.on).toList) (hseq : t.seq = s.seq + 1)

/-- One more notification is one more frame, with the next sequence number. -/
theorem frameBytes_concat (q : Byte) (ns : List Notif) (n : Notif) :
    frameBytes q (ns ++ [n]) =
      frameBytes q ns ++ (statusFrame (q + BitVec.ofNat 8 ns.length) n.c n.on).toList := by
  induction ns generalizing q with
  | nil => simp [frameBytes]
  | cons m ms ih =>
    have hq : q + 1 + BitVec.ofNat 8 ms.length = q + BitVec.ofNat 8 (m :: ms).length := by
      rw [List.length_cons]
      bv_omega
    rw [List.cons_append, frameBytes, ih, hq, frameBytes, List.append_assoc]

section Stream
variable {s t : State}

theorem unsent_of_sending (hpc : s.pc = .tx) (hx : s.txBusy = true) : unsent s = s.txf.toList.drop s.txi.val :=
  if_pos ⟨hpc, hx⟩

theorem unsent_of_not_sending (h : ¬ (s.pc = .tx ∧ s.txBusy = true)) : unsent s = [] := if_neg h

theorem unsent_of_not_busy (hx : s.txBusy = false) : unsent s = [] := unsent_of_not_sending (by simp [hx])

theorem unsent_of_pc_ne_tx (hpc : s.pc ≠ .tx) : unsent s = [] := unsent_of_not_sending fun h => hpc h.1

/-- The byte outstanding at the transport is the first of those not taken yet. -/
theorem unsent_eq_cons (hpc : s.pc = .tx) (hx : s.txBusy = true) :
    unsent s = txByte s :: s.txf.toList.drop (s.txi.val + 1) := by
  rw [unsent_of_sending hpc hx, List.drop_eq_getElem_cons (by simp)]
  simp [txByte]

/-- A step with no byte outstanding sends none: a `Tx` event belongs to an outstanding byte (R176). -/
theorem EmitsFitting.sent_eq (h : EmitsFitting s t) (hs : ¬ (s.pc = .tx ∧ s.txBusy = true)) : sent t = sent s := by
  obtain ⟨es, htr, hfit, -⟩ := h
  have hnone : es.filterMap sentByte = [] := List.filterMap_eq_nil_iff.mpr fun e he => by
    cases e with
    | tx b => exact absurd ⟨(hfit _ he).1, (hfit _ he).2.1⟩ hs
    | _ => rfl
  rw [sent, htr, List.filterMap_append, hnone, List.append_nil, sent]

/-- TX is entered from DISPATCH only. -/
theorem MayFollow.ne_tx {cfg : Config} {p q : Pos} (h : MayFollow cfg p q) (hp : p ≠ .tx) (hd : p ≠ .dispatch) :
    q ≠ .tx := by
  rintro rfl
  cases p with
  | tx => exact hp rfl
  | dispatch => exact hd rfl
  | _ => simp [MayFollow] at h

/-- Away from TX a step sends nothing and builds no frame, so the stream is kept unless a byte stands at the transport
after it. -/
theorem StepCase.streamCase_of_pc_ne_tx (hc : StepCase s t) (hpc : s.pc ≠ .tx) (ht : unsent t = []) :
    StreamCase s t := by
  have hsent : sent t = sent s := hc.emitsFitting.sent_eq fun h => hpc h.1
  refine .kept (by rw [hsent, ht, unsent_of_pc_ne_tx hpc]) ?_
  rcases hc.tableCase.seq_cases with ⟨hb, -⟩ | ⟨-, hseq⟩
  · exact absurd hb.1 hpc
  · exact hseq

/-- The read path and the host calls have nothing to do with the stream. -/
theorem StepCase.streamCase_of_readPath (hc : StepCase s t) (hpc : s.pc ≠ .tx) (hd : s.pc ≠ .dispatch) :
    StreamCase s t :=
  hc.streamCase_of_pc_ne_tx hpc (unsent_of_pc_ne_tx (hc.mayFollow.ne_tx hpc hd))

/-- A press owes notifications, but no byte stands at the transport yet (log 3). -/
theorem StepCase.streamCase_of_dispatch (hc : StepCase s t) (hpc : s.pc = .dispatch) {i : Instr}
    (hi : decodeBuffer s = .ok i) (ht : exec i s = .next t) : StreamCase s t := by
  refine hc.streamCase_of_pc_ne_tx (by simp [hpc]) ?_
  rcases dispatch_cases hi ht with ⟨c, rfl⟩ | ⟨c, -, hp⟩
  · exact unsent_of_pc_ne_tx (by simp)
  · cases hp
    exact unsent_of_not_busy rfl

/-- After a byte that the transport takes, those behind it are left, and none after the seventh (R174). -/
theorem unsent_txWrite_of_ready (hpc : s.pc = .tx) (hx : s.txBusy = true) (hr : s.txReady.head? = some true) :
    unsent (txWrite s) = s.txf.toList.drop (s.txi.val + 1) := by
  rw [((txWrite_cases s).resolve_right fun hn => hn.1 hr).2]
  by_cases hlast : s.txi = 6
  · rw [unsent_of_not_busy (by simp [hlast])]
    simp [hlast]
  · have hnext : (s.txi + 1).val = s.txi.val + 1 := by omega
    rw [unsent_of_sending (by exact hpc) (by simp [hlast, hx])]
    simp [hlast, hnext]

/-- A byte that the transport takes goes from the bytes that stand there to those sent (R174, R175). -/
theorem streamCase_txWrite (hpc : s.pc = .tx) (hx : s.txBusy = true) : StreamCase s (txWrite s) := by
  rcases txWrite_cases s with ⟨hr, hw⟩ | ⟨-, hw⟩
  · have hsent : sent (txWrite s) = sent s ++ [txByte s] := by rw [hw]; exact List.filterMap_append
    refine .kept ?_ (by rw [hw])
    rw [hsent, unsent_txWrite_of_ready hpc hx hr, unsent_eq_cons hpc hx, List.append_assoc, List.singleton_append]
  · rw [hw]
    exact .kept rfl rfl

/-- STAT puts the whole frame of the front notification at the transport (R172, R174). -/
theorem streamCase_execStat {n : Notif} {rest : List Notif} (hx : s.txBusy = false) (hq : s.nq = n :: rest)
    (ht : execStat n.c n.on s = .next t) : StreamCase s t := by
  cases ht
  refine .framed n (by simp [hq]) ?_ rfl
  rw [unsent_of_not_busy hx, List.append_nil]
  rfl

/-- With nothing outstanding and nothing owed, TX ends without a byte. -/
theorem streamCase_goto_host (hx : s.txBusy = false) : StreamCase s (s.goto .host) := by
  refine .kept ?_ rfl
  rw [unsent_of_not_busy hx, unsent_of_not_busy (s := s.goto .host) hx]
  rfl

/-- Every case of the sequencer keeps the stream or adds the front notification's frame. -/
theorem StepCase.streamCase (hc : StepCase s t) : StreamCase s t := by
  have readPath := hc.streamCase_of_readPath
  have dispatch := hc.streamCase_of_dispatch
  cases hc with
  | offered hpc hx ht => exact ht ▸ streamCase_txWrite hpc hx
  | notified _ hx _ _ hq ht => exact streamCase_execStat hx hq ht
  | allSent _ hx _ ht => exact ht ▸ streamCase_goto_host hx
  | dispatched hpc _ hi ht => exact dispatch hpc hi ht
  | waited hr => exact readPath (fun hp => by simp [reading, hp] at hr) (pc_ne_dispatch_of_reading hr)
  | hostOp hpc | polled hpc | startExpired hpc | startAccepted hpc | nostart hpc | nolen hpc | lengthAccepted hpc
  | payloadByte hpc | payloadExpired hpc | toChecksum hpc | overlen hpc | handedOff hpc | checksumFailed hpc
  | checksumOverlen hpc | checksumHandedOff hpc | hostCalled hpc =>
    exact readPath (by simp [hpc]) (by simp [hpc])

end Stream

/-- Settles O58: a case that keeps the stream keeps the notifications it stands for; one that adds a frame adds it with the
number the counter holds, which is the next. -/
theorem everyStepKeepsTheOutboundStream : Obligations.EveryStepKeepsTheOutboundStream := by
  intro q ns s t hr h hout hseq
  rcases step_cases h with ⟨hr', -⟩ | ⟨-, hc⟩
  · simp [hr] at hr'
  cases hc.streamCase with
  | kept hkept hsame => exact ⟨ns, .inl rfl, hkept.trans hout, hsame.trans hseq⟩
  | framed n hn hframed hnext =>
    refine ⟨ns ++ [n], .inr ⟨n, hn, rfl⟩, ?_, ?_⟩
    · calc sent t ++ unsent t
        _ = sent s ++ unsent s ++ (statusFrame s.seq n.c n.on).toList := hframed
        _ = frameBytes q ns ++ (statusFrame (q + BitVec.ofNat 8 ns.length) n.c n.on).toList := by rw [hout, hseq]
        _ = frameBytes q (ns ++ [n]) := (frameBytes_concat q ns n).symm
    · calc t.seq
        _ = q + BitVec.ofNat 8 ns.length + 1 := by rw [hnext]; exact congrArg (· + 1) hseq
        _ = q + BitVec.ofNat 8 (ns ++ [n]).length := by rw [List.length_append, List.length_singleton]; bv_omega

/-- Settles O42: with nothing sent, the stream after reset is empty and the counter at `SEQ_RESET`; every step of a run
without a reset then keeps it whole frames, as O58 says. -/
theorem outboundStreamIsStatusFrames : Obligations.OutboundStreamIsStatusFrames := by
  intro e t n hr htr h
  refine run_keeps_of_noReset (s := e.resetRegs)
    (P := fun s => ∃ ns : List Notif, sent s ++ unsent s = frameBytes e.cfg.seqReset ns ∧
      s.seq = e.cfg.seqReset + BitVec.ofNat 8 ns.length) ?_ hr ⟨[], ?_, ?_⟩ h
  · rintro s u hnow ⟨ns, hout, hseq⟩ hstep
    obtain ⟨ns', -, hout', hseq'⟩ := everyStepKeepsTheOutboundStream _ ns s u hnow hstep hout hseq
    exact ⟨ns', hout', hseq'⟩
  · rw [unsent_of_not_busy rfl, sent, State.resetRegs_trace, htr]
    rfl
  · simp

end Sys2Proof.Machine

/-! ## The proofs of the family 30_encoding: the codecs of the two wire formats, loaded words, the reader as a refinement of
the decoder -/

namespace Sys2Proof

/-! ### The classes of an inbound frame (R80, R133 to R136) -/

section Classes
variable {cfg : Config} {len cmd chan status : Byte} {p : List Byte}

theorem classifyFields_of_cmd_ne (h : cmd ≠ cmdSwev) :
    classifyFields len cmd chan status = .rsvd len cmd chan status := if_pos h

theorem classifyFields_of_status_ne (h : status ≠ stPressed) :
    classifyFields len cmdSwev chan status = .swevNop len chan status := by
  simp [classifyFields, h]

theorem classifyFields_of_badChannel (h : channelInRange chan = false) :
    classifyFields len cmdSwev chan stPressed = .swevBadch len chan := by
  simp [classifyFields, chanOfNumber_eq_none.mpr h]

theorem classifyFields_of_channel (c : Chan) :
    classifyFields len cmdSwev (chanNumber c) stPressed = .swevPress len c := by
  simp [classifyFields]

theorem classify_of_overlen (h : cfg.bufCap < len.toNat) : classify cfg len p = .overlen len := if_pos h

theorem classify_of_short (h : len.toNat < cfg.decBase + 3) (hc : len.toNat ≤ cfg.bufCap) :
    classify cfg len p = .short len := by
  rw [classify, if_neg (by omega), if_pos h]

theorem decodable_iff : cfg.decodable len = true ↔ cfg.decBase + 3 ≤ len.toNat ∧ len.toNat ≤ cfg.bufCap := by
  simp [Config.decodable]

theorem classify_of_decodable (h : cfg.decodable len = true) :
    classify cfg len p =
      classifyFields len (p.getD cfg.decBase 0) (p.getD (cfg.decBase + 1) 0) (p.getD (cfg.decBase + 2) 0) := by
  obtain ⟨hlow, hcap⟩ := decodable_iff.mp h
  rw [classify, if_neg (by omega), if_neg (by omega)]

/-- The class of the encoder's payload is that of its three fields. -/
theorem classify_fieldPayload (h : cfg.decodable len = true) :
    classify cfg len (fieldPayload cfg len cmd chan status) = classifyFields len cmd chan status := by
  obtain ⟨hcmd, hchan, hstatus⟩ := fieldPayload_field cfg len cmd chan status 0
  rw [classify_of_decodable h, hcmd, hchan, hstatus]

end Classes

/-! ### The inbound decoder (R71, R80, R87, R115) -/

section Rxf
variable {cfg : Config} {len : Byte}

theorem decodeRxf_of_noMarker {b0 : Byte} (h : b0 ≠ startByte) (reads : List (Option Byte)) :
    decodeRxf cfg (some b0 :: reads) = .ok (.nostart b0, reads) := if_pos h

/-- Without the checksum stage the frame is classified from its payload, and exactly `L` reads belong to that. -/
theorem decodeRxf_of_noChecksum (hc : cfg.rxCsumEn = false) (reads : List (Option Byte)) :
    decodeRxf cfg (some startByte :: some len :: reads) =
      .ok (classify cfg len (takePayload cfg.sentinel len.toNat reads).1, reads.drop len.toNat) := by
  simp [decodeRxf, hc, takePayload_rest]

/-- A frame as the encoder writes it, with the right checksum byte where one is checked, is classified from its payload and
read to its end. -/
theorem decodeRxf_frameReads {p : List Byte} (hp : p.length = len.toNat) (tail : List (Option Byte)) :
    decodeRxf cfg (frameReads cfg len p ++ tail) = .ok (classify cfg len p, tail) := by
  have htake (rest : List (Option Byte)) : takePayload cfg.sentinel len.toNat (p.map some ++ rest) = (p, rest) :=
    hp ▸ takePayload_map_some ..
  cases hc : cfg.rxCsumEn with
  | false => simp [frameReads, decodeRxf, hc, htake]
  | true => simp [frameReads, decodeRxf, hc, htake]

/-- A frame with three fields decodes to the class of its fields. -/
theorem decodeRxf_fieldPayload (h : cfg.decodable len = true) (cmd chan status : Byte) (tail : List (Option Byte)) :
    decodeRxf cfg (frameReads cfg len (fieldPayload cfg len cmd chan status) ++ tail) =
      .ok (classifyFields len cmd chan status, tail) := by
  rw [decodeRxf_frameReads (fieldPayload_length (decodable_iff.mp h).1), classify_fieldPayload h]

/-- The ways the inbound decoder can read an instruction from the results `reads` of the timed reads and leave `after`. -/
inductive RxfCase (cfg : Config) : List (Option Byte) → Instr → List (Option Byte) → Prop
  | nostart (b0 : Byte) (hb : b0 ≠ startByte) (rest : List (Option Byte)) :
      RxfCase cfg (some b0 :: rest) (.nostart b0) rest
  /-- The length read expires, by a gap or because the line is silent. -/
  | nolen (rest : List (Option Byte)) (hr : rest.head?.getD none = none) :
      RxfCase cfg (some startByte :: rest) .nolen rest.tail
  | frame (len : Byte) (rest after : List (Option Byte))
      (hafter : cfg.rxCsumEn = false → after = rest.drop len.toNat) :
      RxfCase cfg (some startByte :: some len :: rest)
        (classify cfg len (takePayload cfg.sentinel len.toNat rest).1) after

/-- The inversion lemma of the inbound decoder. -/
theorem decodeRxf_cases {reads after : List (Option Byte)} {i : Instr} (h : decodeRxf cfg reads = .ok (i, after)) :
    RxfCase cfg reads i after := by
  match reads with
  | [] => cases h
  | none :: rest => cases h
  | some b0 :: rest =>
    by_cases hb : b0 = startByte
    · subst hb
      match rest with
      | [] =>
        cases h
        exact .nolen [] rfl
      | none :: rest =>
        cases h
        exact .nolen (none :: after) rfl
      | some len :: rest =>
        cases hc : cfg.rxCsumEn with
        | false =>
          rw [decodeRxf_of_noChecksum hc] at h
          cases h
          exact .frame len rest _ fun _ => rfl
        | true =>
          simp only [decodeRxf, ne_eq, not_true, if_false, hc, if_true] at h
          split at h
          · split at h
            · cases h
              exact .frame len rest after (by simp [hc])
            · cases h
          · cases h
    · rw [decodeRxf_of_noMarker hb] at h
      cases h
      exact .nostart b0 hb after

end Rxf

/-- Settles O1: a frame decodes to the class of its payload, and well-formedness says for each constructor which class the
encoder's payload has. -/
theorem rxfDecodeEncodeAgree : Obligations.RxfDecodeEncodeAgree := by
  intro cfg i tail hf hwf
  cases i with
  | nostart b0 => exact decodeRxf_of_noMarker (by simpa [Instr.wf] using hwf) tail
  | nolen => rfl
  | overlen len =>
    have hlen : cfg.bufCap < len.toNat := by simpa [Instr.wf] using hwf
    rw [encodeRxf, decodeRxf_frameReads (by simp), classify_of_overlen hlen]
  | short len =>
    obtain ⟨hlow, hcap⟩ : len.toNat < cfg.decBase + 3 ∧ len.toNat ≤ cfg.bufCap := by simpa [Instr.wf] using hwf
    rw [encodeRxf, decodeRxf_frameReads (by simp), classify_of_short hlow hcap]
  | rsvd len cmd chan status =>
    obtain ⟨hlen, hcmd⟩ : cfg.decodable len = true ∧ cmd ≠ cmdSwev := by simpa [Instr.wf] using hwf
    rw [encodeRxf, decodeRxf_fieldPayload hlen, classifyFields_of_cmd_ne hcmd]
  | swevNop len chan status =>
    obtain ⟨hlen, hstatus⟩ : cfg.decodable len = true ∧ status ≠ stPressed := by simpa [Instr.wf] using hwf
    rw [encodeRxf, decodeRxf_fieldPayload hlen, classifyFields_of_status_ne hstatus]
  | swevBadch len chan =>
    obtain ⟨hlen, hchan⟩ : cfg.decodable len = true ∧ channelInRange chan = false := by simpa [Instr.wf] using hwf
    rw [encodeRxf, decodeRxf_fieldPayload hlen, classifyFields_of_badChannel hchan]
  | swevPress len c => rw [encodeRxf, decodeRxf_fieldPayload hwf, classifyFields_of_channel]
  | stat | cfgImport | cfgExport | statusExport | hopNone => cases hf

/-- Settles O5: on this hardware the decoder classifies from the payload as stored, and each clause is one branch of the
classification. -/
theorem classesFollowTheTable : Obligations.ClassesFollowTheTable := by
  intro len reads pay hpay
  have hgot := decodeRxf_of_noChecksum (cfg := Config.hardware) (len := len) rfl reads
  refine ⟨fun hlen => ?_, fun hlen => ?_, fun hlow hcap => ?_⟩
  · exact hgot.trans (by rw [classify_of_overlen hlen])
  · exact hgot.trans (by rw [classify_of_short hlen (by simp only [Config.hardware]; omega)])
  have hfield (k : Nat) (hk : k < 3) : (takePayload Config.hardware.sentinel len.toNat reads).1.getD k 0 = pay k := by
    rw [takePayload_getD _ _ _ _ (by omega), hpay]
    rfl
  have hclass : classify Config.hardware len (takePayload Config.hardware.sentinel len.toNat reads).1 =
      classifyFields len (pay 0) (pay 1) (pay 2) := by
    rw [classify_of_decodable (decodable_iff.mpr ⟨hlow, hcap⟩), ← hfield 0 (by omega), ← hfield 1 (by omega),
      ← hfield 2 (by omega)]
    rfl
  rw [hclass] at hgot
  refine ⟨fun hcmd => ?_, fun hcmd hstatus => ?_, fun hcmd hstatus hchan => ?_, fun hcmd hstatus c hc => ?_⟩
  · rwa [classifyFields_of_cmd_ne hcmd] at hgot
  · rwa [hcmd, ← cmdSwev, classifyFields_of_status_ne hstatus] at hgot
  · have hrange : channelInRange (pay 1) = false := by
      rcases hchan with hzero | hhigh
      · rw [hzero]
        rfl
      · simp [channelInRange, hhigh]
    rwa [hcmd, hstatus, ← cmdSwev, ← stPressed, classifyFields_of_badChannel hrange] at hgot
  · have hnum : pay 1 = chanNumber c := BitVec.eq_of_toNat_eq (by rw [hc, chanNumber_toNat])
    rwa [hcmd, hstatus, hnum, ← cmdSwev, ← stPressed, classifyFields_of_channel] at hgot

/-- Settles O4: each word is decoded by evaluation. -/
theorem specWordsDecode : Obligations.SpecWordsDecode := by
  unfold Obligations.SpecWordsDecode
  decide

/-! ### The status frame (R72, R76, R77) -/

theorem statusFrame_toList (seq : Byte) (c : Chan) (on : Bool) : (statusFrame seq c on).toList =
    [startByte, txLen, seq, cmdStat, chanNumber c, stateByte on, csum8 [seq, cmdStat, chanNumber c, stateByte on]] :=
  rfl

/-- A status frame is read back from its bytes, whatever follows. -/
theorem decodeTxf_statusFrame (seq : Byte) (c : Chan) (on : Bool) (tail : List Byte) :
    decodeTxf ((statusFrame seq c on).toList ++ tail) = .ok (.stat seq c on, tail) := by
  cases on with
  | false => simp [statusFrame_toList, decodeTxf, stateByte]
  | true => simp [statusFrame_toList, decodeTxf, stateByte]

/-- A state byte that the decoder accepts is the one of the state it reads. -/
theorem stateByte_beq {state : Byte} (h : ¬ (state ≠ 0x00 ∧ state ≠ 0x01)) : stateByte (state == 0x01) = state := by
  by_cases h1 : state = 0x01
  · subst h1
    rfl
  · have h0 : state = 0x00 := by
      by_contra h0
      exact h ⟨h0, h1⟩
    subst h0
    rfl

/-- The inversion lemma of the outbound decoder: what it accepts begins with a status frame. -/
theorem decodeTxf_eq_ok {bytes tail : List Byte} {i : Instr} (h : decodeTxf bytes = .ok (i, tail)) :
    ∃ seq c on, i = .stat seq c on ∧ bytes = (statusFrame seq c on).toList ++ tail := by
  unfold decodeTxf at h
  split at h
  · next start len seq cmd chan state checksum rest =>
    split at h
    · cases h
    next hlit =>
    obtain ⟨rfl, rfl, rfl⟩ : start = startByte ∧ len = txLen ∧ cmd = cmdStat := by simpa using hlit
    split at h
    · cases h
    next c hchan =>
    obtain rfl := chanOfNumber_eq_some.mp hchan
    split at h
    · cases h
    next hstate =>
    split at h
    · next hsum =>
      obtain rfl := csumOk_iff.mp hsum
      cases h
      refine ⟨seq, c, state == 0x01, rfl, ?_⟩
      rw [statusFrame_toList, stateByte_beq hstate]
      rfl
    · cases h
  · cases h

/-- Settles O2: the round trip, and the inversion of the decoder. -/
theorem txfDecodeEncodeAgree : Obligations.TxfDecodeEncodeAgree :=
  ⟨decodeTxf_statusFrame, fun _ _ _ => decodeTxf_eq_ok⟩

end Sys2Proof

namespace Sys2Proof.Machine

/-! ### The instruction a quiet step runs -/

/-- The instruction that the next step of `s` runs where one is decoded at its position, with a silent reset input and no
checksum stage. -/
structure QuietStep (s : State) : Prop where
  hostOp : s.pc = .idle → decodeHop (hostPort s) ≠ .hopNone → step s = exec (decodeHop (hostPort s)) s
  hopNone : s.pc = .idle → decodeHop (hostPort s) = .hopNone →
    step s = andThen (exec .hopNone s) fun u => .next (poll u)
  nostart : s.pc = .rxStart → ∀ b, s.inbound.head? = some (.byte b) → b ≠ startByte → step s = exec (.nostart b) s
  nolen : s.pc = .rxLen → readNow s = .expired → step s = exec .nolen s
  overlen : s.pc = .rxPayload → s.cnt = s.L → s.cfg.rxCsumEn = false → s.cfg.bufCap < s.L.toNat →
    step s = exec (.overlen s.L) s
  dispatch : s.pc = .dispatch → ∀ i, decodeBuffer s = .ok i → step s = exec i s
  stat : s.pc = .tx → s.txBusy = false → ∀ n rest, s.nq = n :: rest → step s = exec (.stat s.seq n.c n.on) s

theorem quietStep {s : State} (hq : s.rst = .silent) : QuietStep s := by
  have hruns := stepRunsTheDecodedInstruction s (rstAsserted_of_silent hq)
  rw [State.sampleRst_of_silent hq] at hruns
  obtain ⟨hostOp, hopNone, nostart, nolen, overlen, -, dispatch, stat⟩ := hruns
  exact { hostOp, hopNone, nostart, nolen, overlen, dispatch, stat }

/-- The decoder names from a stored payload the class that the format's classification gives it. -/
theorem decodeBuffer_of_stored {s : State} {m : Memory} {p : List Byte} (hm : m.wf = true)
    (hp : p.length = s.L.toNat) (hbuf : s.buf = storeFrom s.cfg.bufCap m 0 p) :
    decodeBuffer s = .ok (classify s.cfg s.L p) := by
  by_cases hcap : s.cfg.bufCap < s.L.toNat
  · rw [decodeBuffer_of_overlen hcap, classify_of_overlen hcap]
  by_cases hlow : s.L.toNat < s.cfg.decBase + 3
  · rw [decodeBuffer_of_short hlow (by omega), classify_of_short hlow (by omega)]
  have hread (k : Nat) (hk : k < s.L.toNat) : s.buf.read k = p.getD k 0 := by
    rw [hbuf, storeFrom_read hm, if_pos (by omega), Nat.sub_zero]
  have hlen : s.cfg.decodable s.L = true := decodable_iff.mpr ⟨by omega, by omega⟩
  rw [decodeBuffer_of_decodable hlen, classify_of_decodable hlen, hread _ (by omega), hread _ (by omega),
    hread _ (by omega)]

/-! ### Loaded words (R84, log 13) -/

/-- The next step of `u` runs `i`; HOP.NONE is followed by the availability check. -/
def RunsNext (i : Instr) (u : State) : Prop :=
  (i ≠ .hopNone → step u = exec i u) ∧ (i = .hopNone → step u = andThen (exec i u) fun v => .next (poll v))

theorem runsNext_of_step {i : Instr} {u : State} (hi : i.format ≠ .hop) (h : step u = exec i u) : RunsNext i u :=
  ⟨fun _ => h, fun hnone => absurd (congrArg Instr.format hnone) hi⟩

section Place
variable {s : State} (hq : s.rst = .silent)
include hq

/-- A placed payload runs as the class of its frame: above the bound, without a checksum stage, at the end of the loop, and
else at DISPATCH. -/
theorem placePayload_runsNext (hbuf : s.buf.wf = true) {len : Byte} {p : List Byte} (hp : p.length = len.toNat) :
    RunsNext (classify s.cfg len p) (placePayload len p s) := by
  have hdec : decodeBuffer (placePayload len p s) = .ok (classify s.cfg len p) := decodeBuffer_of_stored hbuf hp rfl
  have hquiet : QuietStep (placePayload len p s) := quietStep hq
  refine runsNext_of_step (by simp [decodeBuffer_format hdec]) ?_
  by_cases hend : s.cfg.bufCap < len.toNat ∧ s.cfg.rxCsumEn = false
  · rw [classify_of_overlen hend.1]
    exact hquiet.overlen (if_pos hend) rfl hend.2 hend.1
  · exact hquiet.dispatch (if_neg hend) _ hdec

/-- An inbound class runs at the position where the reader or the decoder tells it. -/
theorem placeWire_rxf_runsNext (hbuf : s.buf.wf = true) {reads after : List (Option Byte)} {i : Instr}
    (h : RxfCase s.cfg reads i after) : RunsNext i (placeWire (.rxf reads) s) := by
  cases h with
  | nostart b0 hb =>
    have hplace : placeWire (.rxf (some b0 :: after)) s =
        { s with pc := .rxStart, inbound := s.inbound.push (.byte b0) } := if_pos hb
    have hquiet : QuietStep { s with pc := .rxStart, inbound := s.inbound.push (.byte b0) } := quietStep hq
    rw [hplace]
    exact runsNext_of_step nofun (hquiet.nostart rfl b0 rfl hb)
  | nolen rest hr =>
    have hplace : placeWire (.rxf (some startByte :: rest)) s =
        { s with pc := .rxLen, inbound := s.inbound.push .gap } := by
      match rest with
      | [] => rfl
      | none :: _ => rfl
      | some _ :: _ => cases hr
    have hquiet : QuietStep { s with pc := .rxLen, inbound := s.inbound.push .gap } := quietStep hq
    rw [hplace]
    exact runsNext_of_step nofun (hquiet.nolen rfl (readNow_gap rfl))
  | frame len rest _ _ => exact placePayload_runsNext hq hbuf (takePayload_length ..)

/-- A status frame runs as the front notification's STAT, with the counter it carries. -/
theorem placeWire_txf_runsNext {bytes tail : List Byte} {i : Instr} (h : decodeTxf bytes = .ok (i, tail)) :
    RunsNext i (placeWire (.txf bytes) s) := by
  obtain ⟨seq, c, on, rfl, -⟩ := decodeTxf_eq_ok h
  have hplace : placeWire (.txf bytes) s =
      { s with pc := .tx, txBusy := false, seq := seq, nq := { c := c, on := on } :: s.nq } := by
    simp only [placeWire, h]
  have hquiet : QuietStep { s with pc := .tx, txBusy := false, seq := seq, nq := { c := c, on := on } :: s.nq } :=
    quietStep hq
  rw [hplace]
  exact runsNext_of_step nofun (hquiet.stat rfl rfl _ _ rfl)

/-- A host operation runs at IDLE from the port. -/
theorem placeWire_hop_runsNext (p : HostPort) : RunsNext (decodeHop p) (placeWire (.hop p) s) := by
  have hquiet : QuietStep (placeWire (.hop p) s) := quietStep hq
  exact ⟨fun hne => hquiet.hostOp rfl hne, fun hnone => by rw [hquiet.hopNone rfl hnone, hnone]⟩

/-- An encoded form runs next as the instruction the decoder reads from it. -/
theorem placeWire_runsNext (hbuf : s.buf.wf = true) {w : Wire} {i : Instr} (h : decode s.cfg w = .ok i) :
    RunsNext i (placeWire w s) := by
  cases w with
  | rxf reads =>
    cases hd : decodeRxf s.cfg reads with
    | error e => simp [decode, hd, Except.map] at h
    | ok d =>
      obtain rfl : d.1 = i := by simpa [decode, hd, Except.map] using h
      exact placeWire_rxf_runsNext hq hbuf (decodeRxf_cases hd)
  | txf bytes =>
    cases hd : decodeTxf bytes with
    | error e => simp [decode, hd, Except.map] at h
    | ok d =>
      obtain rfl : d.1 = i := by simpa [decode, hd, Except.map] using h
      exact placeWire_txf_runsNext hq hd
  | hop p =>
    cases h
    exact placeWire_hop_runsNext hq p

end Place

/-- Settles O9: the encoded form of the word is placed with a silent reset input, where it runs next. -/
theorem loadedWordRunsNext : Obligations.LoadedWordRunsNext := by
  intro s nbits w i hbuf h
  unfold decodeWord at h
  unfold State.withFetchWord
  cases hw : wireOfWord s.cfg nbits w with
  | none => simp [hw] at h
  | some wire =>
    rw [hw] at h
    cases hd : decode s.cfg wire with
    | error e => simp [hd, Except.toOption] at h
    | ok j =>
      obtain rfl : j = i := by simpa [hd, Except.toOption] using h
      exact placeWire_runsNext (s := { s with rst := Feed.silent }) rfl hbuf hd

/-! ### The results of timed reads (R52, R106, R107) -/

/-- The result of a timed read that meets `x` at the head of the line, where it ends at once: a byte, or an expiry. -/
def readResult : Option RxItem → Option (Option Byte)
  | some (.byte b) => some (some b)
  | some .gap => some none
  | some .withdrawn => some none
  | some .tick => none
  | none => some none

/-- The next timed reads of the line end at once with the results `rs`. -/
def Feed.answers (l : Feed Config.rxItemAt) : List (Option Byte) → Prop
  | [] => True
  | r :: rest => readResult l.head? = some r ∧ l.tail.answers rest

/-- What the outstanding read meets where its result is `r`. -/
def readNowOf : Option Byte → ReadNow
  | some b => .got b
  | none => .expired

section Answers
variable {l : Feed Config.rxItemAt} {reads : List (Option Byte)}

theorem readResult_itemOf (r : Option Byte) : readResult (some (itemOf r)) = some r := by
  cases r with
  | none => rfl
  | some b => rfl

theorem readResult_eq_byte {x : Option RxItem} {b : Byte} : readResult x = some (some b) ↔ x = some (.byte b) := by
  unfold readResult
  split <;> simp

theorem readNow_of_readResult {s : State} {r : Option Byte} (h : readResult s.inbound.head? = some r) :
    readNow s = readNowOf r := by
  unfold readResult at h
  split at h
  · next b hx =>
    cases h
    exact readNow_byte hx
  · next hx =>
    cases h
    exact readNow_gap hx
  · next hx =>
    cases h
    exact readNow_withdrawn hx
  · cases h
  · next hx =>
    cases h
    exact readNow_silent hx

/-- A line that starts with the items of `reads`, and is silent after them if `n` is more, answers `n` reads with these
results and then expiries. -/
theorem Feed.answers_takeD {n : Nat} (hl : l.starts (reads.map itemOf) = true)
    (hn : n ≤ reads.length ∨ (l.drop reads.length).head? = none) : l.answers (reads.takeD n none) := by
  induction n generalizing l reads with
  | zero => trivial
  | succ n ih =>
    cases reads with
    | nil =>
      have hsilent : l.head? = none := hn.resolve_left (by simp)
      refine ⟨by rw [hsilent]; rfl, ?_⟩
      rw [Feed.tail_of_silent hsilent]
      exact ih (reads := []) rfl (.inr hsilent)
    | cons r rest =>
      obtain ⟨hhead, htail⟩ := Feed.starts_cons.mp hl
      exact ⟨by rw [hhead, readResult_itemOf]; rfl, ih htail (hn.imp_left Nat.le_of_succ_le_succ)⟩

/-- The items after the first `n` reads are those of the other reads. -/
theorem Feed.starts_drop (n : Nat) (hl : l.starts (reads.map itemOf) = true)
    (hn : n ≤ reads.length ∨ (l.drop reads.length).head? = none) :
    l.drop n = l.drop (reads.length - (reads.drop n).length) ∧
      (l.drop n).starts ((reads.drop n).map itemOf) = true := by
  rw [List.length_drop]
  by_cases hle : n ≤ reads.length
  · rw [← List.take_append_drop n reads, List.map_append] at hl
    have hrest := (Feed.starts_append.mp hl).2
    rw [List.length_map, List.length_take, Nat.min_eq_left hle] at hrest
    exact ⟨congrArg (Feed.drop · l) (by omega), hrest⟩
  · have hsilent : (l.drop reads.length).head? = none := hn.resolve_left hle
    obtain ⟨k, rfl⟩ : ∃ k, n = reads.length + k := ⟨n - reads.length, by omega⟩
    rw [List.drop_eq_nil_of_le (by omega)]
    refine ⟨?_, rfl⟩
    rw [Feed.drop_add, Feed.drop_of_silent hsilent]
    exact congrArg (Feed.drop · l) (by omega)

end Answers

/-- The stored payload is the results of its reads, with the sentinel for each that expires. -/
theorem takePayload_eq_map (sentinel : Byte) (n : Nat) (reads : List (Option Byte)) :
    (takePayload sentinel n reads).1 = (reads.takeD n none).map fun r => r.getD sentinel := by
  induction n generalizing reads with
  | zero => rfl
  | succ n ih =>
    cases reads with
    | nil => exact congrArg (sentinel :: ·) (ih [])
    | cons r rest => exact congrArg (r.getD sentinel :: ·) (ih rest)

/-! ### The steps of a read attempt (R100 to R108) -/

/-- `s` after payload reads with the results `rs`: each byte or sentinel stored or drained, summed and counted. -/
def State.afterReads (s : State) (rs : List (Option Byte)) : State :=
  { s with
    buf := storeFrom s.cfg.bufCap s.buf s.cnt.toNat (rs.map fun r => r.getD s.cfg.sentinel)
    racc := if s.cfg.rxCsumEn then s.racc + csum8 (rs.map fun r => r.getD s.cfg.sentinel) else s.racc
    cnt := s.cnt + BitVec.ofNat 8 rs.length
    tmr := if rs = [] then s.tmr else 0
    inbound := s.inbound.drop rs.length
    trace := s.trace ++ rs.map readEvent }

theorem State.afterReads_nil (s : State) : s.afterReads [] = s := by
  simp [State.afterReads, storeFrom]

/-- The reads after the first go on from where it ends, while the count does not wrap. -/
theorem State.afterReads_cons (s : State) (r : Option Byte) (rs : List (Option Byte)) (h : s.cnt.toNat < 255) :
    s.afterReads (r :: rs) = (s.afterReads [r]).afterReads rs := by
  have hone : (s.cnt + 1#8).toNat = s.cnt.toNat + 1 := by bv_omega
  have hcount : s.cnt + BitVec.ofNat 8 (rs.length + 1) = s.cnt + 1#8 + BitVec.ofNat 8 rs.length := by bv_omega
  cases hc : s.cfg.rxCsumEn with
  | false => simp [State.afterReads, storeFrom, hone, hcount, hc]
  | true => simp [State.afterReads, storeFrom, hone, hcount, hc, BitVec.add_assoc]

/-- `s` at the start read of an attempt (R100). -/
def State.beginAttempt (s : State) : State := { s with pc := .rxStart, tmr := 0 }

/-- `s` at the first payload read of an attempt, with the start byte and the length byte accepted (R101, R104). -/
def State.beginPayload (s : State) (len : Byte) : State := acceptLength len (acceptStart startByte s.beginAttempt)

section Attempt
variable {s : State} (hq : s.rst = .silent)
include hq

/-- An available byte begins a read attempt. -/
theorem step_of_available {b : Byte} (hpc : s.pc = .idle) (hh : s.hostq = .silent)
    (hb : s.inbound.head? = some (.byte b)) : step s = .next s.beginAttempt := by
  have hdone : s.withInputs s.rst s.hostq.tail = s := by
    rw [hh, Feed.tail_silent, ← hh]
    rfl
  have hnone : decodeHop (hostPort s) = .hopNone := by
    rw [hostPort, hh]
    rfl
  rw [step_of_quiet hq, perform_action_idle hpc hnone, hdone, poll, rxAvail, hb]
  rfl

theorem step_of_marker (hpc : s.pc = .rxStart) (hb : s.inbound.head? = some (.byte startByte)) :
    step s = .next (acceptStart startByte s) := by
  simp [step_of_quiet hq, action, hpc, atStart, readNow_byte hb, perform]

theorem step_of_length {b : Byte} (hpc : s.pc = .rxLen) (hb : s.inbound.head? = some (.byte b)) :
    step s = .next (acceptLength b s) := by
  simp [step_of_quiet hq, action, hpc, atLen, readNow_byte hb, perform]

/-- One payload read, whether it returns a byte or expires. -/
theorem step_of_payloadRead {r : Option Byte} (hpc : s.pc = .rxPayload) (hne : s.cnt ≠ s.L)
    (hr : readResult s.inbound.head? = some r) : step s = .next (s.afterReads [r]) := by
  have hn := readNow_of_readResult hr
  cases r with
  | none =>
    simp [step_of_quiet hq, action, hpc, atPayload, hne, hn, readNowOf, perform, storePayload_eq, State.afterReads,
      storeFrom, readEvent, State.expireRead]
  | some b =>
    simp [step_of_quiet hq, action, hpc, atPayload, hne, hn, readNowOf, perform, storePayload_eq, State.afterReads,
      storeFrom, readEvent, State.takeByte]

end Attempt

/-- The payload loop: exactly the reads that are left of the declared length, by induction on them. -/
theorem run_payloadReads {s : State} {rs : List (Option Byte)} (hq : s.rst = .silent) (hpc : s.pc = .rxPayload)
    (hlen : s.cnt.toNat + rs.length = s.L.toNat) (hl : s.inbound.answers rs) :
    run rs.length s = .next (s.afterReads rs) := by
  induction rs generalizing s with
  | nil => rw [State.afterReads_nil, List.length_nil, run_zero]
  | cons r rest ih =>
    obtain ⟨hr, hrest⟩ := hl
    rw [List.length_cons] at hlen
    have hlt : s.cnt.toNat < s.L.toNat := by omega
    have hne : s.cnt ≠ s.L := fun he => by simp [he] at hlt
    have hcnt : s.cnt.toNat < 255 := by have := s.L.isLt; omega
    have hone : (s.afterReads [r]).cnt.toNat = s.cnt.toNat + 1 := by
      simp only [State.afterReads, List.length_singleton]
      bv_omega
    rw [List.length_cons, run_of_step (step_of_payloadRead hq hpc hne hr), State.afterReads_cons s r rest hcnt]
    exact ih (s := s.afterReads [r]) hq hpc (by rw [hone, Nat.add_assoc, Nat.add_comm 1]; exact hlen) hrest

/-- After the payload reads of a frame the decoder names the class of the results. -/
theorem decodeBuffer_afterReads {s : State} {rs : List (Option Byte)} (hbuf : s.buf.wf = true) (hcnt : s.cnt = 0)
    (hrs : rs.length = s.L.toNat) :
    decodeBuffer (s.afterReads rs) = .ok (classify s.cfg s.L (rs.map fun r => r.getD s.cfg.sentinel)) :=
  decodeBuffer_of_stored (s := s.afterReads rs) hbuf ((List.length_map _).trans hrs) (by simp [State.afterReads, hcnt])

/-! ### Fetching an instruction from the line (R71, R80, R100 to R111) -/

/-- From `s` to the state named only the registers of the read path have changed, with the events of timed reads. -/
inductive ReaderOnly (s : State) : State → Prop
  | intro (pc : Pos) (L cnt racc : Byte) (buf : Memory) (tmr : Nat) (inbound : Feed Config.rxItemAt) (trace : List Event)
      (rs : List (Option Byte)) (htr : trace = s.trace ++ rs.map readEvent) :
      ReaderOnly s { s with
        pc := pc, L := L, cnt := cnt, racc := racc, buf := buf, tmr := tmr, inbound := inbound, trace := trace }

/-- Timed reads send nothing. -/
theorem filterMap_sentByte_reads (rs : List (Option Byte)) : (rs.map readEvent).filterMap sentByte = [] := by
  rw [List.filterMap_map, List.filterMap_eq_nil_iff]
  intro r _
  cases r with
  | none => rfl
  | some b => rfl

theorem ReaderOnly.sent_eq {s u : State} (h : ReaderOnly s u) : sent u = sent s := by
  obtain ⟨_, _, _, _, _, _, _, _, rs, htr⟩ := h
  rw [sent, htr, List.filterMap_append, filterMap_sentByte_reads, List.append_nil, sent]

theorem ReaderOnly.goto {s u : State} (h : ReaderOnly s u) (p : Pos) : ReaderOnly s (u.goto p) := by
  obtain ⟨_, _, _, _, _, _, _, _, rs, htr⟩ := h
  exact .intro p _ _ _ _ _ _ _ rs htr

theorem ReaderOnly.afterReads {s u : State} (h : ReaderOnly s u) (rs : List (Option Byte)) :
    ReaderOnly s (u.afterReads rs) := by
  obtain ⟨_, _, _, _, _, _, _, _, rs', htr⟩ := h
  exact .intro _ _ _ _ _ _ _ _ (rs' ++ rs) (by simp [htr])

theorem readerOnly_beginPayload (s : State) (len : Byte) : ReaderOnly s (s.beginPayload len) :=
  .intro _ _ _ _ _ _ _ _ [some startByte, some len] (List.append_assoc ..)

/-- In `n` steps from `s` the machine stands where the next step runs `i`, with only the read path's registers changed; `i`
then leaves the line `left`. -/
def Fetched (s : State) (n : Nat) (i : Instr) (left : Feed Config.rxItemAt) : Prop :=
  ∃ u t, run n s = .next u ∧ step u = exec i u ∧ exec i u = .next t ∧ t.inbound = left ∧ ReaderOnly s u

/-- The instruction that the decoder names takes nothing from the line. -/
theorem exec_inbound_of_decodeBuffer {s t : State} {i : Instr} (hi : decodeBuffer s = .ok i)
    (ht : exec i s = .next t) : t.inbound = s.inbound := by
  rcases dispatch_cases hi ht with ⟨c, rfl⟩ | ⟨c, -, hp⟩
  · rfl
  · cases hp
    rfl

/-- The classes of a frame with a length byte run after its payload: OVERLEN at the end of the loop, every other one step
later. -/
theorem fetchSteps_classify (cfg : Config) (len : Byte) (p : List Byte) :
    fetchSteps (classify cfg len p) = if cfg.bufCap < len.toNat then 3 + len.toNat else 4 + len.toNat := by
  unfold classify classifyFields
  split
  · rfl
  split
  · rfl
  split
  · rfl
  split
  · rfl
  split
  · rfl
  · rfl

/-- Where the payload loop ends after `n` steps, OVERLEN is fetched at once, every other class with the hand-off to
DISPATCH. -/
theorem fetched_of_payloadEnd {s v : State} {n : Nat} {i : Instr} (hrun : run n s = .next v) (hq : v.rst = .silent)
    (hpc : v.pc = .rxPayload) (hcnt : v.cnt = v.L) (hc : v.cfg.rxCsumEn = false) (hdec : decodeBuffer v = .ok i)
    (hkeep : ReaderOnly s v) : Fetched s (if v.cfg.bufCap < v.L.toNat then n else n + 1) i v.inbound := by
  by_cases hcap : v.cfg.bufCap < v.L.toNat
  · rw [if_pos hcap]
    obtain rfl : .overlen v.L = i := by simpa [decodeBuffer_of_overlen hcap] using hdec
    exact ⟨v, _, hrun, (quietStep hq).overlen hpc hcnt hc hcap, rfl, rfl, hkeep⟩
  · rw [if_neg hcap]
    have hstep : step v = .next (v.goto .dispatch) := by
      simp [step_of_quiet hq, action, hpc, atPayload, hcnt, hc, handOff, hcap, perform]
    have hdec' : decodeBuffer (v.goto .dispatch) = .ok i := hdec
    have hquiet : QuietStep (v.goto .dispatch) := quietStep hq
    obtain ⟨t, ht⟩ := exec_answers_next i (v.goto .dispatch)
    refine ⟨v.goto .dispatch, t, ?_, hquiet.dispatch rfl i hdec', ht,
      exec_inbound_of_decodeBuffer (s := v.goto .dispatch) hdec' ht, hkeep.goto .dispatch⟩
    rw [run_add hrun, run_of_step hstep, run_zero]

section Fetch
variable {s : State} (hpc : s.pc = .idle) (hh : s.hostq = .silent) (hq : s.rst = .silent)
include hpc hh hq

theorem fetched_nostart {b : Byte} (hb : b ≠ startByte) (hl : s.inbound.answers [some b]) :
    Fetched s 1 (.nostart b) (s.inbound.drop 1) := by
  have hhead := readResult_eq_byte.mp hl.1
  have hquiet : QuietStep s.beginAttempt := quietStep hq
  exact ⟨s.beginAttempt, _, run_of_step (step_of_available hq hpc hh hhead), hquiet.nostart rfl b hhead hb, rfl, rfl,
    .intro _ _ _ _ _ _ _ _ [] (List.append_nil _).symm⟩

/-- Two steps after IDLE the length read is outstanding. -/
theorem run_to_rxLen (hb : s.inbound.head? = some (.byte startByte)) :
    run 2 s = .next (acceptStart startByte s.beginAttempt) := by
  have hmarker : step s.beginAttempt = .next (acceptStart startByte s.beginAttempt) := step_of_marker hq rfl hb
  rw [run_of_step (step_of_available hq hpc hh hb), run_of_step hmarker, run_zero]

/-- Three steps after IDLE the first payload read is outstanding. -/
theorem run_to_rxPayload {len : Byte} (hb : s.inbound.head? = some (.byte startByte))
    (hlen : s.inbound.tail.head? = some (.byte len)) : run 3 s = .next (s.beginPayload len) := by
  have hlength : step (acceptStart startByte s.beginAttempt) = .next (s.beginPayload len) :=
    step_of_length (s := acceptStart startByte s.beginAttempt) hq rfl hlen
  rw [run_add (m := 2) (n := 1) (run_to_rxLen hpc hh hq hb), run_of_step hlength, run_zero]

theorem fetched_nolen (hl : s.inbound.answers [some startByte, none]) :
    Fetched s 2 .nolen (s.inbound.drop 2) := by
  obtain ⟨hstart, hlen, -⟩ := hl
  have hquiet : QuietStep (acceptStart startByte s.beginAttempt) := quietStep hq
  have hexpired : readNow (acceptStart startByte s.beginAttempt) = .expired :=
    readNow_of_readResult (s := acceptStart startByte s.beginAttempt) hlen
  exact ⟨_, _, run_to_rxLen hpc hh hq (readResult_eq_byte.mp hstart), hquiet.nolen rfl hexpired, rfl, rfl,
    .intro _ _ _ _ _ _ _ _ [some startByte] rfl⟩

/-- A frame with a length byte is fetched as the class of its payload. -/
theorem fetched_frame (hbuf : s.buf.wf = true) (hc : s.cfg.rxCsumEn = false) {len : Byte} {rs : List (Option Byte)}
    {i : Instr} (hi : i = classify s.cfg len (rs.map fun r => r.getD s.cfg.sentinel)) (hrs : rs.length = len.toNat)
    (hl : s.inbound.answers (some startByte :: some len :: rs)) :
    Fetched s (fetchSteps i) i (s.inbound.drop (len.toNat + 2)) := by
  obtain ⟨hstart, hlen, hpay⟩ := hl
  have hloop : run rs.length (s.beginPayload len) = .next ((s.beginPayload len).afterReads rs) :=
    run_payloadReads hq rfl ((Nat.zero_add _).trans hrs) hpay
  have hrun : run (3 + rs.length) s = .next ((s.beginPayload len).afterReads rs) := by
    rw [run_add (run_to_rxPayload hpc hh hq (readResult_eq_byte.mp hstart) (readResult_eq_byte.mp hlen)), hloop]
  have hcnt : 0#8 + BitVec.ofNat 8 rs.length = len := by
    rw [hrs, BitVec.zero_add, BitVec.ofNat_toNat, BitVec.setWidth_eq]
  have hdec : decodeBuffer ((s.beginPayload len).afterReads rs) = .ok i :=
    hi ▸ decodeBuffer_afterReads (s := s.beginPayload len) hbuf rfl hrs
  have hkeep : ReaderOnly s ((s.beginPayload len).afterReads rs) :=
    (readerOnly_beginPayload s len).afterReads rs
  have hsteps : fetchSteps i = if s.cfg.bufCap < len.toNat then 3 + rs.length else 3 + rs.length + 1 := by
    rw [hi, fetchSteps_classify, hrs, Nat.add_right_comm]
  have hin : ((s.beginPayload len).afterReads rs).inbound = s.inbound.drop (len.toNat + 2) := by
    rw [← hrs]
    rfl
  rw [hsteps, ← hin]
  exact fetched_of_payloadEnd hrun hq rfl hcnt hc hdec hkeep

/-- What the decoder reads from the results of the reads is fetched from a line that answers with them; the decoder leaves
the reads after the first `n`. -/
theorem fetched_of_rxfCase (hbuf : s.buf.wf = true) (hc : s.cfg.rxCsumEn = false) {reads after : List (Option Byte)}
    {i : Instr} (h : RxfCase s.cfg reads i after) :
    ∃ n, n ≤ 257 ∧ after = reads.drop n ∧
      (s.inbound.answers (reads.takeD n none) → Fetched s (fetchSteps i) i (s.inbound.drop n)) := by
  cases h with
  | nostart b0 hb rest => exact ⟨1, by omega, rfl, fetched_nostart hpc hh hq hb⟩
  | nolen rest hr =>
    refine ⟨2, by omega, by simp, fun hl => fetched_nolen hpc hh hq ?_⟩
    rwa [List.takeD_succ, List.takeD_succ, List.tail_cons, hr] at hl
  | frame len rest after hafter =>
    refine ⟨len.toNat + 2, by have := len.isLt; omega, hafter hc, fun hl => ?_⟩
    exact fetched_frame hpc hh hq hbuf hc (congrArg _ (takePayload_eq_map ..)) (List.takeD_length ..) hl

end Fetch

/-- Settles O23: the decoder's case names the number of reads it takes; the line answers them, and the instruction is fetched
from it. -/
theorem readerRefinesTheDecoder : Obligations.ReaderRefinesTheDecoder := by
  intro s reads after i hpc hh hq hbuf hc hl hlong hdec
  obtain ⟨n, hn, rfl, hfetch⟩ := fetched_of_rxfCase hpc hh hq hbuf hc (decodeRxf_cases hdec)
  have hlong' : n ≤ reads.length ∨ (s.inbound.drop reads.length).head? = none := hlong.imp_left hn.trans
  obtain ⟨u, t, hrun, hstep, hexec, hin, hkeep⟩ := hfetch (Feed.answers_takeD hl hlong')
  obtain ⟨hdrop, hrest⟩ := Feed.starts_drop n hl hlong'
  have hsent := hkeep.sent_eq
  cases hkeep
  exact ⟨_, t, hrun, hstep, hexec, hin.trans hdrop, hin ▸ hrest, rfl, rfl, rfl, rfl, rfl, rfl, rfl, rfl, rfl, rfl, rfl,
    hq, hh, hsent⟩

end Sys2Proof.Machine

/-! ## The proofs of the family 40_frame_reader: the fields of a press, the steps of a read attempt, the payload loop,
the bound on blocking, the dead registers -/

namespace Sys2Proof

/-! ### The fields of a press (R74 to R76, R107) -/

/-- A frame classified as a press has the declared length and three fields, and they are those of a press. -/
theorem classify_eq_swevPress {cfg : Config} {len len' : Byte} {p : List Byte} {c : Chan}
    (h : classify cfg len p = .swevPress len' c) :
    len = len' ∧ cfg.decodable len = true ∧ p.getD cfg.decBase 0 = cmdSwev ∧
      p.getD (cfg.decBase + 1) 0 = chanNumber c ∧ p.getD (cfg.decBase + 2) 0 = stPressed := by
  by_cases hcap : cfg.bufCap < len.toNat
  · rw [classify_of_overlen hcap] at h
    cases h
  by_cases hlow : len.toNat < cfg.decBase + 3
  · rw [classify_of_short hlow (by omega)] at h
    cases h
  have hlen : cfg.decodable len = true := decodable_iff.mpr ⟨by omega, by omega⟩
  rw [classify_of_decodable hlen] at h
  unfold classifyFields at h
  split at h
  · cases h
  next hcmd =>
  split at h
  · cases h
  next hstatus =>
  split at h
  · cases h
  next hchan =>
  cases h
  exact ⟨rfl, hlen, not_not.mp hcmd, chanOfNumber_eq_some.mp hchan, not_not.mp hstatus⟩

theorem chanNumber_ne_ff (c : Chan) : chanNumber c ≠ 0xFF := by
  revert c
  decide

/-- A payload byte other than the sentinel was returned by its read. -/
theorem getElem?_of_takePayload_ne {sentinel v : Byte} {n k : Nat} {reads : List (Option Byte)} (hk : k < n)
    (hv : (takePayload sentinel n reads).1.getD k 0 = v) (hne : v ≠ sentinel) : reads[k]? = some (some v) := by
  rw [takePayload_getD _ _ _ _ hk, List.getD_eq_getElem?_getD] at hv
  rcases hr : reads[k]? with _ | _ | b
  · exact absurd (by simpa [hr] using hv.symm) hne
  · exact absurd (by simpa [hr] using hv.symm) hne
  · rw [hr] at hv
    exact congrArg (fun b => some (some b)) hv

/-- Settles O7: no field of a press is the sentinel 0xFF, so each was returned by its read. -/
theorem expiredFieldReadNeverPresses : Obligations.ExpiredFieldReadNeverPresses := by
  intro cfg reads after len c hsent h
  generalize hi : Instr.swevPress len c = i at h
  cases decodeRxf_cases h with
  | nostart => cases hi
  | nolen => cases hi
  | frame len' rest =>
    obtain ⟨rfl, hlen, hcmd, hchan, hstatus⟩ := classify_eq_swevPress hi.symm
    have hbound := (decodable_iff.mp hlen).1
    refine ⟨rest, rfl, fun k hk => ?_⟩
    match k, hk with
    | 0, _ => exact ⟨_, getElem?_of_takePayload_ne (by omega) hcmd (hsent ▸ by decide)⟩
    | 1, _ => exact ⟨_, getElem?_of_takePayload_ne (by omega) hchan (hsent ▸ chanNumber_ne_ff c)⟩
    | 2, _ => exact ⟨_, getElem?_of_takePayload_ne (by omega) hstatus (hsent ▸ by decide)⟩

end Sys2Proof

namespace Sys2Proof.Machine

/-! ### The steps of the read path (R100 to R105, R109 to R111) -/

/-- A read that expires and a condition raised on it. -/
theorem raise_expireRead (s : State) (c : Cond) : raise s.expireRead c = { s with
    inbound := s.inbound.tail, tmr := 0, pc := .idle, trace := s.trace ++ [.rxNone, .drop c] } := by
  simp [raise, State.note, State.emit, State.goto, State.expireRead]

/-- A read that returns a byte and a condition raised on it. -/
theorem raise_takeByte (s : State) (b : Byte) (c : Cond) : raise (s.takeByte b) c = { s with
    inbound := s.inbound.tail, tmr := 0, pc := .idle, trace := s.trace ++ [.rx b, .drop c] } := by
  simp [raise, State.note, State.emit, State.goto, State.takeByte]

/-- A step whose outstanding read expires, at every reading position. -/
theorem step_of_expired_noReset {s : State} (hr : rstAsserted s = false) (hread : reading s = true)
    (hn : readNow s = .expired) : step s = afterExpiry s.sampleRst.expireRead :=
  (step_of_noReset hr).trans (perform_action_of_expired (s := s.sampleRst) hread hn)

/-- What the sequencer does with the byte `b` of a read in the state `s` that the read has left at its position. -/
def afterByte (b : Byte) (s : State) : Result :=
  match s.pc with
  | .rxStart => if b = startByte then .next (s.goto .rxLen) else .next (raise s .desync)
  | .rxLen => .next { s with L := b, cnt := 0, racc := 0, pc := .rxPayload }
  | .rxPayload => storePayload b s
  | .rxCsum => if b = s.racc then perform (handOff s) else .next (raise s .csum)
  | .idle => .next s
  | .dispatch => .next s
  | .tx => .next s
  | .host => .next s

/-- An outstanding read that returns a byte. -/
theorem perform_action_of_got {s : State} {b : Byte} (hr : reading s = true) (hn : readNow s = .got b) :
    perform (action s) = afterByte b (s.takeByte b) := by
  cases hpc : s.pc with
  | rxStart =>
    by_cases hb : b = startByte
    · simp [action, hpc, atStart, hn, hb, perform, afterByte, acceptStart]
    · simp [action, hpc, atStart, hn, hb, perform, afterByte, exec, execNostart]
  | rxLen => simp [action, hpc, atLen, hn, perform, afterByte, acceptLength]
  | rxPayload =>
    have hne : s.cnt ≠ s.L := by simpa [reading, hpc] using hr
    simp [action, hpc, atPayload, hne, hn, perform, afterByte]
  | rxCsum =>
    by_cases hb : b = s.racc
    · simp [action, hpc, atCsum, hn, hb, afterByte]
    · simp [action, hpc, atCsum, hn, hb, perform, afterByte]
  | _ => simp [reading, hpc] at hr

/-- A step whose outstanding read returns a byte, at every reading position. -/
theorem step_of_got_noReset {s : State} {b : Byte} (hr : rstAsserted s = false) (hread : reading s = true)
    (hn : readNow s = .got b) : step s = afterByte b (s.sampleRst.takeByte b) :=
  (step_of_noReset hr).trans (perform_action_of_got (s := s.sampleRst) hread hn)

/-- Settles O29: each of the five classes only raises its condition. -/
theorem ignoredFramesOnlyReturnToIdle : Obligations.IgnoredFramesOnlyReturnToIdle := fun _ _ _ _ _ =>
  ⟨rfl, rfl, rfl, rfl, rfl⟩

/-- Settles O13: without a request the step is the availability check, and the head of the line decides it. -/
theorem pollBeginsAttemptOnReportedByte : Obligations.PollBeginsAttemptOnReportedByte := by
  intro s hr hpc hnone
  have hstep : step s = .next (poll { s.sampleRst with hostq := s.hostq.tail }) :=
    (step_of_noReset hr).trans (perform_action_idle hpc hnone)
  rw [hstep]
  refine ⟨fun hx => ?_, fun hx => ?_, fun hx => ?_⟩
  · simp [poll, rxAvail, hx, State.passTime, Feed.tail_of_silent hx]
  · rcases hx with hx | hx
    · simp [poll, rxAvail, hx, State.passTime]
    · simp [poll, rxAvail, hx, State.passTime]
  · rcases hx with hx | ⟨b, hx⟩
    · simp [poll, rxAvail, hx]
    · simp [poll, rxAvail, hx]

/-- Settles O14: the start read returns the marker, or another byte, or expires. -/
theorem startReadAcceptsMarkerOnly : Obligations.StartReadAcceptsMarkerOnly := by
  intro s hr hpc
  obtain ⟨-, -, nostart, -⟩ := stepRunsTheDecodedInstruction s hr
  refine ⟨fun hb => ?_, nostart hpc, fun hn => ?_⟩
  · rw [step_of_got_noReset hr (by simp [reading, hpc]) (readNow_byte hb)]
    simp [afterByte, hpc, startByte, State.goto, State.takeByte]
  · rw [step_of_expired_noReset hr (by simp [reading, hpc]) hn]
    simp [afterExpiry, hpc, raise_expireRead]

/-- Settles O15: NOSTART takes the byte and raises its condition; from IDLE the availability check comes first. -/
theorem nostartDropsExactlyOneByte : Obligations.NostartDropsExactlyOneByte := by
  intro s b hne hb
  have hexec (u : State) : exec (.nostart b) u = .next { u with
      inbound := u.inbound.tail, tmr := 0, pc := .idle, trace := u.trace ++ [.rx b, .drop .desync] } :=
    congrArg Host.Outcome.next (raise_takeByte u b .desync)
  refine ⟨hexec s, fun hpc hq hh => ?_⟩
  have hquiet : QuietStep s.beginAttempt := quietStep hq
  rw [run_of_step (step_of_available hq hpc hh hb), run_of_step ((hquiet.nostart rfl b hb hne).trans (hexec _)),
    run_zero, ← hpc]
  rfl

/-- Settles O17: NOLEN ends the read and raises its condition; in each of the listed cases the length read expires. -/
theorem nolenAbandonsTheAttempt : Obligations.NolenAbandonsTheAttempt := by
  intro s
  refine ⟨congrArg Host.Outcome.next (raise_expireRead s .lenTimeout), fun hpc hr hx => ?_⟩
  obtain ⟨-, -, -, nolen, -⟩ := stepRunsTheDecodedInstruction s hr
  refine nolen hpc ?_
  rcases hx with hx | hx | hx | ⟨hx, hle⟩
  · exact readNow_silent hx
  · exact readNow_gap hx
  · exact readNow_withdrawn hx
  · simp [readNow, hx, hle]

theorem action_of_payloadEnd {s : State} (hpc : s.pc = .rxPayload) (he : s.cnt = s.L) :
    action s = if s.cfg.rxCsumEn then .move (.next { s with pc := .rxCsum, tmr := 0 }) else handOff s := by
  rw [action, hpc]
  exact if_pos he

/-- The end of the payload loop hands a frame within the bound to the decoder. -/
theorem step_of_payloadEnd {s : State} (hr : rstAsserted s = false) (hpc : s.pc = .rxPayload) (he : s.cnt = s.L)
    (hc : s.cfg.rxCsumEn = false) (hl : s.L.toNat ≤ s.cfg.bufCap) : step s = .next (s.sampleRst.goto .dispatch) := by
  rw [step_of_noReset hr, action_of_payloadEnd (s := s.sampleRst) hpc he]
  simp [hc, handOff, Nat.not_lt.mpr hl, perform]

/-- Settles O19: without the checksum stage the end of the loop is the overflow test. -/
theorem overflowIsTestedAfterTheDrain : Obligations.OverflowIsTestedAfterTheDrain := by
  intro s hr hpc he hc
  obtain ⟨-, -, -, -, overlen, -⟩ := stepRunsTheDecodedInstruction s hr
  exact ⟨step_of_payloadEnd hr hpc he hc, overlen hpc he hc⟩

/-- Settles O16: the length byte is accepted whatever its value; with 0 the loop ends at once and the decoder finds the
frame too short. -/
theorem lengthByteIsLoaded : Obligations.LengthByteIsLoaded := by
  intro s hpc
  refine ⟨fun b hr hb => ?_, fun hr hn => ?_, fun hq hb hc => ?_⟩
  · rw [step_of_got_noReset hr (by simp [reading, hpc]) (readNow_byte hb)]
    simp [afterByte, hpc, State.takeByte]
  · obtain ⟨-, -, -, nolen, -⟩ := stepRunsTheDecodedInstruction s hr
    exact nolen hpc hn
  · have hend : step (acceptLength 0 s) = .next ((acceptLength 0 s).sampleRst.goto .dispatch) :=
      step_of_payloadEnd (rstAsserted_of_silent hq) rfl rfl hc (Nat.zero_le _)
    rw [State.sampleRst_of_silent (s := acceptLength 0 s) hq] at hend
    have hshort : decodeBuffer ((acceptLength 0 s).goto .dispatch) = .ok (.short 0) :=
      decodeBuffer_of_short (Nat.zero_lt_succ _) (Nat.zero_le _)
    have hquiet : QuietStep ((acceptLength 0 s).goto .dispatch) := quietStep hq
    rw [run_of_step (step_of_length hq hpc hb), run_of_step hend, run_succ, hquiet.dispatch rfl _ hshort]
    simp [exec, execShort, raise, State.note, State.emit, State.goto, acceptLength, State.takeByte]

/-- Settles O20: the stage begins where the loop ends; its read expires, or returns a wrong byte, or the right one. -/
theorem checksumStageChecksOneByte : Obligations.ChecksumStageChecksOneByte := by
  intro s hr
  refine ⟨fun hpc he hc => ?_, fun hpc => ⟨fun hn => ?_, fun b hb => ?_⟩⟩
  · rw [step_of_noReset hr, action_of_payloadEnd (s := s.sampleRst) hpc he]
    simp [hc, perform]
  · rw [step_of_expired_noReset hr (by simp [reading, hpc]) hn]
    simp [afterExpiry, hpc, raise_expireRead]
  · rw [step_of_got_noReset hr (by simp [reading, hpc]) (readNow_byte hb)]
    by_cases hsum : b = s.racc
    · by_cases hl : s.cfg.bufCap < s.L.toNat
      · simp [afterByte, hpc, hsum, handOff, hl, perform, exec, execOverlen, raise_takeByte]
      · simp [afterByte, hpc, hsum, handOff, hl, perform, State.goto, State.takeByte]
    · simp [afterByte, hpc, hsum, raise_takeByte]

/-- Settles O24, by induction on the noise: from IDLE each byte is dropped in two steps, as O15 says. -/
theorem noisyLineIsDroppedByteByByte : Obligations.NoisyLineIsDroppedByteByByte := by
  intro s noise hnoise hpc hq hh htmr hl
  induction noise generalizing s with
  | nil => simp
  | cons b rest ih =>
    obtain ⟨hb, hrest⟩ := Feed.starts_cons.mp hl
    obtain ⟨hfirst, hothers⟩ := List.forall_mem_cons.mp hnoise
    have hdrop := (nostartDropsExactlyOneByte s b hfirst hb).2 hpc hq hh
    have hlater := ih { s with inbound := s.inbound.tail, tmr := 0, trace := s.trace ++ [.rx b, .drop .desync] }
      hothers hpc hq hh rfl hrest
    rw [List.length_cons, Nat.mul_add_one, Nat.add_comm, run_add hdrop, hlater, ← htmr]
    simp

/-! ### The payload loop (R106 to R108, R110) -/

/-- Settles O18: one read ends in its byte or in the sentinel; the loop is `run_payloadReads`, and what it leaves in the
buffer is the payload stored from `cnt` on. -/
theorem readerPerformsExactlyLReads : Obligations.ReaderPerformsExactlyLReads := by
  refine ⟨fun s r hr hpc hne hn => ?_, fun s reads hpc hq hbuf hlen hl => ?_⟩
  · have hread : reading s = true := by simp [reading, hpc, hne]
    cases r with
    | none =>
      rw [step_of_expired_noReset hr hread hn]
      simp [afterExpiry, hpc, storePayload_eq, State.expireRead, readEvent]
    | some b =>
      rw [step_of_got_noReset hr hread hn]
      simp [afterByte, hpc, storePayload_eq, State.takeByte, readEvent]
  · have hanswers : s.inbound.answers reads := by
      simpa [List.takeD_eq_take] using Feed.answers_takeD (n := reads.length) hl (.inl (Nat.le_refl _))
    have hcnt : s.cnt + BitVec.ofNat 8 reads.length = s.L := by bv_omega
    refine ⟨(s.afterReads reads).buf, (s.afterReads reads).racc, ?_, fun k hk hcap => ?_, fun a ha => ?_, rfl⟩
    · rw [run_payloadReads hq hpc hlen hanswers, State.afterReads, hcnt]
    · rw [State.afterReads, storeFrom_read hbuf, if_pos (by simp; omega)]
      simp [hk]
    · rw [State.afterReads, storeFrom_read hbuf, if_neg (by simp; omega)]

/-- What the sequencer does to the frame buffer: nothing, or the write of one payload byte at `cnt`, below the
capacity. -/
inductive BufCase (s t : State) : Prop
  | kept (hbuf : t.buf = s.buf)
  | wrote (hpc : s.pc = .rxPayload) (hne : s.cnt ≠ s.L) (hlt : s.cnt.toNat < s.cfg.bufCap) (b : Byte)
      (hbuf : t.buf = s.buf.write s.cnt.toNat b)

/-- A payload byte whose read has kept the count, the parameters and the buffer is written below the capacity only. -/
theorem bufCase_storePayload {s u t : State} {b : Byte} (hpc : s.pc = .rxPayload) (hne : s.cnt ≠ s.L)
    (hcfg : u.cfg = s.cfg) (hcnt : u.cnt = s.cnt) (hbuf : u.buf = s.buf) (ht : storePayload b u = .next t) :
    BufCase s t := by
  rw [storePayload_eq, hcfg, hcnt, hbuf] at ht
  cases ht
  by_cases hlt : s.cnt.toNat < s.cfg.bufCap
  · exact .wrote hpc hne hlt b (if_pos hlt)
  · exact .kept (if_neg hlt)

/-- Every case of the sequencer treats the frame buffer in one of these ways. -/
theorem StepCase.bufCase {s t : State} (hc : StepCase s t) : BufCase s t := by
  cases hc with
  | payloadByte hpc hne b _ ht => exact bufCase_storePayload (u := s.takeByte b) hpc hne rfl rfl rfl ht
  | payloadExpired hpc hne _ ht => exact bufCase_storePayload (u := s.expireRead) hpc hne rfl rfl rfl ht
  | hostOp _ i hi hne ht =>
    subst hi
    obtain ⟨eff, es, rfl, -, -⟩ := hostOp_cases hne ht
    exact .kept rfl
  | polled _ _ ht =>
    rcases poll_cases s.hostDone with ⟨-, hp⟩ | ⟨-, hp⟩
    · exact .kept (by rw [ht, hp]; rfl)
    · exact .kept (by rw [ht, hp]; rfl)
  | checksumFailed _ ht =>
    rcases ht with ⟨-, rfl⟩ | ⟨_, -, -, rfl⟩
    · exact .kept rfl
    · exact .kept rfl
  | dispatched _ i hi ht =>
    rcases dispatch_cases hi ht with ⟨c, rfl⟩ | ⟨c, -, hp⟩
    · exact .kept rfl
    · cases hp
      exact .kept rfl
  | offered _ _ ht =>
    rcases txWrite_cases s with ⟨-, hw⟩ | ⟨-, hw⟩
    · exact .kept (by rw [ht, hw])
    · exact .kept (by rw [ht, hw])
  | notified _ _ _ _ _ ht =>
    cases ht
    exact .kept rfl
  | _ => exact .kept (by subst_vars; rfl)

/-- Settles O26: of the cases of a step, only a payload read writes the buffer, and a write changes its own index
only. -/
theorem bufferIsWrittenOnlyWithinCapacity : Obligations.BufferIsWrittenOnlyWithinCapacity := by
  intro s t hbuf hr h a hne
  rcases step_cases h with ⟨hr', -⟩ | ⟨-, hc⟩
  · simp [hr] at hr'
  cases hc.bufCase with
  | kept hkept => exact absurd (congrArg (Memory.read · a) hkept) hne
  | wrote hpc hcnt hlt b hwrite =>
    have ha : a = s.cnt.toNat := by
      by_contra ha
      rw [hwrite, State.sampleRst_buf, Memory.read_write hbuf] at hne
      exact hne (if_neg ha)
    exact ⟨hpc, hcnt, ha, ha ▸ hlt⟩

/-- The ticks of one `RX_TIMEOUT` end a payload read as one gap does. -/
theorem run_of_expiringPayloadRead {s : State} (hq : s.rst = .silent) (hpc : s.pc = .rxPayload) (hne : s.cnt ≠ s.L)
    (htmr : s.tmr = 0) (hpos : 0 < s.cfg.rxTimeout)
    (hl : s.inbound.starts (List.replicate s.cfg.rxTimeout .tick) = true) :
    run s.cfg.rxTimeout s = .next { s.afterReads [none] with inbound := s.inbound.drop s.cfg.rxTimeout } := by
  obtain ⟨k, hk⟩ : ∃ k, s.cfg.rxTimeout = k + 1 := ⟨s.cfg.rxTimeout - 1, by omega⟩
  have hreading : reading s = true := by simp [reading, hpc, hne]
  rw [hk, List.replicate_succ', Feed.starts_append, List.length_replicate, Feed.starts_cons] at hl
  obtain ⟨hwaits, hlast, -⟩ := hl
  have hrun := run_of_ticks hq hreading hwaits (by omega)
  have hexpired : readNow { s with inbound := s.inbound.drop k, tmr := s.tmr + k } = .expired := by
    simp [readNow, hlast, htmr, hk]
  have hstep := step_of_expired (s := { s with inbound := s.inbound.drop k, tmr := s.tmr + k }) hq hreading hexpired
  have hdrop : s.inbound.drop (k + 1) = (s.inbound.drop k).tail := Feed.drop_add k 1 s.inbound
  rw [hk, run_add hrun, run_succ, hstep, hdrop]
  simp [afterExpiry, hpc, storePayload_eq, State.expireRead, State.afterReads, storeFrom, readEvent]

/-- Settles O22, by induction on the reads that are left: each takes the ticks of one `RX_TIMEOUT`. -/
theorem payloadBlockingIsBounded : Obligations.PayloadBlockingIsBounded := by
  intro s hpc hq htmr hpos hle
  obtain ⟨d, hd⟩ : ∃ d, s.L.toNat - s.cnt.toNat = d := ⟨_, rfl⟩
  simp only [hd]
  intro hl
  induction d generalizing s with
  | zero => exact ⟨s, rfl, hpc, by bv_omega, rfl, rfl, by simp⟩
  | succ d ih =>
    have hne : s.cnt ≠ s.L := by bv_omega
    rw [Nat.mul_succ, Nat.add_comm] at hl ⊢
    rw [← List.replicate_append_replicate, Feed.starts_append, List.length_replicate] at hl
    obtain ⟨hfirst, hrest⟩ := hl
    have hrun := run_of_expiringPayloadRead hq hpc hne htmr hpos hfirst
    have hcnt : (s.cnt + 1#8).toNat = s.cnt.toNat + 1 := by bv_omega
    obtain ⟨t, ht, htpc, htcnt, htL, htin, httr⟩ :=
      ih { s.afterReads [none] with inbound := s.inbound.drop s.cfg.rxTimeout } hpc hq rfl hpos
        (by simp only [State.afterReads, List.length_singleton, hcnt]; omega)
        (by simp only [State.afterReads, List.length_singleton, hcnt]; omega) hrest
    refine ⟨t, (run_add hrun).trans ht, htpc, htcnt, htL, htin.trans (Feed.drop_add ..).symm, httr.trans ?_⟩
    simp [State.afterReads, readEvent, List.replicate_succ]

/-! ### The time of a read attempt (R28, R52, R112) -/

/-- The time units that pass in one step: those of the outstanding timed read, if there is one. -/
def stepTime (s : State) : Nat := if reading s then readTime s else 0

/-- The read attempt at `s` ends, at IDLE or with a frame handed over, and is in progress until then; the length
declared where it ends and the time spent satisfy `P`. -/
def AttemptEnds (s : State) (P : Byte → Nat → Prop) : Prop :=
  ∃ (n : Nat) (t : State), run n s = .next t ∧ (t.pc = .idle ∨ t.pc = .dispatch) ∧
    (∀ m u, m < n → run m s = .next u → attempting u.pc = true) ∧ P t.L (timeSpent n s)

section AttemptEnds
variable {s u : State} {P Q : Byte → Nat → Prop}

theorem AttemptEnds.mono (h : AttemptEnds s P) (hPQ : ∀ L w, P L w → Q L w) : AttemptEnds s Q := by
  obtain ⟨n, t, hrun, hend, hbusy, hP⟩ := h
  exact ⟨n, t, hrun, hend, hbusy, hPQ _ _ hP⟩

theorem attemptEnds_of_ended (hend : s.pc = .idle ∨ s.pc = .dispatch) (hP : P s.L 0) : AttemptEnds s P :=
  ⟨0, s, rfl, hend, fun _ _ hm => absurd hm (Nat.not_lt_zero _), hP⟩

/-- An attempt in progress takes the time of its next step and of what is left of it. -/
theorem attemptEnds_of_step (hatt : attempting s.pc = true) (hstep : step s = .next u)
    (h : AttemptEnds u fun L w => P L (stepTime s + w)) : AttemptEnds s P := by
  obtain ⟨n, t, hrun, hend, hbusy, hP⟩ := h
  refine ⟨n + 1, t, (run_of_step hstep).trans hrun, hend, fun m v hm hv => ?_, ?_⟩
  · cases m with
    | zero =>
      cases hv
      exact hatt
    | succ m =>
      rw [run_of_step hstep] at hv
      exact hbusy m v (by omega) hv
  · rw [timeSpent, hstep]
    exact hP

theorem attempting_of_reading (hr : reading s = true) : attempting s.pc = true := by
  unfold reading at hr
  split at hr
  · next hpc => rw [hpc]; rfl
  · next hpc => rw [hpc]; rfl
  · next hpc => rw [hpc]; rfl
  · next hpc => rw [hpc]; rfl
  all_goals cases hr

theorem stepTime_of_reading (hr : reading s = true) : stepTime s = readTime s := if_pos hr

/-- A read below its timeout takes in one step no more than what is left of `RX_TIMEOUT`. -/
theorem readTime_le (hlt : s.tmr < s.cfg.rxTimeout) : readTime s ≤ s.cfg.rxTimeout - s.tmr := by
  unfold readTime
  split <;> omega

theorem exists_readNowOf (hn : readNow s ≠ .waiting) : ∃ r, readNow s = readNowOf r := by
  cases h : readNow s with
  | got b => exact ⟨some b, rfl⟩
  | expired => exact ⟨none, rfl⟩
  | waiting => exact absurd h hn

/-- `v` has the outstanding read of `s`: ticks on the way have not touched what decides where it leads. -/
structure SameRead (s v : State) : Prop where
  cfg : v.cfg = s.cfg
  pc : v.pc = s.pc
  L : v.L = s.L
  cnt : v.cnt = s.cnt
  rst : v.rst = s.rst

/-- An outstanding read is over within the `b` time units that are left of `RX_TIMEOUT`, whatever the line does; the
attempt goes on from there. -/
theorem attemptEnds_of_read {b : Nat} (hq : s.rst = .silent) (hr : reading s = true)
    (hb : s.tmr + b = s.cfg.rxTimeout) (hpos : 0 < b)
    (h : ∀ v r, SameRead s v → readNow v = readNowOf r →
      ∃ u, step v = .next u ∧ AttemptEnds u fun L w => ∀ x, x ≤ b → P L (x + w)) : AttemptEnds s P := by
  induction b generalizing s P with
  | zero => omega
  | succ b ih =>
    by_cases hw : readNow s = .waiting
    · have hstep : step s = .next s.tickOn := (step_of_quiet hq).trans (perform_action_of_waiting hr hw)
      obtain ⟨htick, hlt⟩ := readNow_waiting.mp hw
      have htime : stepTime s = 1 := by simp [stepTime_of_reading hr, readTime, htick]
      have hleft : s.tickOn.tmr + b = s.tickOn.cfg.rxTimeout := by
        rw [State.tickOn_tmr, State.tickOn_cfg]
        omega
      refine attemptEnds_of_step (attempting_of_reading hr) hstep (ih hq hr hleft (by omega) fun v r hv hn => ?_)
      obtain ⟨u, hu, hend⟩ := h v r ⟨hv.cfg, hv.pc, hv.L, hv.cnt, hv.rst⟩ hn
      refine ⟨u, hu, hend.mono fun L w hP x hx => ?_⟩
      rw [htime, Nat.add_comm, Nat.add_right_comm]
      exact hP (x + 1) (by omega)
    · obtain ⟨r, hn⟩ := exists_readNowOf hw
      obtain ⟨u, hu, hend⟩ := h s r ⟨rfl, rfl, rfl, rfl, rfl⟩ hn
      refine attemptEnds_of_step (attempting_of_reading hr) hu (hend.mono fun L w hP => hP _ ?_)
      rw [stepTime_of_reading hr]
      exact (readTime_le (by omega)).trans (by omega)

end AttemptEnds

/-- The number of reads of the checksum stage. -/
def checksumReads (cfg : Config) : Nat := if cfg.rxCsumEn then 1 else 0

/-- One payload read that is over, whatever has ended it. -/
theorem step_of_payloadReadNow {s : State} {r : Option Byte} (hq : s.rst = .silent) (hpc : s.pc = .rxPayload)
    (hne : s.cnt ≠ s.L) (hn : readNow s = readNowOf r) : step s = .next (s.afterReads [r]) := by
  rw [readerPerformsExactlyLReads.1 s r (rstAsserted_of_silent hq) hpc hne hn, State.sampleRst_of_silent hq]
  simp [State.afterReads, storeFrom]

section Bound
variable {s : State} (hq : s.rst = .silent) (htmr : s.tmr = 0) (hpos : 0 < s.cfg.rxTimeout)
include hq htmr hpos

/-- The checksum stage is one read. -/
theorem attemptEnds_rxCsum (hpc : s.pc = .rxCsum) : AttemptEnds s fun L w => L = s.L ∧ w ≤ s.cfg.rxTimeout := by
  refine attemptEnds_of_read hq (by simp [reading, hpc]) (by omega) hpos fun v r hv hn => ?_
  obtain ⟨expired, got⟩ := (checksumStageChecksOneByte v (rstAsserted_of_silent (hv.rst.trans hq))).2 (hv.pc.trans hpc)
  cases r with
  | none => exact ⟨_, expired hn, attemptEnds_of_ended (.inl rfl) fun x hx => ⟨hv.L, hx⟩⟩
  | some b =>
    refine ⟨_, got b (readNow_got.mp hn), ?_⟩
    split
    · exact attemptEnds_of_ended (.inl rfl) fun x hx => ⟨hv.L, hx⟩
    split
    · exact attemptEnds_of_ended (.inl rfl) fun x hx => ⟨hv.L, hx⟩
    · exact attemptEnds_of_ended (.inr rfl) fun x hx => ⟨hv.L, hx⟩

omit htmr in
/-- At the end of the payload only the checksum stage can take time. -/
theorem attemptEnds_payloadEnd (hpc : s.pc = .rxPayload) (he : s.cnt = s.L) :
    AttemptEnds s fun L w => L = s.L ∧ w ≤ s.cfg.rxTimeout * checksumReads s.cfg := by
  have hr := rstAsserted_of_silent hq
  have hatt : attempting s.pc = true := by simp [hpc, attempting]
  have htime : stepTime s = 0 := by simp [stepTime, reading, hpc, he]
  cases hc : s.cfg.rxCsumEn with
  | true =>
    have hstep := (checksumStageChecksOneByte s hr).1 hpc he hc
    rw [State.sampleRst_of_silent hq] at hstep
    have hstage := attemptEnds_rxCsum (s := { s with pc := .rxCsum, tmr := 0 }) hq rfl hpos rfl
    refine attemptEnds_of_step hatt hstep (hstage.mono fun L w hLw => ?_)
    simpa [htime, checksumReads, hc] using hLw
  | false =>
    obtain ⟨within, beyond⟩ := overflowIsTestedAfterTheDrain s hr hpc he hc
    by_cases hl : s.L.toNat ≤ s.cfg.bufCap
    · exact attemptEnds_of_step hatt (within hl) (attemptEnds_of_ended (.inr rfl) ⟨rfl, by simp [htime]⟩)
    · exact attemptEnds_of_step hatt (beyond (by omega)) (attemptEnds_of_ended (.inl rfl) ⟨rfl, by simp [htime]⟩)

/-- The payload loop, by induction on the reads that are left. -/
theorem attemptEnds_rxPayload {d : Nat} (hpc : s.pc = .rxPayload) (hd : s.cnt.toNat + d = s.L.toNat) :
    AttemptEnds s fun L w => L = s.L ∧ w ≤ s.cfg.rxTimeout * (d + checksumReads s.cfg) := by
  induction d generalizing s with
  | zero =>
    rw [Nat.zero_add]
    exact attemptEnds_payloadEnd hq hpos hpc (by bv_omega)
  | succ d ih =>
    have hne : s.cnt ≠ s.L := by bv_omega
    refine attemptEnds_of_read hq (by simp [reading, hpc, hne]) (by omega) hpos fun v r hv hn => ?_
    have hqv : v.rst = .silent := hv.rst.trans hq
    have hpcv : v.pc = .rxPayload := hv.pc.trans hpc
    have hnev : v.cnt ≠ v.L := by rwa [hv.cnt, hv.L]
    have hposv : 0 < v.cfg.rxTimeout := by rwa [hv.cfg]
    have hcnt : (v.cnt + 1#8).toNat + d = v.L.toNat := by
      rw [hv.cnt, hv.L]
      bv_omega
    have hrest := ih (s := v.afterReads [r]) hqv rfl hposv hpcv hcnt
    refine ⟨_, step_of_payloadReadNow hqv hpcv hnev hn, hrest.mono fun L w hLw x hx => ?_⟩
    obtain ⟨hL, hw⟩ : L = v.L ∧ w ≤ v.cfg.rxTimeout * (d + checksumReads v.cfg) := hLw
    rw [hv.cfg] at hw
    exact ⟨hL.trans hv.L, by linarith⟩

/-- The length read, and the payload of the length it declares. -/
theorem attemptEnds_rxLen (hpc : s.pc = .rxLen) :
    AttemptEnds s fun L w => w ≤ s.cfg.rxTimeout * (1 + L.toNat + checksumReads s.cfg) := by
  refine attemptEnds_of_read hq (by simp [reading, hpc]) (by omega) hpos fun v r hv hn => ?_
  have hqv : v.rst = .silent := hv.rst.trans hq
  have hpcv : v.pc = .rxLen := hv.pc.trans hpc
  have hposv : 0 < v.cfg.rxTimeout := by rwa [hv.cfg]
  cases r with
  | none =>
    have hstep := (quietStep hqv).nolen hpcv hn
    exact ⟨_, hstep, attemptEnds_of_ended (.inl rfl) fun x hx => by nlinarith⟩
  | some b =>
    have hrest := attemptEnds_rxPayload (s := acceptLength b v) (d := b.toNat) hqv rfl hposv rfl (Nat.zero_add _)
    refine ⟨_, step_of_length hqv hpcv (readNow_got.mp hn), hrest.mono fun L w hLw x hx => ?_⟩
    obtain ⟨rfl, hw⟩ : L = b ∧ w ≤ v.cfg.rxTimeout * (b.toNat + checksumReads v.cfg) := hLw
    rw [hv.cfg] at hw
    linarith

/-- The whole attempt from its start read. -/
theorem attemptEnds_rxStart (hpc : s.pc = .rxStart) :
    AttemptEnds s fun L w => w ≤ s.cfg.rxTimeout * (2 + L.toNat + checksumReads s.cfg) := by
  refine attemptEnds_of_read hq (by simp [reading, hpc]) (by omega) hpos fun v r hv hn => ?_
  have hqv : v.rst = .silent := hv.rst.trans hq
  have hpcv : v.pc = .rxStart := hv.pc.trans hpc
  have hposv : 0 < v.cfg.rxTimeout := by rwa [hv.cfg]
  obtain ⟨-, other, expired⟩ := startReadAcceptsMarkerOnly v (rstAsserted_of_silent hqv) hpcv
  cases r with
  | none => exact ⟨_, expired hn, attemptEnds_of_ended (.inl rfl) fun x hx => by nlinarith⟩
  | some b =>
    have hb := readNow_got.mp hn
    by_cases hmarker : b = startByte
    · subst hmarker
      have hrest := attemptEnds_rxLen (s := acceptStart startByte v) hqv rfl hposv rfl
      refine ⟨_, step_of_marker hqv hpcv hb, hrest.mono fun L w hw x hx => ?_⟩
      have hw' : w ≤ v.cfg.rxTimeout * (1 + L.toNat + checksumReads v.cfg) := hw
      rw [hv.cfg] at hw'
      linarith
    · exact ⟨_, other b hb hmarker, attemptEnds_of_ended (.inl rfl) fun x hx => by nlinarith⟩

/-- On a silent line without a checksum stage every payload read that is left takes a whole `RX_TIMEOUT`. -/
theorem attemptEnds_silentPayload {d : Nat} (hpc : s.pc = .rxPayload) (hd : s.cnt.toNat + d = s.L.toNat)
    (hc : s.cfg.rxCsumEn = false) (hl : s.inbound.head? = none) :
    AttemptEnds s fun L w => L = s.L ∧ w = s.cfg.rxTimeout * d := by
  induction d generalizing s with
  | zero =>
    refine (attemptEnds_payloadEnd hq hpos hpc (by bv_omega)).mono fun L w ⟨hL, hw⟩ => ⟨hL, ?_⟩
    simpa [checksumReads, hc] using hw
  | succ d ih =>
    have hne : s.cnt ≠ s.L := by bv_omega
    have hr : reading s = true := by simp [reading, hpc, hne]
    have htime : stepTime s = s.cfg.rxTimeout := by simp [stepTime_of_reading hr, readTime, hl, htmr]
    have hcnt : (s.cnt + 1#8).toNat + d = s.L.toNat := by bv_omega
    have hsilent : s.inbound.tail.head? = none := by rwa [Feed.tail_of_silent hl]
    have hrest := ih (s := s.afterReads [none]) hq rfl hpos hpc hcnt hc hsilent
    refine attemptEnds_of_step (attempting_of_reading hr)
      (step_of_payloadReadNow (r := none) hq hpc hne (readNow_silent hl)) (hrest.mono fun L w hLw => ?_)
    obtain ⟨hL, hw⟩ : L = s.L ∧ w = s.cfg.rxTimeout * d := hLw
    exact ⟨hL, by rw [htime, hw, Nat.mul_succ, Nat.add_comm]⟩

omit htmr in
/-- Where only start byte and length byte come, their reads take no time and the payload reads all of it. -/
theorem attemptEnds_startAndLength {len : Byte} (hpc : s.pc = .rxStart) (hc : s.cfg.rxCsumEn = false)
    (hl : s.inbound = .ofList [.byte startByte, .byte len]) :
    AttemptEnds s fun L w => L = len ∧ w = s.cfg.rxTimeout * len.toNat := by
  have hmarker : s.inbound.head? = some (.byte startByte) := by rw [hl]; rfl
  have hlength : s.inbound.tail.head? = some (.byte len) := by rw [hl]; rfl
  have hsilent : s.inbound.tail.tail.head? = none := by rw [hl]; rfl
  have hstart : stepTime s = 0 := by simp [stepTime, reading, hpc, readTime, hmarker]
  have hlen : stepTime (acceptStart startByte s) = 0 := by
    simp [stepTime, reading, acceptStart, readTime, hlength]
  have hpayload := attemptEnds_silentPayload (s := acceptLength len (acceptStart startByte s)) (d := len.toNat)
    hq rfl hpos rfl (Nat.zero_add _) hc hsilent
  refine attemptEnds_of_step (by simp [attempting, hpc]) (step_of_marker hq hpc hmarker)
    (attemptEnds_of_step rfl (step_of_length (s := acceptStart startByte s) hq rfl hlength)
      (hpayload.mono fun L w hLw => ?_))
  rw [hstart, hlen, Nat.zero_add, Nat.zero_add]
  exact hLw

end Bound

/-- Settles O57: where only start byte and length byte come, the exact time is within the bound; on any other line the
bound is that of the reads. -/
theorem blockingIsBoundedOverAnAttempt : Obligations.BlockingIsBoundedOverAnAttempt := by
  intro s hpc hq htmr hpos
  by_cases hline : ∃ len, s.inbound = .ofList [.byte startByte, .byte len] ∧ s.cfg.rxCsumEn = false
  · obtain ⟨len, hl, hc⟩ := hline
    obtain ⟨n, t, hrun, hend, hbusy, hL, hw⟩ := attemptEnds_startAndLength hq hpos hpc hc hl
    refine ⟨n, t, hrun, hend, hbusy, ?_, fun len' hl' _ => ?_⟩
    · rw [hw, hL]
      exact Nat.mul_le_mul_left _ (by omega)
    · obtain ⟨-, hlen⟩ : startByte = 0x7B ∧ len = len' := by simpa [hl, Feed.ofList] using hl'
      rw [hw, hlen]
  · obtain ⟨n, t, hrun, hend, hbusy, hw⟩ := attemptEnds_rxStart hq htmr hpos hpc
    exact ⟨n, t, hrun, hend, hbusy, hw, fun len hl hc => absurd ⟨len, hl, hc⟩ hline⟩

/-! ### The dead registers (R27, R28, R30, R35, R113) -/

/-- A frame is being read or is handed to the decoder: its registers are live (R25 to R27, R29). -/
def framing : Pos → Bool
  | .rxPayload => true
  | .rxCsum => true
  | .dispatch => true
  | .idle => false
  | .rxStart => false
  | .rxLen => false
  | .tx => false
  | .host => false

/-- A toggle is in progress: its latches are live (log 2). -/
def toggling : Pos → Bool
  | .tx => true
  | .host => true
  | .idle => false
  | .rxStart => false
  | .rxLen => false
  | .rxPayload => false
  | .rxCsum => false
  | .dispatch => false

/-- The frame in progress is the same in both states: its length, its count and sum, and the bytes it has stored. -/
structure SameFrame (s t : State) : Prop where
  L : s.L = t.L
  cnt : s.cnt = t.cnt
  racc : s.racc = t.racc
  counted : s.cnt.toNat ≤ s.L.toNat
  /-- After the payload loop the whole frame is stored. -/
  whole : s.pc ≠ .rxPayload → s.cnt = s.L
  stored : ∀ a, a < s.cnt.toNat → a < s.cfg.bufCap → s.buf.read a = t.buf.read a

/-- Two states agree on every register that is live at their position. -/
structure SameLive (s t : State) : Prop extends SameButDead s t where
  bufWf : s.buf.wf = true ∧ t.buf.wf = true
  timer : attempting s.pc = true → s.tmr = t.tmr
  frame : framing s.pc = true → SameFrame s t
  toggle : toggling s.pc = true → s.togC = t.togC ∧ s.togOn = t.togOn
  busy : s.pc = .tx → s.txBusy = t.txBusy
  /-- The frame at the transport is live while a byte of it is outstanding. -/
  outbound : s.pc = .tx → s.txBusy = true → s.txf = t.txf ∧ s.txi = t.txi

/-- Both answer a next state, and these agree on the live registers. -/
def Alike (a b : Result) : Prop := ∃ s t, a = .next s ∧ b = .next t ∧ SameLive s t

theorem decodeHop_format (p : HostPort) : (decodeHop p).format = .hop := by
  unfold decodeHop
  split
  · rfl
  split
  · rfl
  split
  · rfl
  · rfl

section SameButDead
variable {s t : State} (h : SameButDead s t)
include h

theorem SameButDead.emit (es : List Event) : SameButDead (s.emit es) (t.emit es) :=
  { h with trace := congrArg (· ++ es) h.trace }

theorem SameButDead.goto (p : Pos) : SameButDead (s.goto p) (t.goto p) := { h with pc := rfl }

theorem SameButDead.passTime : SameButDead s.passTime t.passTime := { h with inbound := congrArg Feed.tail h.inbound }

theorem SameButDead.tickOn : SameButDead s.tickOn t.tickOn := { h with inbound := congrArg Feed.tail h.inbound }

theorem SameButDead.hostDone : SameButDead s.hostDone t.hostDone := { h with hostq := congrArg Feed.tail h.hostq }

theorem SameButDead.sampleRst : SameButDead s.sampleRst t.sampleRst := { h with rst := congrArg Feed.tail h.rst }

theorem SameButDead.takeByte (b : Byte) : SameButDead (s.takeByte b) (t.takeByte b) :=
  { h with inbound := congrArg Feed.tail h.inbound, trace := congrArg (· ++ [Event.rx b]) h.trace }

theorem SameButDead.expireRead : SameButDead s.expireRead t.expireRead :=
  { h with inbound := congrArg Feed.tail h.inbound, trace := congrArg (· ++ [Event.rxNone]) h.trace }

theorem SameButDead.raise (c : Cond) : SameButDead (raise s c) (raise t c) := (h.emit [.drop c]).goto .idle

theorem SameButDead.resetRegs : SameButDead s.resetRegs t.resetRegs :=
  { h with ch := rfl, seq := congrArg Config.seqReset h.cfg, eff := rfl, pc := rfl, nq := rfl }

/-- Where no toggle is in progress, only the timer of a read and the frame in progress are live beside. -/
theorem SameButDead.sameLive_of_not_toggling (hpc : toggling s.pc = false) (hbuf : s.buf.wf = true ∧ t.buf.wf = true)
    (htmr : attempting s.pc = true → s.tmr = t.tmr) (hframe : framing s.pc = true → SameFrame s t) : SameLive s t where
  toSameButDead := h
  bufWf := hbuf
  timer := htmr
  frame := hframe
  toggle := by simp [hpc]
  busy := fun htx => by simp [htx, toggling] at hpc
  outbound := fun htx => by simp [htx, toggling] at hpc

/-- At IDLE nothing is live beside. -/
theorem SameButDead.sameLive_of_idle (hpc : s.pc = .idle) (hbuf : s.buf.wf = true ∧ t.buf.wf = true) : SameLive s t :=
  h.sameLive_of_not_toggling (by rw [hpc]; rfl) hbuf (by simp [hpc, attempting]) (by simp [hpc, framing])

end SameButDead

section SameLive
variable {s t : State} (h : SameLive s t)
include h

theorem SameLive.raise (c : Cond) : SameLive (raise s c) (raise t c) :=
  (h.toSameButDead.raise c).sameLive_of_idle rfl h.bufWf

theorem SameLive.resetRegs : SameLive s.resetRegs t.resetRegs :=
  h.toSameButDead.resetRegs.sameLive_of_idle rfl ⟨rfl, rfl⟩

theorem SameLive.sampleRst : SameLive s.sampleRst t.sampleRst :=
  { h with
    toSameButDead := h.toSameButDead.sampleRst
    frame := fun hp => { h.frame hp with } }

theorem SameLive.takeByte (b : Byte) : SameLive (s.takeByte b) (t.takeByte b) :=
  { h with
    toSameButDead := h.toSameButDead.takeByte b
    timer := fun _ => rfl
    frame := fun hp => { h.frame hp with } }

theorem SameLive.expireRead : SameLive s.expireRead t.expireRead :=
  { h with
    toSameButDead := h.toSameButDead.expireRead
    timer := fun _ => rfl
    frame := fun hp => { h.frame hp with } }

theorem SameLive.tickOn : SameLive s.tickOn t.tickOn :=
  { h with
    toSameButDead := h.toSameButDead.tickOn
    timer := fun hp => congrArg (· + 1) (h.timer hp)
    frame := fun hp => { h.frame hp with } }

/-! #### What the sequencer reads -/

theorem SameLive.readNow_eq (hatt : attempting s.pc = true) : readNow s = readNow t := by
  unfold readNow
  rw [h.inbound, h.cfg, h.timer hatt]

theorem SameLive.reading_eq : reading s = reading t := by
  unfold reading
  rw [← h.pc]
  split
  · rfl
  · rfl
  · next hpc =>
    have hf := h.frame (by rw [hpc]; rfl)
    rw [hf.cnt, hf.L]
  all_goals rfl

theorem SameLive.hostPort_eq : hostPort s = hostPort t := by rw [hostPort, hostPort, h.hostq]

/-- At DISPATCH the decoder reads only bytes that the frame in progress has stored. -/
theorem SameLive.decodeBuffer_eq (hpc : s.pc = .dispatch) : decodeBuffer s = decodeBuffer t := by
  have hf := h.frame (by rw [hpc]; rfl)
  have hcnt : s.cnt = s.L := hf.whole (by simp [hpc])
  by_cases hcap : s.cfg.bufCap < s.L.toNat
  · rw [decodeBuffer_of_overlen hcap, decodeBuffer_of_overlen (by rwa [← h.cfg, ← hf.L]), hf.L]
  by_cases hlow : s.L.toNat < s.cfg.decBase + 3
  · rw [decodeBuffer_of_short hlow (by omega), decodeBuffer_of_short (by rwa [← h.cfg, ← hf.L])
      (by rw [← h.cfg, ← hf.L]; omega), hf.L]
  have hlen : s.cfg.decodable s.L = true := decodable_iff.mpr ⟨by omega, by omega⟩
  have hread (k : Nat) (hk : k < s.L.toNat) : s.buf.read k = t.buf.read k := hf.stored k (hcnt ▸ hk) (by omega)
  rw [decodeBuffer_of_decodable hlen, decodeBuffer_of_decodable (by rwa [← h.cfg, ← hf.L]), hread _ (by omega),
    hread _ (by omega), hread _ (by omega), hf.L, h.cfg]

/-! #### What the sequencer does -/

/-- Every instruction, run where the sequencer runs it, acts alike. -/
theorem exec_alike {i : Instr} (hhop : i.format = .hop → s.pc = .idle) (htxf : i.format = .txf → s.pc = .tx) :
    Alike (exec i s) (exec i t) := by
  cases i with
  | nostart b => exact ⟨_, _, rfl, rfl, (h.takeByte b).raise _⟩
  | nolen => exact ⟨_, _, rfl, rfl, h.expireRead.raise _⟩
  | overlen | short | rsvd | swevNop | swevBadch => exact ⟨_, _, rfl, rfl, h.raise _⟩
  | swevPress len c =>
    refine ⟨_, _, rfl, rfl, ?_⟩
    exact
      { h with
        ch := by dsimp only; rw [h.ch]
        nq := by dsimp only; rw [h.ch]
        pc := rfl
        timer := nofun
        frame := nofun
        toggle := fun _ => ⟨rfl, by dsimp only; rw [h.ch]⟩
        busy := fun _ => rfl
        outbound := nofun }
  | stat seq c on =>
    refine ⟨_, _, rfl, rfl, ?_⟩
    exact
      { h with
        seq := by dsimp only; rw [h.seq]
        nq := by dsimp only; rw [h.nq]
        pc := rfl
        timer := nofun
        frame := nofun
        toggle := fun _ => h.toggle (by rw [htxf rfl]; rfl)
        busy := fun _ => rfl
        outbound := fun _ _ => ⟨by dsimp only; rw [h.seq], rfl⟩ }
  | cfgImport valid v =>
    have heff (eff : Table Byte) : SameButDead { s with eff := eff } { t with eff := eff } := { h with eff := rfl }
    cases valid with
    | true => exact ⟨_, _, rfl, rfl, ((heff v).emit _).hostDone.sameLive_of_idle (hhop rfl) h.bufWf⟩
    | false => exact ⟨_, _, rfl, rfl, (((heff _).emit _).emit _).hostDone.sameLive_of_idle (hhop rfl) h.bufWf⟩
  | cfgExport =>
    refine ⟨_, _, rfl, rfl, ?_⟩
    rw [h.eff]
    exact (h.toSameButDead.emit _).hostDone.sameLive_of_idle (hhop rfl) h.bufWf
  | statusExport =>
    refine ⟨_, _, rfl, rfl, ?_⟩
    rw [h.eff]
    exact (h.toSameButDead.emit _).hostDone.sameLive_of_idle (hhop rfl) h.bufWf
  | hopNone => exact ⟨_, _, rfl, rfl, h.toSameButDead.hostDone.sameLive_of_idle (hhop rfl) h.bufWf⟩

/-- Of the registers that are dead at IDLE the availability check only writes the timer. -/
theorem poll_sameLive (hpc : s.pc = .idle) : SameLive (poll s) (poll t) := by
  have havail : rxAvail s = rxAvail t := by rw [rxAvail, rxAvail, h.inbound]
  rcases poll_cases s with ⟨hs, hps⟩ | ⟨hs, hps⟩
  · rw [hps, poll, ← havail, hs]
    have hdead : SameButDead { s with pc := .rxStart, tmr := 0 } { t with pc := .rxStart, tmr := 0 } :=
      { h.toSameButDead with pc := rfl }
    exact hdead.sameLive_of_not_toggling rfl h.bufWf (fun _ => rfl) nofun
  · rw [hps, poll, ← havail, hs]
    exact h.toSameButDead.passTime.sameLive_of_idle hpc h.bufWf

/-- A payload byte is stored at the same index of the frame in progress. -/
theorem storePayload_alike (b : Byte) (hpc : s.pc = .rxPayload) (hne : s.cnt ≠ s.L) :
    Alike (storePayload b s) (storePayload b t) := by
  have hf := h.frame (by rw [hpc]; rfl)
  have hcount := hf.counted
  have hcnt : (s.cnt + 1).toNat = s.cnt.toNat + 1 := by bv_omega
  rw [storePayload_eq, storePayload_eq, ← h.cfg, ← hf.cnt, ← hf.racc]
  refine ⟨_, _, rfl, rfl, SameButDead.sameLive_of_not_toggling { h.toSameButDead with cfg := rfl } ?_ ?_ h.timer
    fun _ => { L := hf.L, cnt := rfl, racc := rfl, counted := ?_, whole := fun hp => absurd hpc hp, stored := ?_ }⟩
  · rw [hpc]
    rfl
  · dsimp only
    split
    · exact ⟨Memory.wf_write h.bufWf.1 _ _, Memory.wf_write h.bufWf.2 _ _⟩
    · exact h.bufWf
  · dsimp only
    bv_omega
  · dsimp only
    intro a ha hcap
    split
    · rw [Memory.read_write h.bufWf.1, Memory.read_write h.bufWf.2]
      split
      · rfl
      · exact hf.stored a (by omega) hcap
    · exact hf.stored a (by omega) hcap

/-- The frame in progress is handed over, or dropped as too long. -/
theorem handOff_alike (hpc : framing s.pc = true) (hcnt : s.cnt = s.L) :
    Alike (perform (handOff s)) (perform (handOff t)) := by
  have hf := h.frame hpc
  unfold handOff
  rw [← h.cfg, ← hf.L]
  split
  · exact ⟨_, _, rfl, rfl, h.raise _⟩
  · exact ⟨_, _, rfl, rfl, (h.toSameButDead.goto .dispatch).sameLive_of_not_toggling rfl h.bufWf nofun
      fun _ => { hf with whole := fun _ => hcnt }⟩

theorem afterExpiry_alike (hr : reading s = true) : Alike (afterExpiry s) (afterExpiry t) := by
  unfold afterExpiry
  rw [← h.pc]
  cases hpc : s.pc with
  | rxStart | rxLen | rxCsum => exact ⟨_, _, rfl, rfl, h.raise _⟩
  | rxPayload =>
    dsimp only
    rw [← h.cfg]
    exact storePayload_alike h _ hpc (by simpa [reading, hpc] using hr)
  | _ => simp [reading, hpc] at hr

/-- A byte that is returned leads to the same place; the timer has been loaded with 0. -/
theorem afterByte_alike (b : Byte) (hr : reading s = true) : Alike (afterByte b s) (afterByte b t) := by
  have htmr := h.timer (attempting_of_reading hr)
  unfold afterByte
  rw [← h.pc]
  cases hpc : s.pc with
  | rxStart =>
    dsimp only
    split
    · exact ⟨_, _, rfl, rfl, (h.toSameButDead.goto .rxLen).sameLive_of_not_toggling rfl h.bufWf (fun _ => htmr) nofun⟩
    · exact ⟨_, _, rfl, rfl, h.raise _⟩
  | rxLen =>
    have hdead : SameButDead { s with L := b, cnt := 0, racc := 0, pc := .rxPayload }
        { t with L := b, cnt := 0, racc := 0, pc := .rxPayload } := { h.toSameButDead with pc := rfl }
    exact ⟨_, _, rfl, rfl, hdead.sameLive_of_not_toggling rfl h.bufWf (fun _ => htmr) fun _ =>
      { L := rfl
        cnt := rfl
        racc := rfl
        counted := Nat.zero_le _
        whole := fun hp => absurd rfl hp
        stored := fun _ ha => absurd ha (Nat.not_lt_zero _) }⟩
  | rxPayload => exact storePayload_alike h b hpc (by simpa [reading, hpc] using hr)
  | rxCsum =>
    have hf := h.frame (by rw [hpc]; rfl)
    dsimp only
    rw [← hf.racc]
    split
    · exact handOff_alike h (by rw [hpc]; rfl) (hf.whole (by simp [hpc]))
    · exact ⟨_, _, rfl, rfl, h.raise _⟩
  | _ => simp [reading, hpc] at hr

/-- A step with a read outstanding. -/
theorem action_alike_of_reading (hr : reading s = true) : Alike (perform (action s)) (perform (action t)) := by
  have hrt : reading t = true := h.reading_eq ▸ hr
  have hnow := h.readNow_eq (attempting_of_reading hr)
  cases hn : readNow s with
  | waiting =>
    rw [perform_action_of_waiting hr hn, perform_action_of_waiting hrt (hnow ▸ hn)]
    exact ⟨_, _, rfl, rfl, h.tickOn⟩
  | expired =>
    rw [perform_action_of_expired hr hn, perform_action_of_expired hrt (hnow ▸ hn)]
    exact afterExpiry_alike h.expireRead hr
  | got b =>
    rw [perform_action_of_got hr hn, perform_action_of_got hrt (hnow ▸ hn)]
    exact afterByte_alike (h.takeByte b) b hr

/-- The end of the payload loop. -/
theorem action_alike_of_payloadEnd (hpc : s.pc = .rxPayload) (he : s.cnt = s.L) :
    Alike (perform (action s)) (perform (action t)) := by
  have hf := h.frame (by rw [hpc]; rfl)
  have het : t.cnt = t.L := by rw [← hf.cnt, ← hf.L, he]
  have hen : s.cfg.rxCsumEn = t.cfg.rxCsumEn := congrArg Config.rxCsumEn h.cfg
  rw [action_of_payloadEnd hpc he, action_of_payloadEnd (h.pc ▸ hpc) het, ← hen]
  split
  · have hdead : SameButDead { s with pc := .rxCsum, tmr := 0 } { t with pc := .rxCsum, tmr := 0 } :=
      { h.toSameButDead with pc := rfl }
    exact ⟨_, _, rfl, rfl, hdead.sameLive_of_not_toggling rfl h.bufWf (fun _ => rfl)
      fun _ => { hf with whole := fun _ => he }⟩
  · exact handOff_alike h (by rw [hpc]; rfl) he

theorem action_alike_of_idle (hpc : s.pc = .idle) : Alike (perform (action s)) (perform (action t)) := by
  have hdone : SameLive s.hostDone t.hostDone := h.toSameButDead.hostDone.sameLive_of_idle hpc h.bufWf
  simp only [action, ← h.pc, hpc, atIdle, ← h.hostPort_eq]
  split
  · exact ⟨_, _, rfl, rfl, poll_sameLive hdone hpc⟩
  · exact exec_alike h (fun _ => hpc) (by simp [decodeHop_format])

theorem action_alike_of_dispatch (hpc : s.pc = .dispatch) : Alike (perform (action s)) (perform (action t)) := by
  obtain ⟨i, hi⟩ := decodeBuffer_total s
  simp only [action, ← h.pc, hpc, atDispatch, ← h.decodeBuffer_eq hpc, hi]
  have hformat := decodeBuffer_format hi
  exact exec_alike h (by simp [hformat]) (by simp [hformat])

/-- A byte that is offered is the same in both states, and so is the transport's answer. -/
theorem txWrite_sameLive (hpc : s.pc = .tx) (hx : s.txBusy = true) : SameLive (txWrite s) (txWrite t) := by
  have hxt : t.txBusy = true := h.busy hpc ▸ hx
  obtain ⟨hf, hi⟩ := h.outbound hpc hx
  rcases txWrite_cases s with ⟨hr, hs⟩ | ⟨hr, hs⟩
  · have ht := ((txWrite_cases t).resolve_right fun hn => hn.1 (h.txReady ▸ hr)).2
    have hbyte : txByte s = txByte t := by simp only [txByte, hf, hi]
    rw [hs, ht, ← hbyte, ← hi, hx, hxt]
    exact
      { h with
        txReady := congrArg Feed.tail h.txReady
        trace := congrArg (· ++ [Event.tx (txByte s)]) h.trace
        frame := fun hp => { h.frame hp with }
        busy := fun _ => rfl
        outbound := fun _ _ => ⟨hf, rfl⟩ }
  · have ht := ((txWrite_cases t).resolve_left fun hn => hr (h.txReady ▸ hn.1)).2
    rw [hs, ht]
    exact { h with txReady := congrArg Feed.tail h.txReady, frame := fun hp => { h.frame hp with } }

theorem action_alike_of_tx (hpc : s.pc = .tx) : Alike (perform (action s)) (perform (action t)) := by
  simp only [action, ← h.pc, hpc, atTx, ← h.busy hpc, ← h.nq, ← h.seq]
  split
  · next hx => exact ⟨_, _, rfl, rfl, txWrite_sameLive h hpc hx⟩
  · split
    · refine ⟨_, _, rfl, rfl, ?_⟩
      exact
        { h with
          pc := rfl
          timer := nofun
          frame := nofun
          toggle := fun _ => h.toggle (by rw [hpc]; rfl)
          busy := nofun
          outbound := nofun }
    · next n _ _ => exact exec_alike h (i := .stat s.seq n.c n.on) nofun fun _ => hpc

/-- The host calls are made from the latches of the toggle and the effect table. -/
theorem action_alike_of_host (hpc : s.pc = .host) : Alike (perform (action s)) (perform (action t)) := by
  obtain ⟨hc, hon⟩ := h.toggle (by rw [hpc]; rfl)
  have hcalls : hostCalls s = hostCalls t := by simp only [hostCalls, hc, hon, h.eff]
  simp only [action, ← h.pc, hpc, atHost]
  refine ⟨_, _, rfl, rfl, ?_⟩
  rw [hostWrites, hostWrites, ← hcalls]
  exact ((h.toSameButDead.emit _).goto .idle).sameLive_of_idle rfl h.bufWf

/-- At every position the sequencer acts alike. -/
theorem action_alike : Alike (perform (action s)) (perform (action t)) := by
  cases hpc : s.pc with
  | idle => exact action_alike_of_idle h hpc
  | rxStart | rxLen | rxCsum => exact action_alike_of_reading h (by simp [reading, hpc])
  | rxPayload =>
    by_cases he : s.cnt = s.L
    · exact action_alike_of_payloadEnd h hpc he
    · exact action_alike_of_reading h (by simp [reading, hpc, he])
  | dispatch => exact action_alike_of_dispatch h hpc
  | tx => exact action_alike_of_tx h hpc
  | host => exact action_alike_of_host h hpc

theorem step_alike : Alike (step s) (step t) := by
  have hrst : rstAsserted s = rstAsserted t := by rw [rstAsserted, rstAsserted, h.rst]
  unfold step
  rw [← hrst]
  split
  · exact ⟨_, _, rfl, rfl, h.sampleRst.resetRegs⟩
  · exact action_alike h.sampleRst

theorem run_alike (n : Nat) : Alike (run n s) (run n t) := by
  induction n generalizing s t with
  | zero => exact ⟨s, t, rfl, rfl, h⟩
  | succ n ih =>
    obtain ⟨s', t', hs, ht, h'⟩ := step_alike h
    rw [run_of_step hs, run_of_step ht]
    exact ih h'

end SameLive

/-- Settles O56: at IDLE the two states agree on the live registers, and every step keeps that, by induction on the
steps. -/
theorem deadRegistersAreUnobservable : Obligations.DeadRegistersAreUnobservable := by
  intro s t n hpc hs ht h
  obtain ⟨s', t', hs', ht', h'⟩ := run_alike (h.sameLive_of_idle hpc ⟨hs, ht⟩) n
  exact ⟨s', t', hs', ht', h'.toSameButDead⟩

end Sys2Proof.Machine

/-! ## The proofs of the family 41_frame_decoder: the fields decide, the step at DISPATCH -/

namespace Sys2Proof

/-! ### Channel numbers (R76, R135) -/

theorem channelInRange_eq_false {b : Byte} : channelInRange b = false ↔ b = 0 ∨ 8 < b.toNat := by
  have hzero : b = 0 ↔ b.toNat = 0 := BitVec.toNat_inj.symm
  rw [hzero]
  simp [channelInRange, imp_iff_not_or]

theorem eq_chanNumber_of_toNat {b : Byte} {c : Chan} (h : b.toNat = c.val + 1) : b = chanNumber c :=
  BitVec.eq_of_toNat_eq (h.trans (chanNumber_toNat c).symm)

end Sys2Proof

namespace Sys2Proof.Machine

/-! ### The fields decide (R130, R131, R137) -/

/-- No class of a frame of acceptable length acts on the declared length it carries. -/
theorem exec_classifyFields_len (len len' cmd chan status : Byte) (s : State) :
    exec (classifyFields len cmd chan status) s = exec (classifyFields len' cmd chan status) s := by
  by_cases hcmd : cmd = cmdSwev
  · subst hcmd
    by_cases hstatus : status = stPressed
    · subst hstatus
      cases hchan : chanOfNumber chan with
      | none =>
        have hrange := chanOfNumber_eq_none.mp hchan
        rw [classifyFields_of_badChannel hrange, classifyFields_of_badChannel hrange]
        rfl
      | some c =>
        rw [chanOfNumber_eq_some.mp hchan, classifyFields_of_channel, classifyFields_of_channel]
        rfl
    · rw [classifyFields_of_status_ne hstatus, classifyFields_of_status_ne hstatus]
      rfl
  · rw [classifyFields_of_cmd_ne hcmd, classifyFields_of_cmd_ne hcmd]
    rfl

/-- Settles O6: a decodable frame is classified from its three fields, and its class does not act on the length. -/
theorem framesAgreeingInFieldsActAlike : Obligations.FramesAgreeingInFieldsActAlike := by
  intro cfg len len' p p' s hlen hlen' hfields
  have hcmd : p.getD cfg.decBase 0 = p'.getD cfg.decBase 0 := hfields 0 (by omega)
  rw [classify_of_decodable hlen, classify_of_decodable hlen', hcmd, hfields 1 (by omega), hfields 2 (by omega)]
  exact exec_classifyFields_len ..

/-! ### The step at DISPATCH (R132 to R136) -/

section Dispatch
variable {s : State} (hr : rstAsserted s = false) (hpc : s.pc = .dispatch)
include hr hpc

theorem step_of_decoded {i : Instr} (hi : decodeBuffer s = .ok i) : step s = exec i s.sampleRst := by
  obtain ⟨-, -, -, -, -, -, hdispatch, -⟩ := stepRunsTheDecodedInstruction s hr
  exact hdispatch hpc i hi

/-- A frame of acceptable length runs as the class of its fields. -/
theorem step_of_fields (hlow : s.cfg.decBase + 3 ≤ s.L.toNat) (hcap : s.L.toNat ≤ s.cfg.bufCap)
    {cmd chan status : Byte} (hcmd : s.buf.read s.cfg.decBase = cmd) (hchan : s.buf.read (s.cfg.decBase + 1) = chan)
    (hstatus : s.buf.read (s.cfg.decBase + 2) = status) :
    step s = exec (classifyFields s.L cmd chan status) s.sampleRst := by
  subst hcmd hchan hstatus
  exact step_of_decoded hr hpc (decodeBuffer_of_decodable (decodable_iff.mpr ⟨hlow, hcap⟩))

end Dispatch

/-- Settles O27: the step runs the class of the fields; the ignored classes only raise their condition. -/
theorem unknownCommandsAndChannelsAreIgnored : Obligations.UnknownCommandsAndChannelsAreIgnored := by
  intro s hr hpc hlow hcap cmd chan status dropped
  obtain ⟨-, -, hrsvd, -, hbadch⟩ := ignoredFramesOnlyReturnToIdle s.sampleRst s.L cmd chan status
  refine ⟨fun hcmd => ?_, fun hcmd hstatus hchan => ?_, fun hcmd hstatus c hc => ?_⟩
  · rw [step_of_fields hr hpc hlow hcap rfl rfl rfl, classifyFields_of_cmd_ne hcmd]
    exact hrsvd
  · have hrange : channelInRange chan = false := channelInRange_eq_false.mpr hchan
    rw [step_of_fields (cmd := cmdSwev) (status := stPressed) hr hpc hlow hcap hcmd rfl hstatus,
      classifyFields_of_badChannel hrange]
    exact hbadch
  · have hnum : chan = chanNumber c := eq_chanNumber_of_toNat hc
    rw [step_of_fields (cmd := cmdSwev) (status := stPressed) hr hpc hlow hcap hcmd hnum hstatus,
      classifyFields_of_channel]

/-- Settles O28: a short frame is decoded as SHORT without a read of the buffer; an event that is not pressed is classified
before its channel is looked at. -/
theorem shortAndUnpressedFramesAreIgnored : Obligations.ShortAndUnpressedFramesAreIgnored := by
  intro s hr hpc hcap
  obtain ⟨-, hshort, -, hnop, -⟩ := ignoredFramesOnlyReturnToIdle s.sampleRst s.L cmdSwev
    (s.buf.read (s.cfg.decBase + 1)) (s.buf.read (s.cfg.decBase + 2))
  refine ⟨fun hlow => ?_, fun hlow hcmd hstatus => ?_⟩
  · rw [step_of_decoded hr hpc (decodeBuffer_of_short hlow hcap)]
    exact hshort
  · rw [step_of_fields (cmd := cmdSwev) hr hpc hlow hcap hcmd rfl rfl, classifyFields_of_status_ne hstatus]
    exact hnop

end Sys2Proof.Machine

/-! ## The proofs of the family 42_switch_state_machine: the press, the owed frames, the host calls, a press end to end -/

namespace Sys2Proof.Machine

/-! ### The press (R150 to R153, R159, R160) -/

/-- `s` after SWEV.PRESS of channel index `c`. -/
def State.pressed (s : State) (c : Chan) : State :=
  { s with
    ch := (toggleChannels s.ch c).1
    nq := (toggleChannels s.ch c).2
    togC := c
    togOn := !s.ch[c]
    txBusy := false
    pc := .tx }

@[simp] theorem State.pressed_seq (s : State) (c : Chan) : (s.pressed c).seq = s.seq := rfl

@[simp] theorem State.pressed_trace (s : State) (c : Chan) : (s.pressed c).trace = s.trace := rfl

theorem exec_swevPress (len : Byte) (c : Chan) (s : State) : exec (.swevPress len c) s = .next (s.pressed c) := rfl

theorem toggleChannels_addressed (ch : Table Bool) (c : Chan) : (toggleChannels ch c).1[c] = !ch[c] := by
  rw [toggleChannels_table, if_pos rfl]

theorem toggleChannels_other (ch : Table Bool) {c j : Chan} (hj : j ≠ c) : (toggleChannels ch c).1[j] = false := by
  rw [toggleChannels_table, if_neg hj]

/-- Settles O30: the table and the notifications are those of the toggle; the channels forced off are the other channels
that were on, taken from the ascending list of all channels. -/
theorem pressFlipsAndForcesOthersOff : Obligations.PressFlipsAndForcesOthersOff := by
  intro s len c
  refine ⟨(toggleChannels s.ch c).1, channels.filter fun j => decide (j ≠ c) && s.ch[j], ?_,
    toggleChannels_addressed .., fun j hj => toggleChannels_other _ hj, fun j => ?_, List.Pairwise.filter _ (by decide)⟩
  · rw [exec_swevPress, State.pressed, toggleChannels_owed]
  · simp [mem_channels]

/-- Settles O31: the table after a press is the toggle's, in which only the addressed channel can be on. -/
theorem pressLeavesAtMostOneOn : Obligations.PressLeavesAtMostOneOn := by
  intro s t len c ht
  cases ht
  refine ⟨atMostOneOn_toggleChannels s.ch c, fun j hj => ?_⟩
  have hjc : j = c := by
    by_contra hne
    simp [toggleChannels_other s.ch hne] at hj
  subst hjc
  rw [toggleChannels_addressed] at hj
  exact ⟨rfl, by simpa using hj⟩

/-- A table in which every other channel is off owes a toggle the addressed channel's notification only. -/
theorem toggleChannels_owed_of_others_off {ch : Table Bool} {c : Chan} (h : ∀ j : Chan, j ≠ c → ch[j] = false) :
    (toggleChannels ch c).2 = [{ c := c, on := !ch[c] }] := by
  have hnone : (channels.filter fun j => decide (j ≠ c) && ch[j]) = [] := by
    refine List.filter_eq_nil_iff.mpr fun j _ hj => ?_
    simp only [Bool.and_eq_true, decide_eq_true_eq] at hj
    simp [h j hj.1] at hj
  rw [toggleChannels_owed, hnone, List.map_nil]

/-- Settles O32: the second press flips the channel back, and finds every other channel off. -/
theorem pressTwiceRestoresTheChannel : Obligations.PressTwiceRestoresTheChannel := by
  intro s t t' u len len' c ht hch hu
  cases ht
  cases hu
  have haddressed : t'.ch[c] = !s.ch[c] := by rw [hch, toggleChannels_addressed]
  have hothers (j : Chan) (hj : j ≠ c) : t'.ch[j] = false := by rw [hch, toggleChannels_other _ hj]
  refine ⟨?_, fun j hj => toggleChannels_other _ hj, ?_, ?_⟩
  · rw [toggleChannels_addressed, haddressed, Bool.not_not]
  · rw [toggleChannels_owed]
    exact List.cons_ne_nil _ _
  · rw [toggleChannels_owed_of_others_off hothers, haddressed, Bool.not_not]

/-! ### The host calls (R154 to R158) -/

theorem hostCalls_of_on {s : State} (h : s.togOn = true) :
    hostCalls s = [.setEffect s.eff[s.togC], .setPower Config.powerOnLevel, .directChange] := if_pos h

theorem hostCalls_of_off {s : State} (h : s.togOn = false) : hostCalls s = [.setPower 0, .directChange] := by
  simp [hostCalls, h]

theorem step_of_host {s : State} (hr : rstAsserted s = false) (hpc : s.pc = .host) :
    step s = .next (hostWrites s.sampleRst) := by
  rw [step_of_noReset hr, action, State.sampleRst_pc, hpc]
  rfl

/-- Settles O33: the step at HOST issues the calls of the toggle's new state. -/
theorem hostCallsEndTheToggle : Obligations.HostCallsEndTheToggle := by
  intro s hr hpc
  refine ⟨fun hon => ?_, fun hoff => ?_⟩
  · rw [step_of_host hr hpc, hostWrites, hostCalls_of_on (s := s.sampleRst) hon]
    rfl
  · rw [step_of_host hr hpc, hostWrites, hostCalls_of_off (s := s.sampleRst) hoff]
    rfl

/-! ### The steps at TX (R153, R172, R174) -/

section Send
variable {s : State} (hq : s.rst = .silent) (hpc : s.pc = .tx)
include hq hpc

theorem step_of_busy (hx : s.txBusy = true) : step s = .next (txWrite s) := by
  simp [step_of_quiet hq, action, hpc, atTx, hx, perform]

theorem step_of_allSent (hx : s.txBusy = false) (hnq : s.nq = []) : step s = .next (s.goto .host) := by
  simp [step_of_quiet hq, action, hpc, atTx, hx, hnq, perform]

end Send

/-- The bytes that the transport has not taken yet leave in order, one at each sample at which it is ready; `waits` holds
the samples up to the one that takes the last byte. -/
theorem run_txBytes {s : State} {waits : List Bool} (hq : s.rst = .silent) (hpc : s.pc = .tx) (hx : s.txBusy = true)
    (hwaits : s.txi.val + waits.count true = 6) (hl : s.txReady.starts (waits ++ [true]) = true) :
    run (waits.length + 1) s = .next { s with
      txi := 6
      txBusy := false
      txReady := s.txReady.drop (waits.length + 1)
      trace := s.trace ++ (unsent s).map .tx } := by
  induction waits generalizing s with
  | nil =>
    have hlast : s.txi = 6 := Fin.ext hwaits
    have hready : s.txReady.head? = some true := (Feed.starts_cons.mp hl).1
    obtain ⟨-, hw⟩ := (txWrite_cases s).resolve_right fun hn => hn.1 hready
    rw [List.length_nil, run_of_step (step_of_busy hq hpc hx), hw, run_zero, unsent_eq_cons hpc hx]
    simp [hlast]
  | cons w rest ih =>
    obtain ⟨hhead, htail⟩ := Feed.starts_cons.mp hl
    rw [List.length_cons, run_of_step (step_of_busy hq hpc hx)]
    cases w with
    | false =>
      obtain ⟨-, hw⟩ := (txWrite_cases s).resolve_left fun hn => by simp [hhead] at hn
      rw [hw]
      exact ih (s := { s with txReady := s.txReady.tail }) hq hpc hx (by simpa using hwaits) htail
    | true =>
      rw [List.count_cons_self] at hwaits
      have hmore : s.txi ≠ 6 := fun he => by simp [he] at hwaits
      have hcount : (s.txi + 1).val + rest.count true = 6 := by omega
      have hleft := unsent_txWrite_of_ready hpc hx hhead
      obtain ⟨-, hw⟩ := (txWrite_cases s).resolve_right fun hn => hn.1 hhead
      rw [if_neg hmore, if_neg hmore] at hw
      rw [hw] at hleft ⊢
      rw [ih (s := { s with
          txReady := s.txReady.tail
          trace := s.trace ++ [.tx (txByte s)]
          txi := s.txi + 1 }) hq hpc hx hcount htail, hleft, unsent_eq_cons hpc hx]
      simp

/-- `s` with the frame of its front notification `n` built, and its first byte outstanding. -/
def State.beginFrame (s : State) (n : Notif) : State :=
  { s with txf := statusFrame s.seq n.c n.on, seq := s.seq + 1, txi := 0, txBusy := true, nq := s.nq.tail }

/-- `s` after the frame of its front notification `n` has left whole. -/
def State.afterFrame (s : State) (n : Notif) : State :=
  { s.beginFrame n with
    txi := 6
    txBusy := false
    txReady := s.txReady.drop 7
    trace := s.trace ++ (statusFrame s.seq n.c n.on).toList.map .tx }

section Frames
variable {s : State} (hq : s.rst = .silent) (hpc : s.pc = .tx) (hx : s.txBusy = false)
include hq hpc hx

theorem step_of_owed {n : Notif} {rest : List Notif} (hnq : s.nq = n :: rest) : step s = .next (s.beginFrame n) := by
  rw [(quietStep hq).stat hpc hx n rest hnq, State.beginFrame, hpc]
  rfl

/-- With a transport that takes every byte at once, the frame of the front notification is built and leaves whole. -/
theorem run_frame {n : Notif} {rest : List Notif} (hnq : s.nq = n :: rest)
    (hl : s.txReady.starts (List.replicate 7 true) = true) : run 8 s = .next (s.afterFrame n) := by
  have hunsent : unsent (s.beginFrame n) = (statusFrame s.seq n.c n.on).toList :=
    unsent_of_sending (s := s.beginFrame n) hpc rfl
  have hbytes : run 7 (s.beginFrame n) = _ :=
    run_txBytes (s := s.beginFrame n) (waits := List.replicate 6 true) hq hpc rfl rfl hl
  rw [run_of_step (step_of_owed hq hpc hx hnq), hbytes, hunsent]
  rfl

end Frames

/-- The notifications owed are sent front first, each as a whole frame, and then the core stands at HOST: by induction on
them. What is left in `txf` and `txi` is not named. -/
theorem run_owedFrames {s : State} {ns : List Notif} (hq : s.rst = .silent) (hpc : s.pc = .tx) (hx : s.txBusy = false)
    (hnq : s.nq = ns) (hl : s.txReady.starts (List.replicate (7 * ns.length) true) = true) :
    ∃ f i, run (8 * ns.length + 1) s = .next { s with
      txf := f
      txi := i
      pc := .host
      nq := []
      txBusy := false
      seq := s.seq + BitVec.ofNat 8 ns.length
      txReady := s.txReady.drop (7 * ns.length)
      trace := s.trace ++ statusEvents s.seq ns } := by
  induction ns generalizing s with
  | nil =>
    refine ⟨s.txf, s.txi, ?_⟩
    rw [List.length_nil, run_of_step (step_of_allSent hq hpc hx hnq)]
    simp [State.goto, hnq, hx, statusEvents]
  | cons n rest ih =>
    have hsteps : 8 * (n :: rest).length + 1 = 8 + (8 * rest.length + 1) := by rw [List.length_cons]; omega
    have hsamples : 7 * (n :: rest).length = 7 + 7 * rest.length := by rw [List.length_cons]; omega
    have hcount : s.seq + 1 + BitVec.ofNat 8 rest.length = s.seq + BitVec.ofNat 8 (n :: rest).length := by
      rw [List.length_cons]
      bv_omega
    rw [hsamples, ← List.replicate_append_replicate] at hl
    obtain ⟨hframe, hlater⟩ := Feed.starts_append.mp hl
    obtain ⟨f, i, hrest⟩ := ih (s := s.afterFrame n) hq hpc rfl (congrArg List.tail hnq) hlater
    refine ⟨f, i, ?_⟩
    rw [hsteps, run_add (run_frame hq hpc hx hnq hframe), hrest, ← hcount, hsamples, Feed.drop_add, statusEvents,
      ← List.append_assoc]
    rfl

/-- Settles O40: the run that sends what is owed leaves everything else as it was. -/
theorem owedFramesAreSentInOrder : Obligations.OwedFramesAreSentInOrder := by
  intro s hpc hx hq hl
  obtain ⟨f, i, hrun⟩ := run_owedFrames hq hpc hx rfl hl
  exact ⟨_, hrun, rfl, rfl, rfl, rfl, rfl, rfl, rfl, rfl, rfl, rfl, rfl, rfl, rfl, rfl⟩

/-- What is owed is sent, then the host calls are made, and the toggle ends at IDLE. -/
theorem run_owedToIdle {s : State} {ns : List Notif} (hq : s.rst = .silent) (hpc : s.pc = .tx) (hx : s.txBusy = false)
    (hnq : s.nq = ns) (hl : s.txReady.starts (List.replicate (7 * ns.length) true) = true) :
    ∃ f i, run (8 * ns.length + 2) s = .next { s with
      txf := f
      txi := i
      pc := .idle
      nq := []
      txBusy := false
      seq := s.seq + BitVec.ofNat 8 ns.length
      txReady := s.txReady.drop (7 * ns.length)
      trace := s.trace ++ statusEvents s.seq ns ++ hostCalls s } := by
  obtain ⟨f, i, hsent⟩ := run_owedFrames hq hpc hx hnq hl
  refine ⟨f, i, ?_⟩
  rw [run_add (n := 1) hsent, run_succ, step_of_host (rstAsserted_of_silent (by exact hq)) rfl,
    State.sampleRst_of_silent (by exact hq)]
  rfl

/-! ### A press end to end (R150 to R158, R61 b) -/

/-- `s` at DISPATCH, with the frame of length `len` whose payload reads had the results `rs`. -/
def State.handedFrame (s : State) (len : Byte) (rs : List (Option Byte)) : State :=
  ((s.beginPayload len).afterReads rs).goto .dispatch

theorem readerOnly_handedFrame (s : State) (len : Byte) (rs : List (Option Byte)) :
    ReaderOnly s (s.handedFrame len rs) :=
  ((readerOnly_beginPayload s len).afterReads rs).goto .dispatch

@[simp] theorem State.handedFrame_pc (s : State) (len : Byte) (rs : List (Option Byte)) :
    (s.handedFrame len rs).pc = .dispatch := rfl

@[simp] theorem State.handedFrame_inbound (s : State) (len : Byte) (rs : List (Option Byte)) :
    (s.handedFrame len rs).inbound = s.inbound.drop (rs.length + 2) := rfl

/-- The reads of a frame are in the trace, the start byte and the length byte before the payload. -/
@[simp] theorem State.handedFrame_trace (s : State) (len : Byte) (rs : List (Option Byte)) :
    (s.handedFrame len rs).trace = s.trace ++ (some startByte :: some len :: rs).map readEvent :=
  (List.append_assoc (s.trace ++ [Event.rx startByte]) [Event.rx len] _).trans (List.append_assoc ..)

/-- The results of the payload reads of a press frame: command type, channel number, status. -/
def pressReads (c : Chan) : List (Option Byte) := [some cmdSwev, some (chanNumber c), some stPressed]

/-- What a toggle reads and answers is none of the read path's registers. -/
theorem ReaderOnly.toggle_inputs {s u : State} (h : ReaderOnly s u) :
    u.ch = s.ch ∧ u.seq = s.seq ∧ u.eff = s.eff ∧ u.txReady = s.txReady ∧ u.rst = s.rst := by
  cases h
  exact ⟨rfl, rfl, rfl, rfl, rfl⟩

section Press
variable {s : State} (hpc : s.pc = .idle) (hh : s.hostq = .silent) (hq : s.rst = .silent) (hc : s.cfg.rxCsumEn = false)
include hpc hh hq hc

/-- A frame within the bound stands at DISPATCH after its reads. -/
theorem run_to_dispatch {len : Byte} {rs : List (Option Byte)} (hrs : rs.length = len.toNat)
    (hcap : len.toNat ≤ s.cfg.bufCap) (hl : s.inbound.answers (some startByte :: some len :: rs)) :
    run (3 + rs.length + 1) s = .next (s.handedFrame len rs) := by
  obtain ⟨hstart, hlen, hpay⟩ := hl
  have hloop : run rs.length (s.beginPayload len) = .next ((s.beginPayload len).afterReads rs) :=
    run_payloadReads hq rfl ((Nat.zero_add _).trans hrs) hpay
  have hreads : run (3 + rs.length) s = .next ((s.beginPayload len).afterReads rs) := by
    rw [run_add (run_to_rxPayload hpc hh hq (readResult_eq_byte.mp hstart) (readResult_eq_byte.mp hlen)), hloop]
  have hcnt : 0#8 + BitVec.ofNat 8 rs.length = len := by
    rw [hrs, BitVec.zero_add, BitVec.ofNat_toNat, BitVec.setWidth_eq]
  obtain ⟨-, -, -, -, hrst⟩ := ((readerOnly_beginPayload s len).afterReads rs).toggle_inputs
  have hsilent := hrst.trans hq
  have hend := step_of_payloadEnd (rstAsserted_of_silent hsilent) rfl hcnt hc hcap
  rw [State.sampleRst_of_silent hsilent] at hend
  rw [run_add hreads, run_of_step hend, run_zero, State.handedFrame]

/-- A press frame is fetched from the line and runs SWEV.PRESS; the fetch has changed the read path's registers only. -/
theorem run_to_press {c : Chan} (hbase : s.cfg.decBase = 0) (hcap : 3 ≤ s.cfg.bufCap) (hbuf : s.buf.wf = true)
    (hl : s.inbound.answers (some startByte :: some 3 :: pressReads c)) :
    ∃ u, run 7 s = .next u ∧ step u = .next (u.pressed c) ∧ ReaderOnly s u ∧ u.inbound = s.inbound.drop 5 ∧
      u.trace = s.trace ++ (some startByte :: some 3 :: pressReads c).map readEvent := by
  have hlen : s.cfg.decodable 3 = true := decodable_iff.mpr ⟨by simp [hbase], hcap⟩
  have hclass : classify s.cfg 3 [cmdSwev, chanNumber c, stPressed] = .swevPress 3 c := by
    rw [classify_of_decodable hlen, hbase]
    exact classifyFields_of_channel c
  have hdec : decodeBuffer (s.handedFrame 3 (pressReads c)) = .ok (.swevPress 3 c) := by
    rw [← hclass]
    exact decodeBuffer_afterReads (s := s.beginPayload 3) (rs := pressReads c) hbuf rfl rfl
  have hkeep : ReaderOnly s (s.handedFrame 3 (pressReads c)) := readerOnly_handedFrame ..
  obtain ⟨-, -, -, -, hrst⟩ := hkeep.toggle_inputs
  refine ⟨s.handedFrame 3 (pressReads c), run_to_dispatch (len := 3) hpc hh hq hc rfl hcap hl, ?_, hkeep,
    State.handedFrame_inbound .., State.handedFrame_trace ..⟩
  rw [(quietStep (hrst.trans hq)).dispatch (State.handedFrame_pc ..) _ hdec, exec_swevPress]

end Press

theorem hostCalls_pressed (s : State) (c : Chan) : hostCalls (s.pressed c) =
    if s.ch[c] then [.setPower 0, .directChange]
    else [.setEffect s.eff[c], .setPower Config.powerOnLevel, .directChange] := by
  cases hon : s.ch[c] with
  | true => rw [hostCalls_of_off (s := s.pressed c) (by simp [State.pressed, hon]), if_pos rfl]
  | false =>
    rw [hostCalls_of_on (s := s.pressed c) (by simp [State.pressed, hon]), if_neg Bool.false_ne_true]
    rfl

/-- Settles O43: the press frame is fetched and flips the channel, what it owes is sent, and the host calls of its new state
end the toggle. -/
theorem pressFrameEndToEnd : Obligations.PressFrameEndToEnd := by
  intro s c hpc hh hq hc hbase hcap hbuf hl owed hready
  have hanswers : s.inbound.answers (some startByte :: some 3 :: pressReads c) :=
    Feed.answers_takeD (n := 5) (reads := some startByte :: some 3 :: pressReads c) hl (.inl (Nat.le_refl _))
  obtain ⟨u, hfetch, hpress, hkeep, hin, htrace⟩ := run_to_press hpc hh hq hc hbase hcap hbuf hanswers
  obtain ⟨hch, hseq, heff, htx, hrst⟩ := hkeep.toggle_inputs
  have howed : (toggleChannels u.ch c).2 = owed := hch ▸ toggleChannels_owed s.ch c
  obtain ⟨f, i, hend⟩ := run_owedToIdle (s := u.pressed c) (hrst.trans hq) rfl rfl howed (htx ▸ hready)
  have hrun := (run_add hfetch).trans ((run_of_step hpress).trans hend)
  have hsteps : 7 + (8 * owed.length + 2 + 1) = 10 + 8 * owed.length := by omega
  rw [hsteps] at hrun
  refine ⟨_, hrun, rfl, hin, congrArg (Feed.drop _) htx, heff, fun j => ?_, congrArg (· + _) hseq, ?_⟩
  · exact hch ▸ toggleChannels_table u.ch c j
  · simp only [State.pressed_trace, State.pressed_seq, hostCalls_pressed, htrace, hseq, hch, heff]
    rfl

end Sys2Proof.Machine

/-! ## The proofs of the family 43_frame_writer: the bytes of a frame, the frame STAT builds, the stalled transport -/

namespace Sys2Proof.Machine

/-! ### The bytes of a frame leave (R174) -/

/-- Settles O38: at `txi = 0` the bytes that the transport has not taken yet are the whole frame. -/
theorem sevenBytesLeaveInOrder : Obligations.SevenBytesLeaveInOrder := by
  intro s waits hpc hx hi hq hcount hl
  have hall : unsent s = s.txf.toList := by rw [unsent_of_sending hpc hx, hi, Fin.val_zero, List.drop_zero]
  have hwaits : s.txi.val + waits.count true = 6 := by rw [hi, hcount, Fin.val_zero]
  rw [run_txBytes hq hpc hx hwaits hl, hall]

/-! ### The stalled transport (R177, R262) -/

section Stall
variable {s : State} (hpc : s.pc = .tx) (hx : s.txBusy = true)
include hpc hx

/-- A byte outstanding at a transport that takes none: the step passes the two samples and does nothing else. -/
theorem step_of_stalled (hr : rstAsserted s = false) (hn : s.txReady.head? ≠ some true) :
    step s = .next { s.sampleRst with txReady := s.txReady.tail } := by
  have hact : action s.sampleRst = .move (.next (txWrite s.sampleRst)) := by simp [action, hpc, atTx, hx]
  obtain ⟨-, hw⟩ := (txWrite_cases s.sampleRst).resolve_left fun hready => hn hready.1
  rw [step_of_noReset hr, hact, hw]
  rfl

/-- As long as the transport takes no byte, a run passes its samples and does nothing else. -/
theorem run_of_stalled {n : Nat} (hq : s.rst = .silent) (hn : ∀ k, k < n → (s.txReady.drop k).head? ≠ some true) :
    run n s = .next { s with txReady := s.txReady.drop n } := by
  induction n generalizing s with
  | zero => rfl
  | succ n ih =>
    have hstep := step_of_stalled hpc hx (rstAsserted_of_silent hq) (hn 0 n.succ_pos)
    rw [State.sampleRst_of_silent hq] at hstep
    rw [run_of_step hstep]
    exact ih (s := { s with txReady := s.txReady.tail }) hpc hx hq fun k hk => hn (k + 1) (Nat.succ_lt_succ hk)

end Stall

/-- Settles O39: a step stalls unless reset is asserted, and a reset ends at IDLE. -/
theorem transmitStallIsLeftOnlyByReset : Obligations.TransmitStallIsLeftOnlyByReset := by
  intro s hpc hx
  refine ⟨fun hn hr => step_of_stalled hpc hx hr hn, fun hq n => run_of_stalled hpc hx hq, fun hn t ht => ?_⟩
  rcases step_cases ht with ⟨hr, rfl⟩ | ⟨hr, -⟩
  · exact .inr ⟨hr, rfl⟩
  · rw [step_of_stalled hpc hx hr hn] at ht
    cases ht
    exact .inl ⟨hr, rfl⟩

/-! ### The frame STAT builds (R170 to R173) -/

/-- The seven bytes as R171 writes them, the checksum byte as the sum of R173. -/
theorem statusFrame_eq (seq : Byte) (c : Chan) (on : Bool) : statusFrame seq c on =
    #v[0x7B, 0x04, seq, 0x05, chanNumber c, stateByte on, seq + 0x05 + chanNumber c + stateByte on] := by
  have hsum : csum8 [seq, cmdStat, chanNumber c, stateByte on] = seq + 0x05 + chanNumber c + stateByte on := by
    simp [cmdStat, BitVec.add_assoc]
  rw [statusFrame, hsum]
  rfl

/-- Settles O36: STAT puts the status frame at the transport, with the bytes of R171. -/
theorem statBuildsTheFrame : Obligations.StatBuildsTheFrame := by
  intro s q c on n st
  have hexec : exec (.stat q c on) s = execStat c on s := rfl
  rw [hexec, execStat, statusFrame_eq]
  rfl

/-- Settles O59: the state STAT answers is named by `statBuildsTheFrame`; its last byte is the sum of bytes 2 to 5. -/
theorem frameContentsAndChecksum : Obligations.FrameContentsAndChecksum :=
  fun s c on => ⟨_, statBuildsTheFrame s s.seq c on, rfl, rfl⟩

end Sys2Proof.Machine

/-! ## The proofs of the family 44_checksum: the sum of the bytes, the checker on the frames STAT builds -/

namespace Sys2Proof.Machine

/-! ### The sum (R190) -/

/-- Carries are dropped at every byte, which is the sum modulo 256 of the whole list. -/
theorem csum8_toNat (bytes : List Byte) : (csum8 bytes).toNat = (bytes.map BitVec.toNat).sum % 256 := by
  induction bytes with
  | nil => rfl
  | cons b rest ih => rw [csum8_cons, BitVec.toNat_add, ih, List.map_cons, List.sum_cons, Nat.add_mod_mod]

/-- The order of the bytes does not matter, since it does not matter to their sum as natural numbers. -/
theorem csum8_eq_of_perm {xs ys : List Byte} (h : xs.Perm ys) : csum8 xs = csum8 ys := by
  apply BitVec.eq_of_toNat_eq
  rw [csum8_toNat, csum8_toNat, (h.map BitVec.toNat).sum_eq]

/-- Settles O44: the value and its independence of the order are `csum8_toNat` and `csum8_eq_of_perm`. -/
theorem csumIsTheSumModulo256 : Obligations.CsumIsTheSumModulo256 :=
  ⟨csum8_toNat, fun _ _ => csum8_eq_of_perm, csum8_nil⟩

/-! ### The checker on the frames STAT builds (R192) -/

/-- The frame STAT builds is the status frame with the counter's value, whatever its sequence operand (R171, log 16). -/
theorem txf_of_exec_stat {s t : State} {q : Byte} {c : Chan} {on : Bool} (h : exec (.stat q c on) s = .next t) :
    t.txf = statusFrame s.seq c on := by
  cases h
  rfl

/-- The checker accepts a status frame: byte 6 is the sum of bytes 2 to 5. -/
theorem csumOk_statusFrame (seq : Byte) (c : Chan) (on : Bool) :
    let f := statusFrame seq c on
    csumOk [f[2], f[3], f[4], f[5]] f[6] = true :=
  csumOk_iff.mpr rfl

/-- Settles O37: the frame built is a status frame, which passes the checker and is read back by the decoder. -/
theorem builtFramePassesTheChecker : Obligations.BuiltFramePassesTheChecker := by
  refine ⟨fun _ _ => csumOk_iff, fun s t q c on h => ?_⟩
  rw [txf_of_exec_stat h]
  refine ⟨csumOk_statusFrame s.seq c on, ?_⟩
  have hdecode := decodeTxf_statusFrame s.seq c on []
  rwa [List.append_nil] at hdecode

end Sys2Proof.Machine

/-! ## The proofs of the family 45_host_config: the codec of the host port, the host operations, requests at IDLE -/

namespace Sys2Proof

/-! ### The codec of the host port (R205) -/

/-- Value `i` of the port's 64 bits is bits `8*i+7` to `8*i`. -/
theorem unpackTable_getElem (w : BitVec 64) (i : Chan) : (unpackTable w)[i] = w.extractLsb' (8 * i.val) 8 := by
  simp [unpackTable]

/-- Code 01 alone requests an import, and its operands are the port's other lines. -/
theorem decodeHop_eq_cfgImport {p : HostPort} {valid : Bool} {v : Table Byte} :
    decodeHop p = .cfgImport valid v ↔ p.op = 0b01 ∧ p.cfgValid = valid ∧ unpackTable p.cfgIn = v := by
  by_cases hop : p.op = 0b01
  · rw [decodeHop, if_pos hop]
    simp [hop]
  · refine iff_of_false (fun h => ?_) fun h => hop h.1
    rw [decodeHop, if_neg hop] at h
    split at h
    · cases h
    split at h
    · cases h
    · cases h

/-- A host operation is read back from its port sample; an import's values survive the packing into 64 bits. -/
theorem decodeHop_encodeHop {i : Instr} (hi : i.format = .hop) : decodeHop (encodeHop i) = i := by
  cases i with
  | cfgImport valid v => exact decodeHop_eq_cfgImport.mpr ⟨rfl, rfl, unpack_pack v⟩
  | cfgExport => rfl
  | statusExport => rfl
  | hopNone => rfl
  | _ => cases hi

/-- Settles O3: the round trip, and the inversion of the decoder at code 01. -/
theorem hopDecodeEncodeAgree : Obligations.HopDecodeEncodeAgree := by
  refine ⟨fun _ => decodeHop_encodeHop, fun p valid v h => ?_⟩
  obtain ⟨hop, rfl, rfl⟩ := decodeHop_eq_cfgImport.mp h
  exact ⟨hop, rfl, unpackTable_getElem p.cfgIn⟩

end Sys2Proof

namespace Sys2Proof.Machine

/-! ### What the host operations do (R201 to R205, R207) -/

/-- Well-formed input becomes the effect table, and success is reported. -/
theorem exec_cfgImport_valid (v : Table Byte) (s : State) : exec (.cfgImport true v) s = .next { s with
    eff := v, hostq := s.hostq.tail, trace := s.trace ++ [.cfgResult true] } := rfl

/-- Malformed input sets every assignment to the default; the ghost event stands before the failure result. -/
theorem exec_cfgImport_malformed (v : Table Byte) (s : State) : exec (.cfgImport false v) s = .next { s with
    eff := Vector.replicate 8 effectDefault, hostq := s.hostq.tail
    trace := s.trace ++ [.drop .cfgMalformed, .cfgResult false] } := by
  have hexec : exec (.cfgImport false v) s = .next { s with
      eff := Vector.replicate 8 effectDefault, hostq := s.hostq.tail
      trace := (s.trace ++ [.drop .cfgMalformed]) ++ [.cfgResult false] } := rfl
  rw [hexec, List.append_assoc]
  rfl

theorem exec_cfgExport (s : State) :
    exec .cfgExport s = .next { s with hostq := s.hostq.tail, trace := s.trace ++ [.cfgExport s.eff] } := rfl

theorem exec_statusExport (s : State) : exec .statusExport s = .next { s with
    hostq := s.hostq.tail, trace := s.trace ++ [.statusExport (statusPairs s.eff)] } := rfl

theorem exec_hopNone (s : State) : exec .hopNone s = .next { s with hostq := s.hostq.tail } := rfl

/-- Settles O45: the two outcomes of an import; the default table is eight zeros. -/
theorem importReplacesTheEffectTable : Obligations.ImportReplacesTheEffectTable := fun s v =>
  ⟨exec_cfgImport_valid v s, exec_cfgImport_malformed v s⟩

/-- Settles O46: each operation takes its request, CFG_EXPORT and STATUS_EXPORT append their results; the pairs written out
are those that `statusPairs` computes. -/
theorem exportsReportTheEffectTable : Obligations.ExportsReportTheEffectTable := fun s =>
  ⟨exec_cfgExport s, exec_statusExport s, exec_hopNone s⟩

/-! ### Requests at the port (R203, R206) -/

/-- At IDLE the operation that the next sample of the port encodes runs. -/
theorem step_of_request {s : State} {i : Instr} (hq : s.rst = .silent) (hpc : s.pc = .idle) (hi : i.format = .hop)
    (hne : i ≠ .hopNone) (hreq : s.hostq.head? = some (encodeHop i)) : step s = exec i s := by
  have hdec : decodeHop (hostPort s) = i := by rw [hostPort, hreq, Option.getD_some, decodeHop_encodeHop hi]
  rw [(quietStep hq).hostOp hpc (by rwa [hdec]), hdec]

/-- Settles O47: the step of CFG_IMPORT, then that of CFG_EXPORT at the state it leaves. -/
theorem importThenExportIsTheIdentity : Obligations.ImportThenExportIsTheIdentity := by
  intro s v hpc hq hreq
  simp only [Feed.starts_cons, Feed.starts_nil, and_true] at hreq
  obtain ⟨himport, hexport⟩ := hreq
  have hfirst := step_of_request (i := .cfgImport true v) hq hpc rfl nofun himport
  have hsecond := step_of_request (i := .cfgExport) (s := { s with
    eff := v, hostq := s.hostq.tail, trace := s.trace ++ [.cfgResult true] }) hq hpc rfl nofun hexport
  rw [exec_cfgImport_valid] at hfirst
  rw [exec_cfgExport] at hsecond
  rw [run_of_step hfirst, run_of_step hsecond, run_zero, List.append_assoc]
  rfl

/-- Settles O48: away from IDLE the sequencer ignores the host port; at IDLE the step is the requested operation, which
writes the effect table, the trace and its own request only. -/
theorem hostRequestsAreServedAtIdleFirst : Obligations.HostRequestsAreServedAtIdleFirst := by
  intro s t hr h
  refine ⟨fun hpc => ?_, fun hpc hne => ?_⟩
  · obtain ⟨u, hu⟩ := action_ignoresInputs hpc
    have hstep : step s = .next (u.withInputs s.rst.tail s.hostq) := (step_of_noReset hr).trans (hu s.rst.tail s.hostq)
    rw [hstep] at h
    cases h
    rfl
  · obtain ⟨hserved, -⟩ := stepRunsTheDecodedInstruction s hr
    rw [hserved hpc hne] at h
    obtain ⟨eff, es, rfl, -, -⟩ := hostOp_cases (s := s.sampleRst) hne h
    exact ⟨hpc, rfl, rfl, rfl, rfl⟩

end Sys2Proof.Machine

/-! ## The proofs of the family 60_exceptions: no step stops -/

namespace Sys2Proof.Machine

/-- At IDLE the requested operation runs, or the availability check is made; both answer a next state. -/
theorem perform_atIdle_answers_next (s : State) : ∃ t, perform (atIdle s) = .next t := by
  unfold atIdle
  split
  · exact ⟨poll s.hostDone, rfl⟩
  · exact exec_answers_next (decodeHop (hostPort s)) s

/-- Away from IDLE the next state is the one of `action_ignoresInputs`, with the state's own inputs: the decoder always
names an instruction, every instruction answers a next state, and the sequencer's own moves do not stop. -/
theorem perform_action_answers_next (s : State) : ∃ t, perform (action s) = .next t := by
  by_cases hpc : s.pc = .idle
  · have hidle : action s = atIdle s := by rw [action, hpc]
    exact hidle ▸ perform_atIdle_answers_next s
  · obtain ⟨t, ht⟩ := action_ignoresInputs hpc
    exact ⟨t.withInputs s.rst s.hostq, ht s.rst s.hostq⟩

/-- Settles O10: an asserted reset answers the reset state; without one the sequencer answers, at every position. -/
theorem everyStepAnswersANextState : Obligations.EveryStepAnswersANextState := by
  intro s
  cases hr : rstAsserted s with
  | true => exact ⟨s.sampleRst.resetRegs, step_of_reset hr⟩
  | false =>
    rw [step_of_noReset hr]
    exact perform_action_answers_next s.sampleRst

end Sys2Proof.Machine

/-! ## The proofs of the family 70_reset_and_hazards: reset at any position -/

namespace Sys2Proof.Machine

/-- After reset every channel is off (R21). -/
theorem resetRegs_ch_getElem (s : State) (j : Chan) : s.resetRegs.ch[j] = false := by
  simp

/-- After reset every effect is the default (D17). -/
theorem resetRegs_eff_getElem (s : State) (j : Chan) : s.resetRegs.eff[j] = effectDefault := by
  simp

/-- Settles O52: whatever the position, an asserted reset answers the state with its registers reset, after the reset
sample alone is taken from the environment. -/
theorem resetEndsAnyOperation : Obligations.ResetEndsAnyOperation := by
  intro s hr
  exact ⟨s.sampleRst.resetRegs, step_of_reset hr, resetRegs_ch_getElem _, rfl, resetRegs_eff_getElem _,
    rfl, rfl, rfl, rfl, rfl, rfl, rfl, rfl⟩

end Sys2Proof.Machine
